-- ==== Sys2Proof/Word.lean ====
section
/-! DEFINITION. The unit of data of the block (00_scope.md R10): the byte, "an 8-bit unsigned value; uniform unit of
both plaintext and history". Every other width is a `BitVec` of that width, and a stream bit is a `Bool`. -/

namespace Sys2Proof

/-- A byte (R10). -/
abbrev Byte := BitVec 8

end Sys2Proof
end

