-- ==== Sys2Proof/Config.lean ====
section
/-! DEFINITION. The parameters of the block (00_scope.md R5, R6) and the free values of the model (10_state.md R34, R35,
R43; 93_implementation_defined.md U8). -/

namespace Sys2Proof.Config

/-- `DICTIONARY_SIZE` = 4095, the capacity of the history (R5). -/
abbrev dictionarySize : Nat := 4095

/-- `MAX_MATCH_SIZE` = 15, the capacity of the lookahead and the largest match length (R5). -/
abbrev maxMatchSize : Nat := 15

/-- `MIN_MATCH_SIZE` = 2: a match is emitted only when it is strictly longer (R6). -/
abbrev minMatchSize : Nat := 2

/-- FREE VALUE: what `REF.pos` holds after a START or `rst`, where R43 says "unspecified" (log 3). -/
opaque freeRefPos : Nat → BitVec 12

/-- FREE VALUE: what `REF.len` holds after a START or `rst`, where R43 says "unspecified" (log 3). -/
opaque freeRefLen : Nat → BitVec 4

/-- FREE VALUE: what `C.idx` (0..4094, R35) holds after a START or `rst`, where R43 says "unspecified" (log 3). -/
opaque freeCopyIdx : Nat → Fin 4095

/-- FREE VALUE: what `C.rem` (0..15, R35) holds after a START or `rst`, where R43 says "unspecified" (log 3). -/
opaque freeCopyRem : Nat → Fin 16

end Sys2Proof.Config
end

