-- ==== Sys2Proof/Syntax.lean ====
section
/-! DEFINITION. The instructions of spec/opcode_table.json, one constructor a row: the two tokens of the stream with
their three illegal forms (30_encoding.md R71, R72, R76) and the two host commands (R81). There are no
pseudo-instructions (R84). -/

namespace Sys2Proof

inductive Instr where
  /-- `LIT`: a literal byte (R71). -/
  | lit (data : BitVec 8)
  /-- `MATCH`: copy `len` bytes from relative history index `pos` (R72, R75). -/
  | matchRef (pos : BitVec 12) (len : BitVec 4)
  /-- `MATCH.ILLEGAL_LEN0`: a match token whose length field is 0 (R76). -/
  | matchLen0 (pos : BitVec 12)
  /-- `MATCH.ILLEGAL_LEN1`: a match token whose length field is 1 (R76). -/
  | matchLen1 (pos : BitVec 12)
  /-- `MATCH.ILLEGAL_LEN2`: a match token whose length field is 2 (R76). -/
  | matchLen2 (pos : BitVec 12)
  /-- `CMD.ENCODE`: START with `cmd_mode` = 0 (R81). -/
  | cmdEncode
  /-- `CMD.DECODE`: START with `cmd_mode` = 1 (R81). -/
  | cmdDecode
  deriving DecidableEq, Repr

/-- The instructions that stand in a token stream; the other two are host commands (30_encoding.md, first paragraph). -/
def Instr.isToken : Instr → Bool
  | .lit _ => true
  | .matchRef _ _ => true
  | .matchLen0 _ => true
  | .matchLen1 _ => true
  | .matchLen2 _ => true
  | .cmdEncode => false
  | .cmdDecode => false

end Sys2Proof
end

