-- ==== Sys2Proof/WellFormed.lean ====
section
/-! DEFINITION. Which instructions the encoding can express as written: a `MATCH` with a length of 0, 1 or 2 belongs to
one of the three more specific rows of the table (30_encoding.md R76, R85). Every position value is encodable: whether it
lies inside the history depends on the state and is no matter of form (R77). -/

namespace Sys2Proof

/-- Well-formedness of an instruction. -/
def Instr.wf : Instr → Bool
  | .lit _ => true
  | .matchRef _ len => decide (Config.minMatchSize < len.toNat)
  | .matchLen0 _ => true
  | .matchLen1 _ => true
  | .matchLen2 _ => true
  | .cmdEncode => true
  | .cmdDecode => true

end Sys2Proof
end

