-- ==== Sys2Proof/Decode.lean ====
section
/-! DEFINITION. Bit order, the decoder and the encoder (30_encoding.md). Words stand in three formats: T9 and T17 in the
token stream, first bit of the stream most significant (R71, R72), and CMD1 on the host's `cmd_mode` input (R81). -/

namespace Sys2Proof

/-! ### Bits and bytes (20_memory.md R55, R56) -/

/-- The low `n` bits of `v`, most significant first (R56). -/
def msbBits : Nat → Nat → List Bool
  | 0, _ => []
  | n + 1, v => v.testBit n :: msbBits n v

/-- The unsigned value of bits delivered most significant first (R56). -/
def ofBits (bs : List Bool) : Nat := bs.foldl (fun v b => 2 * v + b.toNat) 0

/-- The first `n` bits of `bs`, with zeros for those that do not exist (41_bitstream_reader.md R103). -/
def takeZeroFilled (n : Nat) (bs : List Bool) : List Bool := (bs ++ List.replicate n false).take n

/-- The bits of a byte stream in stream order: bit 7 of byte 0 first (R55). -/
def bitsOfBytes (bytes : List Byte) : List Bool := bytes.flatMap fun b => msbBits 8 b.toNat

/-- Packing bits into bytes, with `held` the bits of the byte begun: the first bit of a byte is its bit 7, and the last
byte is completed by zero bits (R55; 40_bitstream_writer.md R92, R93). -/
def packBitsFrom (held : List Bool) : List Bool → List Byte
  | [] => if held = [] then [] else [BitVec.ofNat 8 (ofBits (takeZeroFilled 8 held))]
  | b :: bs =>
    if (held ++ [b]).length = 8 then BitVec.ofNat 8 (ofBits (held ++ [b])) :: packBitsFrom [] bs
    else packBitsFrom (held ++ [b]) bs

/-- The byte stream of a bit stream (R55, R93). -/
def packBits (bits : List Bool) : List Byte := packBitsFrom [] bits

/-! ### Match references (R73) -/

/-- The packed reference, `position << 4 | length` (R73). -/
def packRef (pos : BitVec 12) (len : BitVec 4) : BitVec 16 := (pos.setWidth 16 <<< 4) ||| len.setWidth 16

/-- `packed[15:4]` (R73). -/
def refPos (packed : BitVec 16) : BitVec 12 := packed.extractLsb' 4 12

/-- `packed[3:0]` (R73). -/
def refLen (packed : BitVec 16) : BitVec 4 := packed.extractLsb' 0 4

/-! ### Encoded words and the decoder -/

/-- A word of one of the three formats of the opcode table. -/
inductive Code where
  /-- `T9`: bit 8 is first in the stream (R71). -/
  | t9 (w : BitVec 9)
  /-- `T17`: bit 16 is first in the stream (R72). -/
  | t17 (w : BitVec 17)
  /-- `CMD1`: the host's `cmd_mode` (R81). -/
  | cmd1 (w : BitVec 1)
  deriving DecidableEq, Repr

/-- Why bits are no instruction. -/
inductive DecodeError where
  /-- A T9 word whose flag is 1: no literal (R74). -/
  | flagNotLiteral
  /-- A T17 word whose flag is 0: no match (R74). -/
  | flagNotMatch
  /-- No bit at all. -/
  | noFlag
  /-- Flag 0 and fewer than 8 further bits (R79). -/
  | truncatedLiteral
  /-- Flag 1 and fewer than 16 further bits (R79). -/
  | truncatedMatch
  deriving DecidableEq, Repr

/-- The instruction of a literal token's payload (R71). -/
def decodeLit (data : BitVec 8) : Instr := .lit data

/-- The instruction of a match token's payload: the more specific rows of the table first (R76, R85). -/
def decodeRef (pos : BitVec 12) (len : BitVec 4) : Instr :=
  if len = 0#4 then .matchLen0 pos
  else if len = 1#4 then .matchLen1 pos
  else if len = 2#4 then .matchLen2 pos
  else .matchRef pos len

/-- The command `cmd_mode` selects (R81). -/
def decodeCmd (mode : BitVec 1) : Instr := if mode = 0#1 then .cmdEncode else .cmdDecode

/-- The decoder of one word, total, rejecting by name. -/
def decode : Code → Except DecodeError Instr
  | .t9 w => if w.getLsbD 8 then .error .flagNotLiteral else .ok (decodeLit (w.extractLsb' 0 8))
  | .t17 w =>
    if w.getLsbD 16 then .ok (decodeRef (refPos (w.extractLsb' 0 16)) (refLen (w.extractLsb' 0 16)))
    else .error .flagNotMatch
  | .cmd1 w => .ok (decodeCmd w)

/-- How many bits the token that begins with flag bit `flag` has (R74). -/
def tokenLength (flag : Bool) : Nat := if flag then 17 else 9

/-- The first bit of a bit sequence, 0 past its end (R103). -/
def flagOf (bits : List Bool) : Bool := bits.headD false

/-- The token at the head of a bit sequence with the bits after it, missing bits read as zeros: 1 bit, then 8, or 1 bit,
then 12, then 4 (R74, R103). -/
def nextToken (bits : List Bool) : Instr × List Bool :=
  if flagOf bits then
    (decodeRef (BitVec.ofNat 12 (ofBits (takeZeroFilled 12 (bits.drop 1))))
      (BitVec.ofNat 4 (ofBits (takeZeroFilled 4 (bits.drop 13)))), bits.drop 17)
  else (decodeLit (BitVec.ofNat 8 (ofBits (takeZeroFilled 8 (bits.drop 1)))), bits.drop 9)

/-- The decoder of a bit sequence: the token at its head and the bits after it, a token cut short rejected by name. -/
def decodeBits (bits : List Bool) : Except DecodeError (Instr × List Bool) :=
  match bits with
  | [] => .error .noFlag
  | flag :: _ =>
    if bits.length < tokenLength flag then .error (if flag then .truncatedMatch else .truncatedLiteral)
    else .ok (nextToken bits)

/-- The decoder of bytes: the token that begins at bit 7 of the first byte (R70). -/
def decodeBytes (bytes : List Byte) : Except DecodeError (Instr × List Bool) := decodeBits (bitsOfBytes bytes)

/-! ### The encoder -/

/-- The word of an instruction, from the formats of R71, R72, R76 and R81. -/
def encode : Instr → Code
  | .lit data => .t9 (0#1 ++ data)
  | .matchRef pos len => .t17 (1#1 ++ packRef pos len)
  | .matchLen0 pos => .t17 (1#1 ++ packRef pos 0#4)
  | .matchLen1 pos => .t17 (1#1 ++ packRef pos 1#4)
  | .matchLen2 pos => .t17 (1#1 ++ packRef pos 2#4)
  | .cmdEncode => .cmd1 0#1
  | .cmdDecode => .cmd1 1#1

/-- How many bits a word has. -/
def Code.width : Code → Nat
  | .t9 _ => 9
  | .t17 _ => 17
  | .cmd1 _ => 1

/-- A word as a number, first bit of the stream most significant. -/
def Code.toNat : Code → Nat
  | .t9 w => w.toNat
  | .t17 w => w.toNat
  | .cmd1 w => w.toNat

/-- The bits of a word, first bit of the stream first (R55, R56). -/
def Code.bits (c : Code) : List Bool := msbBits c.width c.toNat

/-- Assembling a listing: the tokens' bits in order, zero bits up to a whole byte, cut into bytes (R83). -/
def assemble (tokens : List Instr) : List Byte := packBits (tokens.flatMap fun i => (encode i).bits)

/-- The decoder's own parse of a bit sequence (R74, R79, R83), at most `fuel` tokens: a literal cut short ends the stream
and is dropped, a match cut short is zero-filled and ends the stream (44_decoder.md R156). -/
def parseTokens : Nat → List Bool → List Instr
  | 0, _ => []
  | fuel + 1, bits =>
    if bits.length < tokenLength (flagOf bits) then
      if flagOf bits then [(nextToken bits).1] else []
    else (nextToken bits).1 :: parseTokens fuel (nextToken bits).2

/-- Disassembling a byte stream (R83). -/
def disassemble (bytes : List Byte) : List Instr :=
  parseTokens ((bitsOfBytes bytes).length + 1) (bitsOfBytes bytes)

/-! ### The opcode table -/

/-- A row of spec/opcode_table.json: an instruction word `w` of the row's width is of the row when
`w &&& mask = pattern`. -/
structure OpcodeRow where
  mnemonic : String
  width : Nat
  pattern : Nat
  mask : Nat
  deriving DecidableEq, Repr

/-- The row of the table an instruction belongs to (R85). -/
def Instr.row : Instr → OpcodeRow
  | .lit _ => ⟨"LIT", 9, 0x000, 0x100⟩
  | .matchRef _ _ => ⟨"MATCH", 17, 0x10000, 0x10000⟩
  | .matchLen0 _ => ⟨"MATCH.ILLEGAL_LEN0", 17, 0x10000, 0x1000F⟩
  | .matchLen1 _ => ⟨"MATCH.ILLEGAL_LEN1", 17, 0x10001, 0x1000F⟩
  | .matchLen2 _ => ⟨"MATCH.ILLEGAL_LEN2", 17, 0x10002, 0x1000F⟩
  | .cmdEncode => ⟨"CMD.ENCODE", 1, 0x0, 0x1⟩
  | .cmdDecode => ⟨"CMD.DECODE", 1, 0x1, 0x1⟩

/-! ### Words as the opcode table numbers them -/

/-- Three bytes of token stream that begin with the token whose word is `w`: a row of up to 16 bits is a T9 word, a longer
one a T17 word, and zeros follow (log 11). -/
def tableBits (nbits w : Nat) : List Bool :=
  if nbits ≤ 16 then msbBits 9 w ++ List.replicate 15 false else msbBits 17 w ++ List.replicate 7 false

/-- What the decoder reads from a word of the table: a row of up to one byte is a level of `cmd_mode`, a longer one the
first token of a stream (log 11). -/
def decodeTableWord (nbits w : Nat) : Option Instr :=
  if nbits ≤ 8 then some (decodeCmd (BitVec.ofNat 1 w))
  else
    match decodeBytes (packBits (tableBits nbits w)) with
    | .ok (i, _) => some i
    | .error _ => none

end Sys2Proof
end

