-- ==== Sys2Proof/Machine/State.lean ====
section
/-! DEFINITION. The state of the machine as plain data: the block's state, exactly the items of 10_state.md R20, and the
environment of the run, which R42 calls a parameter and a step must read (log 1). -/

namespace Sys2Proof.Machine

/-! ### Sequencer and status registers (10_state.md R22 to R27) -/

/-- `PHASE` (R22); codes 6 and 7 do not exist. -/
inductive Phase where
  | idle
  | encPrime
  | encLoop
  | decLoop
  | done
  | fault
  deriving DecidableEq, Repr

/-- `MODE` (R23). -/
inductive Mode where
  | encode
  | decode
  deriving DecidableEq, Repr

/-- The causes `ERR_CODE` can hold (R25, 60_exceptions.md R170); codes 5 to 7 do not exist. -/
inductive ErrCode where
  | none
  | formatLen
  | formatPos
  | ioSrc
  | ioSnk
  deriving DecidableEq, Repr

/-- The registers fault entry writes (R25, R26, R27). -/
structure ErrRegs where
  /-- `ERR_CODE` -/
  code : ErrCode
  /-- `ERR_POS` -/
  pos : BitVec 12
  /-- `ERR_LEN` -/
  len : BitVec 4
  /-- `ERR_OFFSET` -/
  offset : BitVec 32
  deriving DecidableEq, Repr

/-! ### Datapath registers (10_state.md R28 to R35) -/

/-- The bit writer (R28). -/
structure Writer where
  /-- `W.acc` -/
  acc : BitVec 8
  /-- `W.n` -/
  n : Nat
  deriving DecidableEq, Repr

/-- The bit reader (R29, R30, R31). -/
structure Reader where
  /-- `R.cur` -/
  cur : BitVec 8
  /-- `R.n` -/
  n : Nat
  /-- `R.exh`, the exhaustion signal -/
  exh : Bool
  /-- `R.fetched` -/
  fetched : BitVec 32
  deriving DecidableEq, Repr

/-- The encoder's flags (R32, R33). -/
structure EncFlags where
  /-- `E.eof` -/
  eof : Bool
  /-- `E.more` -/
  more : Bool
  deriving DecidableEq, Repr

/-- `REF`, the match reference of the token in progress (R34). -/
structure Ref where
  pos : BitVec 12
  len : BitVec 4
  deriving DecidableEq, Repr

/-- The copy engine (R35). -/
structure CopyRegs where
  /-- `C.idx` -/
  idx : Nat
  /-- `C.rem` -/
  rem : Nat
  deriving DecidableEq, Repr

/-! ### The two memories (10_state.md R36, R37; 20_memory.md R50 to R53) -/

/-- `H` and `LA`, in stream order, index 0 the oldest byte. The block has no absolute addresses (R51, R54), so its
memory is these two sequences and no list of addressed cells (log 8). -/
structure Memory where
  /-- `H`, the history -/
  hist : List Byte
  /-- `LA`, the lookahead -/
  look : List Byte
  deriving DecidableEq, Repr

/-- The canonical form of memory: the two occupancy bounds (R52, R53). -/
abbrev Memory.wf (m : Memory) : Prop :=
  m.hist.length ≤ Config.dictionarySize ∧ m.look.length ≤ Config.maxMatchSize

/-! ### The environment (20_memory.md R58, R59; 60_exceptions.md R184; log 1) -/

/-- What is left of the session's byte source: the bytes not yet fetched, and after how many further bytes the source
fails, if it does (R58). -/
structure Source where
  bytes : List Byte
  errAt : Option Nat
  deriving DecidableEq, Repr

/-- The session's byte sink: the bytes accepted, in order, and after how many further bytes the sink fails, if it does
(R59). -/
structure Sink where
  out : List Byte
  failAfter : Option Nat
  deriving DecidableEq, Repr

/-- What the host has ready for a session before it presents START (70_reset_and_hazards.md R192): a source, and a sink
that fails after so many bytes, if it does. -/
structure Job where
  src : Source
  sinkFailAfter : Option Nat
  deriving DecidableEq, Repr

/-- What the host drives on `rst`, `start` and `cmd_mode` during one step (60_exceptions.md R184). -/
structure HostPins where
  /-- `rst`: `none` is 0; `some k` is 1, at an edge by which `k` of the bytes that the step in progress writes have been
  accepted by the sink (log 5). -/
  rst : Option Nat
  /-- `start` -/
  start : Bool
  /-- `cmd_mode` -/
  cmdMode : BitVec 1
  deriving DecidableEq, Repr

/-- The host drives nothing. -/
def HostPins.quiet : HostPins := ⟨none, false, 0#1⟩

/-- The state. -/
structure State where
  phase : Phase
  mode : Mode
  err : ErrRegs
  wr : Writer
  rd : Reader
  enc : EncFlags
  ref : Ref
  copy : CopyRegs
  mem : Memory
  /-- the source of the current session -/
  src : Source
  /-- the sink of the current or last session -/
  snk : Sink
  /-- what the host has ready for the sessions to come -/
  jobs : List Job
  /-- what the host drives, one entry a step; past the end of the list it drives nothing -/
  host : List HostPins
  /-- MODEL's own: how many times free values have been drawn (log 3) -/
  draws : Nat
  deriving DecidableEq, Repr

/-! ### Why a step stops

The spec's own faults (60_exceptions.md R170) are no stops: fault entry (R178) gives a next state with `PHASE` = FAULT. -/

/-- Faults of the machine in the host's sense. -/
inductive Fault where
  /-- Raised by LA.POP on an empty lookahead: `tail` is defined only when `|S| > 0` (00_scope.md R11), and
  42_history_matchfinder.md R122 has `|LA| > 0` as its precondition. Safe: no rule issues such a pop (log 6). -/
  | popOfEmptyLookahead
  deriving DecidableEq, Repr

/-- Refusals. -/
inductive Refusal where
  /-- Raised by `exec` for an instruction without a meaning. Safe. No arm of `exec` raises it. -/
  | notModelled (mnemonic : String)
  /-- Raised by HB.BYTEAT outside the history. Safe: 20_memory.md R61, "No rule ever reads `H` or `LA` out of bounds, and
  a model may make such a read a refusal" (U6, log 7). -/
  | historyIndex (index : Nat)
  /-- Raised by LA.BYTEAT outside the lookahead. Safe: 20_memory.md R61 (U6, log 7). -/
  | lookaheadIndex (index : Nat)
  deriving DecidableEq, Repr

namespace State

/-! ### Updates, one field each -/

def setPhase (s : State) (p : Phase) : State := { s with phase := p }
def setMode (s : State) (m : Mode) : State := { s with mode := m }
def setErr (s : State) (e : ErrRegs) : State := { s with err := e }
def setWr (s : State) (w : Writer) : State := { s with wr := w }
def setRd (s : State) (r : Reader) : State := { s with rd := r }
def setEnc (s : State) (e : EncFlags) : State := { s with enc := e }
def setRef (s : State) (r : Ref) : State := { s with ref := r }
def setCopy (s : State) (c : CopyRegs) : State := { s with copy := c }
def setMem (s : State) (m : Memory) : State := { s with mem := m }
def setSrc (s : State) (q : Source) : State := { s with src := q }
def setSnk (s : State) (q : Sink) : State := { s with snk := q }
def setJobs (s : State) (j : List Job) : State := { s with jobs := j }
def setHost (s : State) (h : List HostPins) : State := { s with host := h }
def setDraws (s : State) (n : Nat) : State := { s with draws := n }

/-- The machine after power-on and `rst`: the "after `rst`" column of 10_state.md R43, 0 where it says "unspecified"
(`ref`, `copy`: log 2), and an environment that offers nothing (log 1). -/
def reset : State where
  phase := .idle
  mode := .encode
  err := ⟨.none, 0, 0, 0⟩
  wr := ⟨0, 0⟩
  rd := ⟨0, 0, false, 0⟩
  enc := ⟨false, false⟩
  ref := ⟨0, 0⟩
  copy := ⟨0, 0⟩
  mem := ⟨[], []⟩
  src := ⟨[], none⟩
  snk := ⟨[], none⟩
  jobs := []
  host := []
  draws := 0

end State

end Sys2Proof.Machine
end

