-- ==== Sys2Proof/Machine/Flags.lean ====
section
/-! DEFINITION. The flags and status of the block: `STATUS` as a function of `PHASE` (10_state.md R24), the codes the
registers present, and the output ports (60_exceptions.md R184). There are no arithmetic condition codes (R39). -/

namespace Sys2Proof.Machine

/-- The code of `PHASE` (R22). -/
def Phase.code : Phase → BitVec 3
  | .idle => 0
  | .encPrime => 1
  | .encLoop => 2
  | .decLoop => 3
  | .done => 4
  | .fault => 5

/-- The bit of `MODE` (R23). -/
def Mode.bit : Mode → BitVec 1
  | .encode => 0
  | .decode => 1

/-- The code of `ERR_CODE` (R25). -/
def ErrCode.bits : ErrCode → BitVec 3
  | .none => 0
  | .formatLen => 1
  | .formatPos => 2
  | .ioSrc => 3
  | .ioSnk => 4

/-- Whether a fault records the malformed reference (R26). -/
def ErrCode.isFormat : ErrCode → Bool
  | .none => false
  | .formatLen => true
  | .formatPos => true
  | .ioSrc => false
  | .ioSnk => false

/-- In which phases the block is busy (R24). -/
def Phase.busy : Phase → Bool
  | .idle => false
  | .encPrime => true
  | .encLoop => true
  | .decLoop => true
  | .done => false
  | .fault => false

/-- `busy` (R24). -/
def State.busy (s : State) : Bool := s.phase.busy

/-- `done` (R24). -/
def State.done (s : State) : Bool := decide (s.phase = .done)

/-- `fault` (R24). -/
def State.faulted (s : State) : Bool := decide (s.phase = .fault)

/-- The report of the advance step: more data exactly when the lookahead is not empty (43_encoder.md R131, R135). -/
def Memory.moreData (m : Memory) : Bool := decide (0 < m.look.length)

/-- The output ports of the block (60_exceptions.md R184). -/
structure Ports where
  busy : Bool
  done : Bool
  fault : Bool
  errCode : BitVec 3
  errPos : BitVec 12
  errLen : BitVec 4
  errOffset : BitVec 32
  srcReady : Bool
  snkValid : Bool
  deriving DecidableEq, Repr

/-- What the output ports show between steps, where no handshake is open (R185, log 14). -/
def State.ports (s : State) : Ports where
  busy := s.busy
  done := s.done
  fault := s.faulted
  errCode := s.err.code.bits
  errPos := s.err.pos
  errLen := s.err.len
  errOffset := s.err.offset
  srcReady := false
  snkValid := false

end Sys2Proof.Machine
end

