-- ==== Sys2Proof/Machine/Ops.lean ====
section
/-! DEFINITION. The shared operations: how an operation ends, the two stream primitives (20_memory.md R58, R59), fault
entry (60_exceptions.md R178), the bit writer (40_bitstream_writer.md), the bit reader (41_bitstream_reader.md), history
and lookahead (42_history_matchfinder.md), session start and `rst` (70_reset_and_hazards.md). -/

namespace Sys2Proof.Machine

/-! ### How an operation ends -/

/-- The end of an operation with a result of type `α`. -/
inductive Res (α : Type) where
  /-- It completed with result `a` in state `s`. -/
  | ok (a : α) (s : State)
  /-- It raised one of the spec's faults: fault entry has been performed, the session is over and "no statement after it
  in the same rule is executed" (00_scope.md R12). -/
  | raised (s : State)
  /-- The machine stopped with a fault. -/
  | fault (r : Fault)
  /-- The model gives no meaning. -/
  | refused (r : Refusal)
  deriving DecidableEq, Repr

/-- One operation after another. -/
def Res.bind {α β : Type} (r : Res α) (f : α → State → Res β) : Res β :=
  match r with
  | .ok a s => f a s
  | .raised s => .raised s
  | .fault r => .fault r
  | .refused r => .refused r

/-- The outcome of a step whose whole work is this operation. -/
def Res.outcome (r : Res Unit) : Host.Outcome State Fault Refusal :=
  match r with
  | .ok _ s => .next s
  | .raised s => .next s
  | .fault r => .fault r
  | .refused r => .refused r

/-! ### The source port (20_memory.md R58; 60_exceptions.md R185) -/

/-- The result of `SrcFetch()`: `Byte(b)`, `None` (no further bytes) or `Err`. -/
inductive SrcAnswer where
  | byte (b : Byte)
  | eof
  | err
  deriving DecidableEq, Repr

/-- The inputs of the source port at the edge that closes a fetch. -/
structure SrcPins where
  valid : Bool
  data : Byte
  eof : Bool
  err : Bool
  deriving DecidableEq, Repr

/-- Whether an edge closes an open fetch: at least one of `src_err`, `src_valid`, `src_eof` is 1 (R185). -/
def SrcPins.closes (p : SrcPins) : Bool := p.err || p.valid || p.eof

/-- The result at the closing edge: `src_err` wins, then `src_valid`, else no further bytes (R185, R176). -/
def SrcPins.answer (p : SrcPins) : SrcAnswer :=
  if p.err then .err else if p.valid then .byte p.data else .eof

/-- How the host answers the next fetch from what is left of the source (R58). -/
def Source.drive (q : Source) : SrcPins where
  valid := !q.bytes.isEmpty
  data := q.bytes.headD 0
  eof := q.bytes.isEmpty
  err := decide (q.errAt = some 0)

/-- The source after it has given a byte. -/
def Source.consume (q : Source) : Source := ⟨q.bytes.tail, q.errAt.map (· - 1)⟩

/-- `SrcFetch()` (R58): a byte is consumed, the other two answers consume nothing. -/
def srcFetch (s : State) : SrcAnswer × State :=
  match s.src.drive.answer with
  | .byte b => (.byte b, s.setSrc s.src.consume)
  | .eof => (.eof, s)
  | .err => (.err, s)

/-! ### The sink port (20_memory.md R59; 60_exceptions.md R185) -/

/-- The result of `SinkWrite(b)`. -/
inductive SnkAnswer where
  | ok
  | err
  deriving DecidableEq, Repr

/-- The inputs of the sink port at the edge that closes a write. -/
structure SnkPins where
  ready : Bool
  err : Bool
  deriving DecidableEq, Repr

/-- Whether an edge closes an open write (R185). -/
def SnkPins.closes (p : SnkPins) : Bool := p.err || p.ready

/-- The result at the closing edge: `snk_err` wins (R185, R176). -/
def SnkPins.answer (p : SnkPins) : SnkAnswer := if p.err then .err else .ok

/-- How the host answers the next write (R59). -/
def Sink.drive (q : Sink) : SnkPins where
  ready := true
  err := decide (q.failAfter = some 0)

/-- The sink after it has accepted `b` (R59). -/
def Sink.accept (q : Sink) (b : Byte) : Sink := ⟨q.out ++ [b], q.failAfter.map (· - 1)⟩

/-- `SinkWrite(b)` (R59): an accepted byte is appended, a refused one is not. -/
def sinkWrite (b : Byte) (s : State) : SnkAnswer × State :=
  match s.snk.drive.answer with
  | .ok => (.ok, s.setSnk (s.snk.accept b))
  | .err => (.err, s)

/-! ### Taking a fault (60_exceptions.md R178) -/

/-- The flush of fault entry: the pending bits of an ENCODE session go to the sink, whose answer is ignored (R176, R178). -/
def faultFlush (s : State) : State :=
  if 0 < s.wr.n then (sinkWrite s.wr.acc s).2.setWr ⟨0, 0⟩ else s

/-- Fault entry: what `raise Fault(code)` does (R178). There is no return from it: the session is over until the next
accepted START or `rst` (R179). -/
def faultEntry (code : ErrCode) (s : State) : State :=
  let recorded : ErrRegs :=
    if code.isFormat then ⟨code, s.ref.pos, s.ref.len, s.rd.fetched⟩ else ⟨code, 0, 0, s.rd.fetched⟩
  let s1 := s.setErr recorded
  let s2 := if s.mode = .encode ∧ code ≠ .ioSnk then faultFlush s1 else s1
  s2.setPhase .fault

/-- `raise Fault(code)`. -/
def raise {α : Type} (code : ErrCode) (s : State) : Res α := .raised (faultEntry code s)

/-- A byte to the sink; a refusal raises IO_SNK (60_exceptions.md R174). -/
def emitByte (b : Byte) (s : State) : Res Unit :=
  match sinkWrite b s with
  | (.ok, s1) => .ok () s1
  | (.err, s1) => raise .ioSnk s1

/-! ### The bit writer (40_bitstream_writer.md) -/

/-- `v[k] <- b`. -/
def assignBit (v : BitVec 8) (k : Nat) (b : Bool) : BitVec 8 :=
  if b then v ||| (1#8 <<< k) else v &&& ~~~(1#8 <<< k)

/-- One bit of BW.WRITEBITS: placed at `W.acc[7 - W.n]`; the eighth sends the byte (R91). -/
def writeBit (b : Bool) (s : State) : Res Unit :=
  let s1 := s.setWr ⟨assignBit s.wr.acc (7 - s.wr.n) b, s.wr.n + 1⟩
  if s1.wr.n = 8 then (emitByte s1.wr.acc s1).bind fun _ s2 => .ok () (s2.setWr ⟨0, 0⟩)
  else .ok () s1

/-- BW.WRITEBITS(`value`, `n`): the low `n` bits of `value`, most significant first (R91). -/
def writeBits (value : BitVec 16) : Nat → State → Res Unit
  | 0, s => .ok () s
  | k + 1, s => (writeBit (value.getLsbD k) s).bind fun _ s1 => writeBits value k s1

/-- BW.FLUSH: pending bits go out as the high-order bits of a byte (R92). -/
def flushWriter (s : State) : Res Unit :=
  if 0 < s.wr.n then (emitByte s.wr.acc s).bind fun _ s1 => .ok () (s1.setWr ⟨0, 0⟩)
  else .ok () s

/-! ### The bit reader (41_bitstream_reader.md) -/

/-- BR.FETCH (R100). -/
def fetchByte (s : State) : Res Unit :=
  match srcFetch s with
  | (.byte b, s1) => .ok () (s1.setRd ⟨b, 8, s1.rd.exh, s1.rd.fetched + 1⟩)
  | (.eof, s1) => .ok () (s1.setRd ⟨0, 0, true, s1.rd.fetched⟩)
  | (.err, s1) => raise .ioSrc s1

/-- The bit BR.READBITS takes once the reader has been refilled: the next bit of `R.cur`, or 0 past exhaustion (R101,
R103). -/
def takeBit (s : State) : Bool × State :=
  if 0 < s.rd.n then (s.rd.cur.getLsbD 7, s.setRd ⟨s.rd.cur <<< 1, s.rd.n - 1, s.rd.exh, s.rd.fetched⟩)
  else (false, s)

/-- One bit of BR.READBITS: a byte is fetched only when a bit is asked for and none is held (R101, R104). -/
def readBit (s : State) : Res Bool :=
  (if s.rd.n = 0 ∧ s.rd.exh = false then fetchByte s else .ok () s).bind fun _ s1 =>
    .ok (takeBit s1).1 (takeBit s1).2

/-- The loop of BR.READBITS with the bits read so far in `v` (R101). -/
def readBitsFrom (v : BitVec 16) : Nat → State → Res (BitVec 16)
  | 0, s => .ok v s
  | n + 1, s => (readBit s).bind fun b s1 => readBitsFrom ((v <<< 1) ||| (BitVec.ofBool b).setWidth 16) n s1

/-- BR.READBITS(`n`), `n` at most 16: the result is the low `n` bits (R101). -/
def readBits (n : Nat) (s : State) : Res (BitVec 16) := readBitsFrom 0#16 n s

/-! ### History and lookahead (42_history_matchfinder.md) -/

/-- Eviction: past the capacity the oldest byte leaves (R110, R121). -/
def evict (capacity : Nat) (l : List Byte) : List Byte := if capacity < l.length then l.tail else l

/-- HB.PUSH(`b`): append, and evict the oldest byte past the capacity (R110). -/
def Memory.push (m : Memory) (b : Byte) : Memory := ⟨evict Config.dictionarySize (m.hist ++ [b]), m.look⟩

/-- LA.APPEND(`b`): append, and evict the oldest byte past the capacity (R121). -/
def Memory.append (m : Memory) (b : Byte) : Memory := ⟨m.hist, evict Config.maxMatchSize (m.look ++ [b])⟩

/-- HB.BYTEAT(`i`): defined only inside the history (R111, R61). -/
def histByteAt (i : Nat) (s : State) : Res Byte :=
  match s.mem.hist[i]? with
  | some b => .ok b s
  | none => .refused (.historyIndex i)

/-- LA.BYTEAT(`k`): defined only inside the lookahead (R123, R61). -/
def laByteAt (k : Nat) (s : State) : Res Byte :=
  match s.mem.look[k]? with
  | some b => .ok b s
  | none => .refused (.lookaheadIndex k)

/-- HB.PUSH on the state. -/
def histPush (b : Byte) (s : State) : State := s.setMem (s.mem.push b)

/-- LA.APPEND on the state. -/
def laAppend (b : Byte) (s : State) : State := s.setMem (s.mem.append b)

/-- LA.POP: the oldest byte leaves without replacement; its precondition is `|LA| > 0` (R122). -/
def laPop (s : State) : Res Unit :=
  match s.mem.look with
  | [] => .fault .popOfEmptyLookahead
  | _ :: l => .ok () (s.setMem ⟨s.mem.hist, l⟩)

/-- One byte of HB.COPYRANGE: read, push, write, and advance the index only when the push did not evict (R112, R113). -/
def copyByte (s : State) : Res Unit :=
  (histByteAt s.copy.idx s).bind fun b s1 =>
    let full := decide (s1.mem.hist.length = Config.dictionarySize)
    (emitByte b (histPush b s1)).bind fun _ s2 =>
      .ok () (s2.setCopy ⟨if full then s2.copy.idx else s2.copy.idx + 1, s2.copy.rem - 1⟩)

/-- The loop of HB.COPYRANGE, once for each byte still to copy (R112). -/
def copyLoop : Nat → State → Res Unit
  | 0, s => .ok () s
  | n + 1, s => (copyByte s).bind fun _ s1 => copyLoop n s1

/-- HB.COPYRANGE(`start`, `length`) (R112). -/
def copyRange (start length : Nat) (s : State) : Res Unit := copyLoop length (s.setCopy ⟨start, length⟩)

/-! ### Session start and reset (70_reset_and_hazards.md) -/

/-- `REF` and `C` after a START or `rst`: "unspecified", so free values, drawn anew each time (10_state.md R43, U8; log 3). -/
def drawUnspecified (s : State) : State :=
  ((s.setRef ⟨Config.freeRefPos s.draws, Config.freeRefLen s.draws⟩).setCopy
    ⟨(Config.freeCopyIdx s.draws).val, (Config.freeCopyRem s.draws).val⟩).setDraws (s.draws + 1)

/-- The items that START and `rst` alike set to empty or 0 (R43). -/
def clearBlock (s : State) : State :=
  (((((s.setErr ⟨.none, 0, 0, 0⟩).setWr ⟨0, 0⟩).setRd ⟨0, 0, false, 0⟩).setEnc ⟨false, false⟩).setMem ⟨[], []⟩)

/-- What the host has ready for the next session; a host that has nothing ready offers an empty source and a sink that
never fails (R192, log 9). -/
def State.nextJob (s : State) : Job := s.jobs.headD ⟨⟨[], none⟩, none⟩

/-- An accepted START: the session's state initialised, its source and sink connected (R191). -/
def startSession (m : Mode) (p : Phase) (s : State) : State :=
  let s1 := (drawUnspecified (clearBlock s)).setMode m
  let s2 := ((s1.setSrc s.nextJob.src).setSnk ⟨[], s.nextJob.sinkFailAfter⟩).setJobs s.jobs.tail
  s2.setPhase p

/-- `rst` at an edge by which the sink has accepted `accepted` of the bytes the step in progress writes: every item of the
block takes its "after `rst`" value, and nothing is flushed (R190, log 5). -/
def applyRst (accepted : List Byte) (s : State) : State :=
  let s1 := ((drawUnspecified (clearBlock s)).setMode .encode).setPhase .idle
  s1.setSnk ⟨s.snk.out ++ accepted, s.snk.failAfter⟩

/-! ### What the host drives -/

/-- The levels of `rst`, `start` and `cmd_mode` during the coming step. -/
def State.pins (s : State) : HostPins := s.host.headD .quiet

/-- The state once these levels have been taken. -/
def State.popHost (s : State) : State := s.setHost s.host.tail

end Sys2Proof.Machine
end

