-- ==== Sys2Proof/Machine/Command.lean ====
section
/-! DEFINITION. The meanings of the two host commands (43_encoder.md R130, 44_decoder.md R150): a START is accepted when
`busy` = 0 and ignored, with no effect on any state, when `busy` = 1 (30_encoding.md R81). -/

namespace Sys2Proof.Machine

/-- `CMD.ENCODE` (R130). -/
def execCmdEncode (s : State) : Host.Outcome State Fault Refusal :=
  if s.busy then .next s else .next (startSession .encode .encPrime s)

/-- `CMD.DECODE` (R150). -/
def execCmdDecode (s : State) : Host.Outcome State Fault Refusal :=
  if s.busy then .next s else .next (startSession .decode .decLoop s)

end Sys2Proof.Machine
end

