-- ==== Sys2Proof/Machine/Operands.lean ====
section
/-! DEFINITION. The operand forms: the fields of a token as the decoder reads them from the stream (30_encoding.md R74,
R75), each the unsigned value of its bits, and the fetch of one token (44_decoder.md R151 to R153). -/

namespace Sys2Proof.Machine

/-- The flag: 1 bit (R74). -/
def readFlag (s : State) : Res Bool := (readBits 1 s).bind fun v s1 => .ok (v.getLsbD 0) s1

/-- The data of a literal: 8 bits (R71). -/
def readData (s : State) : Res (BitVec 8) := (readBits 8 s).bind fun v s1 => .ok (v.setWidth 8) s1

/-- The position of a match: 12 bits, into `REF.pos` (R72, 44_decoder.md R153). -/
def readPos (s : State) : Res (BitVec 12) :=
  (readBits 12 s).bind fun v s1 => .ok (v.setWidth 12) (s1.setRef ⟨v.setWidth 12, s1.ref.len⟩)

/-- The length of a match: 4 bits, into `REF.len` (R72, 44_decoder.md R153). -/
def readLen (s : State) : Res (BitVec 4) :=
  (readBits 4 s).bind fun v s1 => .ok (v.setWidth 4) (s1.setRef ⟨s1.ref.pos, v.setWidth 4⟩)

/-- The fetch of DEC.TOKEN: the flag, then the fields it selects, with no test of `R.exh` between them (R151, R74). The
instruction is what the decoder makes of the fields. -/
def fetchToken (s : State) : Res Instr :=
  (readFlag s).bind fun flag s1 =>
    if flag then
      (readPos s1).bind fun pos s2 => (readLen s2).bind fun len s3 => .ok (decodeRef pos len) s3
    else (readData s1).bind fun data s2 => .ok (decodeLit data) s2

end Sys2Proof.Machine
end

