-- ==== Sys2Proof/Machine/Decoder.lean ====
section
/-! DEFINITION. The meanings of the tokens, their fields read (44_decoder.md R152, R153; 60_exceptions.md R171, R172). -/

namespace Sys2Proof.Machine

/-- `LIT` (R152): once the exhaustion signal is set the byte is padding and the session is over; otherwise it is pushed
and written. -/
def execLit (data : BitVec 8) (s : State) : Host.Outcome State Fault Refusal :=
  if s.rd.exh then .next (s.setPhase .done) else (emitByte data (histPush data s)).outcome

/-- The execution of a match token with fields `pos`, `len`: the length check, the position check, the copy, and the
exhaustion test after it (R153). -/
def execRef (pos : BitVec 12) (len : BitVec 4) (s : State) : Host.Outcome State Fault Refusal :=
  let s1 := s.setRef ⟨pos, len⟩
  if len.toNat ≤ Config.minMatchSize then (raise .formatLen s1 : Res Unit).outcome
  else if s1.mem.hist.length ≤ pos.toNat then (raise .formatPos s1 : Res Unit).outcome
  else
    ((copyRange pos.toNat len.toNat s1).bind fun _ s2 =>
      .ok () (if s2.rd.exh then s2.setPhase .done else s2)).outcome

/-- `MATCH` (R153). -/
def execMatch (pos : BitVec 12) (len : BitVec 4) (s : State) : Host.Outcome State Fault Refusal := execRef pos len s

/-- `MATCH` with length 0: FORMAT_LEN (R171). -/
def execMatchLen0 (pos : BitVec 12) (s : State) : Host.Outcome State Fault Refusal := execRef pos 0#4 s

/-- `MATCH` with length 1: FORMAT_LEN (R171). -/
def execMatchLen1 (pos : BitVec 12) (s : State) : Host.Outcome State Fault Refusal := execRef pos 1#4 s

/-- `MATCH` with length 2: FORMAT_LEN (R171). -/
def execMatchLen2 (pos : BitVec 12) (s : State) : Host.Outcome State Fault Refusal := execRef pos 2#4 s

end Sys2Proof.Machine
end

