-- ==== Sys2Proof/Machine/Dispatch.lean ====
section
/-! DEFINITION. One arm per instruction. -/

namespace Sys2Proof.Machine

def exec (i : Instr) (s : State) : Host.Outcome State Fault Refusal :=
  match i with
  | .lit data => Sys2Proof.Machine.execLit data s
  | .matchRef pos len => Sys2Proof.Machine.execMatch pos len s
  | .matchLen0 pos => Sys2Proof.Machine.execMatchLen0 pos s
  | .matchLen1 pos => Sys2Proof.Machine.execMatchLen1 pos s
  | .matchLen2 pos => Sys2Proof.Machine.execMatchLen2 pos s
  | .cmdEncode => Sys2Proof.Machine.execCmdEncode s
  | .cmdDecode => Sys2Proof.Machine.execCmdDecode s

end Sys2Proof.Machine
end

