-- ==== Sys2Proof/Machine/MatchFinder.lean ====
section
/-! DEFINITION. The match finder HB.LONGESTMATCH (42_history_matchfinder.md R114 to R117): the linear scan, whose result any
search strategy must give (00_scope.md R7). Its loop variables are the registers `MF.*`, which are not architectural
(10_state.md R38, log 15). -/

namespace Sys2Proof.Machine

/-- The loop of one candidate: how many further bytes of `cand` (the history from the candidate on) agree with `look`,
`fuel` comparisons at most. The guards `i + j < |H|` and `j < |LA|` are the two lists' ends (R114). -/
def runFrom : Nat → List Byte → List Byte → Nat
  | 0, _, _ => 0
  | _ + 1, [], _ => 0
  | _ + 1, _ :: _, [] => 0
  | fuel + 1, c :: cand, l :: look => if c = l then runFrom fuel cand look + 1 else 0

/-- The run of a candidate, under the guard `j ≤ 15`, that is, at most 16 comparisons (R114). -/
def matchRun (cand look : List Byte) : Nat := runFrom (Config.maxMatchSize + 1) cand look

/-- The scan over the candidates from index `i` on, with the best pair so far: a longer run replaces it, an equal one
never does (R114). -/
def scanFrom (look : List Byte) : Nat → List Byte → Nat × Nat → Nat × Nat
  | _, [], best => best
  | i, c :: cand, best =>
    let j := matchRun (c :: cand) look
    scanFrom look (i + 1) cand (if best.2 < j then (i, j) else best)

/-- HB.LONGESTMATCH: the pair `(pos, len)`, `(0, 0)` when nothing matches (R114). -/
def longestMatch (m : Memory) : Nat × Nat := scanFrom m.look 0 m.hist (0, 0)

/-- The scan that stops once the run is as long as the lookahead (R117). -/
def scanEarly (look : List Byte) : Nat → List Byte → Nat × Nat → Nat × Nat
  | _, [], best => best
  | i, c :: cand, best =>
    if best.2 = look.length then best
    else
      let j := matchRun (c :: cand) look
      scanEarly look (i + 1) cand (if best.2 < j then (i, j) else best)

/-- HB.LONGESTMATCH by the scan that stops early (R117). -/
def longestMatchEarly (m : Memory) : Nat × Nat := scanEarly m.look 0 m.hist (0, 0)

end Sys2Proof.Machine
end

