-- ==== Sys2Proof/Machine/Encoder.lean ====
section
/-! DEFINITION. The encoder sequencer and the token encoder (43_encoder.md R131 to R136). -/

namespace Sys2Proof.Machine

/-- ENC.FINISH: flush, then `DONE` (R136). -/
def encFinish (s : State) : Res Unit := (flushWriter s).bind fun _ s1 => .ok () (s1.setPhase .done)

/-- The loop of ENC.PRIME, at most `fuel` fetches: until the lookahead is full or the input ends (R131). -/
def primeLoop : Nat → State → Res Unit
  | 0, s => .ok () s
  | fuel + 1, s =>
    if s.mem.look.length < Config.maxMatchSize ∧ s.enc.eof = false then
      match srcFetch s with
      | (.byte b, s1) => primeLoop fuel (laAppend b s1)
      | (.eof, s1) => primeLoop fuel (s1.setEnc ⟨true, s1.enc.more⟩)
      | (.err, s1) => raise .ioSrc s1
    else .ok () s

/-- ENC.PRIME (R131): with as many bytes as are available. Its loop turns at most 15 times: each turn but a last one
appends a byte. -/
def encPrime (s : State) : Res Unit :=
  (primeLoop Config.maxMatchSize s).bind fun _ s1 =>
    let s2 := s1.setEnc ⟨s1.enc.eof, s1.mem.moreData⟩
    if s2.enc.more then .ok () (s2.setPhase .encLoop) else encFinish s2

/-- ENC.EMITLIT: flag 0, then the oldest byte of the lookahead (R133). -/
def emitLit (s : State) : Res Unit :=
  (writeBits 0#16 1 s).bind fun _ s1 => (laByteAt 0 s1).bind fun b s2 => writeBits (b.setWidth 16) 8 s2

/-- ENC.EMITMATCH, the token encoder: flag 1, then the packed reference (R134). -/
def emitMatch (s : State) : Res Unit :=
  (writeBits 1#16 1 s).bind fun _ s1 => writeBits (packRef s1.ref.pos s1.ref.len) 16 s1

/-- The end of ENC.ADVANCE when no byte was read: pop and report (R135). -/
def advancePop (s : State) : Res Unit :=
  (laPop s).bind fun _ s1 => .ok () (s1.setEnc ⟨s1.enc.eof, s1.mem.moreData⟩)

/-- ENC.ADVANCE: one plaintext byte moves from the lookahead into the history (R135). -/
def encAdvance (s : State) : Res Unit :=
  (laByteAt 0 s).bind fun b s1 =>
    let s2 := histPush b s1
    if s2.enc.eof = false then
      match srcFetch s2 with
      | (.byte c, s3) => .ok () ((laAppend c s3).setEnc ⟨s3.enc.eof, true⟩)
      | (.eof, s3) => advancePop (s3.setEnc ⟨true, s3.enc.more⟩)
      | (.err, s3) => raise .ioSrc s3
    else advancePop s2

/-- `repeat n times: ENC.ADVANCE` (R132). -/
def advanceTimes : Nat → State → Res Unit
  | 0, s => .ok () s
  | n + 1, s => (encAdvance s).bind fun _ s1 => advanceTimes n s1

/-- Step 2a of ENC.STEP: the search, before any byte moves, into `REF` (R132, R198). -/
def searchRef (s : State) : State :=
  let best := longestMatch s.mem
  s.setRef ⟨BitVec.ofNat 12 best.1, BitVec.ofNat 4 best.2⟩

/-- ENC.STEP: search, emit a token, advance past what it covers, and finish when no data is left (R132). -/
def encStep (s : State) : Res Unit :=
  let s1 := searchRef s
  (if Config.minMatchSize < s1.ref.len.toNat then
      (emitMatch s1).bind fun _ s2 => advanceTimes s1.ref.len.toNat s2
    else (emitLit s1).bind fun _ s2 => encAdvance s2).bind fun _ s3 =>
  if s3.enc.more = false then encFinish s3 else .ok () s3

end Sys2Proof.Machine
end

