-- ==== Sys2Proof/Machine/Step.lean ====
section
/-! DEFINITION. One step of the machine (10_state.md R22, 92_eei_decisions.md D20; log 4): `rst` if the host drives it, else
the START it drives, else one operation of the sequencer: ENC.PRIME, ENC.STEP or DEC.TOKEN, or nothing in a phase that is
not busy. -/

namespace Sys2Proof.Machine

/-- DEC.TOKEN: the token at the reader's cursor, executed (44_decoder.md R151). -/
def decToken (s : State) : Host.Outcome State Fault Refusal :=
  match fetchToken s with
  | .ok i s1 => exec i s1
  | .raised s1 => .next s1
  | .fault r => .fault r
  | .refused r => .refused r

/-- The sequencer's operation in the current phase. While `busy` = 0 the block holds its state (60_exceptions.md R179,
R183). -/
def sequencerStep (s : State) : Host.Outcome State Fault Refusal :=
  match s.phase with
  | .idle => .next s
  | .encPrime => (encPrime s).outcome
  | .encLoop => (encStep s).outcome
  | .decLoop => decToken s
  | .done => .next s
  | .fault => .next s

/-- The bytes the sink would accept during the sequencer's operation. -/
def bytesWritten (s : State) : List Byte :=
  match sequencerStep s with
  | .next t => t.snk.out.drop s.snk.out.length
  | .fault _ => []
  | .refused _ => []

/-- One step: `rst` overrides everything (60_exceptions.md R176, 70_reset_and_hazards.md R190), then START (30_encoding.md
R81), then the sequencer. -/
def step (s : State) : Host.Outcome State Fault Refusal :=
  match s.pins.rst with
  | some k => .next (applyRst ((bytesWritten s.popHost).take k) s.popHost)
  | none => if s.pins.start then exec (decodeCmd s.pins.cmdMode) s.popHost else sequencerStep s.popHost

/-- The state whose very next step runs the instruction of the table word `w` (log 10): a row of up to one byte is a START
the host drives; a longer one is the first token of a DECODE session's source, with the reader empty. -/
def State.withFetchWord (s : State) (nbits w : Nat) : State :=
  if nbits ≤ 8 then s.setHost (⟨none, true, BitVec.ofNat 1 w⟩ :: s.host)
  else
    ((((s.setHost (.quiet :: s.host)).setPhase .decLoop).setMode .decode).setRd ⟨0, 0, false, s.rd.fetched⟩).setSrc
      ⟨packBits (tableBits nbits w), none⟩

end Sys2Proof.Machine
end

