-- ==== Sys2Proof/Machine/Ring.lean ====
section
/-! DEFINITION. The physical organisation of the history that 20_memory.md R67 offers: a RAM of 4096 bytes with a 12-bit
head and a count. The machine does not use it (R67, "A model should use the abstract sequence `H`"); it stands here so
that its agreement with `H` can be stated. -/

namespace Sys2Proof.Machine

/-- The RAM, the cell of `H[0]`, and the occupancy (R67). -/
structure Ring where
  ram : List Byte
  head : BitVec 12
  cnt : Nat
  deriving DecidableEq, Repr

/-- 4096 cells, at most 4095 of them occupied. -/
abbrev Ring.wf (r : Ring) : Prop := r.ram.length = 4096 ∧ r.cnt ≤ Config.dictionarySize

/-- A cell of the RAM. -/
def Ring.cell (r : Ring) (p : BitVec 12) : Byte := r.ram.getD p.toNat 0

/-- `H[i] = mem[(head + i) mod 4096]` for the occupied indices (R67). -/
def Ring.history (r : Ring) : List Byte := (List.range r.cnt).map fun i => r.cell (r.head + BitVec.ofNat 12 i)

/-- Push: write the cell after the newest byte, then move the head if the history is full, else count (R67). -/
def Ring.push (r : Ring) (b : Byte) : Ring :=
  let ram := r.ram.set (r.head + BitVec.ofNat 12 r.cnt).toNat b
  if r.cnt = Config.dictionarySize then ⟨ram, r.head + 1, r.cnt⟩ else ⟨ram, r.head, r.cnt + 1⟩

/-- The copy engine: a read pointer that increments by one a byte, regardless of eviction (R67). -/
def Ring.copy : Nat → BitVec 12 → Ring → List Byte × Ring
  | 0, _, r => ([], r)
  | n + 1, p, r =>
    let b := r.cell p
    let rest := Ring.copy n (p + 1) (r.push b)
    (b :: rest.1, rest.2)

end Sys2Proof.Machine
end

