-- ==== Sys2Proof/Safety.lean ====
section
/-! DEFINITION. What counts as a good state and what a state stands for: the representation invariants of the registers
(10_state.md R28, R29), the invariants of the sequencers (43_encoder.md R137, 44_decoder.md R158), and the bit sequences
the writer and the reader represent. -/

namespace Sys2Proof.Machine

/-- The newest `n` bytes of a sequence (20_memory.md R52). -/
def lastBytes (n : Nat) (l : List Byte) : List Byte := l.drop (l.length - n)

/-! ### The bit writer and the bit reader -/

/-- Between operations at most 7 bits are pending, in the high positions, zeros below (R28). -/
abbrev Writer.wf (w : Writer) : Prop := w.n ≤ 7 ∧ w.acc <<< w.n = 0#8

/-- The pending bits, first written first (R28). -/
def Writer.pending (w : Writer) : List Bool := (msbBits 8 w.acc.toNat).take w.n

/-- At most 8 bits are held, in the high positions, zeros below, and none after exhaustion (R29, R100). -/
abbrev Reader.wf (r : Reader) : Prop := r.n ≤ 8 ∧ r.cur <<< r.n = 0#8 ∧ (r.exh = true → r.n = 0)

/-- The bits held, next to deliver first (R29). -/
def Reader.held (r : Reader) : List Bool := (msbBits 8 r.cur.toNat).take r.n

/-- The bits of the token stream not yet delivered (R29, 41_bitstream_reader.md R106). -/
def State.unread (s : State) : List Bool := s.rd.held ++ bitsOfBytes s.src.bytes

/-- All bits written in the session: those in accepted bytes, then those pending (40_bitstream_writer.md R90). -/
def State.written (s : State) : List Bool := bitsOfBytes s.snk.out ++ s.wr.pending

/-- The plaintext bytes not yet advanced into the history (43_encoder.md R137). -/
def State.toEncode (s : State) : List Byte := s.mem.look ++ s.src.bytes

/-- Neither port fails. -/
abbrev State.noIoErrors (s : State) : Prop := s.src.errAt = none ∧ s.snk.failAfter = none

/-! ### What a copy and a step produce -/

/-- The bytes a copy of `n` bytes from index `start` of the history `h` produces: `y_k` is `h[start + k]`, and repeats with
period `|h| - start` (42_history_matchfinder.md R112). -/
def copiedBytes (h : List Byte) (start n : Nat) : List Byte :=
  (List.range n).map fun k => h.getD (start + k % (h.length - start)) 0

/-- The token ENC.STEP emits in a state: the longest match if it is longer than 2, else the oldest byte of the lookahead
(43_encoder.md R132). -/
def encodedToken (m : Memory) : Instr :=
  let best := longestMatch m
  if Config.minMatchSize < best.2 then .matchRef (BitVec.ofNat 12 best.1) (BitVec.ofNat 4 best.2)
  else .lit (m.look.headD 0)

/-- How many plaintext bytes that token covers (43_encoder.md R132). -/
def encodedCount (m : Memory) : Nat :=
  let best := longestMatch m
  if Config.minMatchSize < best.2 then best.2 else 1

/-- How many plaintext bytes a token stands for (43_encoder.md R138); the illegal forms and the commands stand for none. -/
def tokenCovers : Instr → Nat
  | .lit _ => 1
  | .matchRef _ len => len.toNat
  | .matchLen0 _ => 0
  | .matchLen1 _ => 0
  | .matchLen2 _ => 0
  | .cmdEncode => 0
  | .cmdDecode => 0

/-! ### What the host does in one step (60_exceptions.md R186 H1) -/

/-- START with `cmd_mode` = 0. -/
def HostPins.startEncode : HostPins := ⟨none, true, 0#1⟩

/-- START with `cmd_mode` = 1. -/
def HostPins.startDecode : HostPins := ⟨none, true, 1#1⟩

/-- The host drives neither `rst` nor `start` during the coming step. -/
abbrev State.quiet (s : State) : Prop := s.pins.rst = none ∧ s.pins.start = false

/-- The coming step accepts a START (30_encoding.md R81). -/
abbrev State.accepts (s : State) : Prop := s.pins.rst = none ∧ s.pins.start = true ∧ s.busy = false

/-! ### The invariant -/

/-- What holds between any two steps. -/
structure State.Inv (s : State) : Prop where
  /-- occupancy bounds (20_memory.md R52, R53) -/
  memory : s.mem.wf
  /-- the writer's representation; after a refused byte it is left as it was (R28; 60_exceptions.md R178, log 12) -/
  writer : s.phase ≠ .fault → s.wr.wf
  /-- the reader's representation (R29) -/
  reader : s.rd.wf
  /-- ranges of the copy engine (R35) -/
  copyRange : s.copy.idx < Config.dictionarySize ∧ s.copy.rem ≤ Config.maxMatchSize
  /-- the error registers are 0 whenever `fault` is 0 (R25, R26, R27) -/
  errClear : s.phase ≠ .fault → s.err = ⟨.none, 0, 0, 0⟩
  /-- a fault has a cause (R25) -/
  errSet : s.phase = .fault → s.err.code ≠ .none
  /-- the phases of a session belong to its mode (R22, R23) -/
  encodeMode : s.phase = .encPrime ∨ s.phase = .encLoop → s.mode = .encode
  decodeMode : s.phase = .decLoop → s.mode = .decode
  /-- an ENCODE session does not use the reader (R27) -/
  encodeReader : s.mode = .encode → s.rd = ⟨0, 0, false, 0⟩
  /-- a DECODE session uses neither the writer nor the lookahead (R28, R37) -/
  decodeWriter : s.mode = .decode → s.wr = ⟨0, 0⟩ ∧ s.mem.look = [] ∧ s.enc = ⟨false, false⟩
  /-- nothing has been done before ENC.PRIME (43_encoder.md R130) -/
  primed : s.phase = .encPrime → s.mem = ⟨[], []⟩ ∧ s.wr = ⟨0, 0⟩ ∧ s.enc = ⟨false, false⟩ ∧ s.snk.out = []
  /-- R137 (c), (d) -/
  encLoop : s.phase = .encLoop →
    s.enc.more = true ∧ s.mem.look ≠ [] ∧ (s.enc.eof = false → s.mem.look.length = Config.maxMatchSize)
  /-- R158 -/
  decLoop : s.phase = .decLoop → s.rd.exh = false ∧ s.mem.hist = lastBytes Config.dictionarySize s.snk.out
  /-- the end of the source is final (20_memory.md R58; 60_exceptions.md R186 H3) -/
  exhausted : s.rd.exh = true ∨ s.enc.eof = true → s.src.bytes = []

end Sys2Proof.Machine
end

