-- ==== Sys2Proof/Certificates/Slice0/Obligations.lean ====
section
/-! DEFINITION. The statements for the provers, each with the rule of spec/ it rests on. -/

open Sys2Proof Sys2Proof.Machine

/-! ### Encoding -/

/-- Words written out from the formats (30_encoding.md R71, R72, R73, R76, R81) decode to the instructions they stand
for. -/
def Obligations.SpecWordsDecode : Prop :=
  decode (.t9 0b001100001#9) = .ok (.lit 0x61#8) ∧
  decode (.t17 0b10000000000000011#17) = .ok (.matchRef 0#12 3#4) ∧
  decode (.t17 0b11111111111101111#17) = .ok (.matchRef 4094#12 15#4) ∧
  decode (.t17 0b10000000001010000#17) = .ok (.matchLen0 5#12) ∧
  decode (.t17 0b11111111111110001#17) = .ok (.matchLen1 4095#12) ∧
  decode (.t17 0b10000000010010010#17) = .ok (.matchLen2 9#12) ∧
  decode (.cmd1 0#1) = .ok .cmdEncode ∧ decode (.cmd1 1#1) = .ok .cmdDecode ∧
  decode (.t9 0b101100001#9) = .error .flagNotLiteral ∧ decode (.t17 0b00000000000000011#17) = .error .flagNotMatch

/-- R73: packing is `position << 4 | length`, and pack and unpack are inverse on all 65536 values. -/
def Obligations.PackingIsInvertible : Prop :=
  (∀ (pos : BitVec 12) (len : BitVec 4),
    (packRef pos len).toNat = 16 * pos.toNat + len.toNat ∧
      refPos (packRef pos len) = pos ∧ refLen (packRef pos len) = len) ∧
  (∀ packed : BitVec 16, packRef (refPos packed) (refLen packed) = packed)

/-- The decoder inverts the encoder on every well-formed instruction, and every word it accepts is the word of the
instruction it reads (30_encoding.md R71, R72, R76, R81, R85). -/
def Obligations.DecodeAndEncodeAgree : Prop :=
  (∀ i : Instr, i.wf = true → decode (encode i) = .ok i) ∧
  (∀ (c : Code) (i : Instr), decode c = .ok i → encode i = c ∧ i.wf = true)

/-- A token's bits followed by any bits decode to the token, and the bits after it are left (R70, R74). -/
def Obligations.TokenBitsDecode : Prop :=
  ∀ (i : Instr) (rest : List Bool), i.isToken = true → i.wf = true →
    decodeBits ((encode i).bits ++ rest) = .ok (i, rest)

/-- Disassembling an assembled listing gives the listing back: no bit of a token is dropped and the padding is never read
as a token (R70, R74, R79, R83). -/
def Obligations.DisassembleInvertsAssemble : Prop :=
  ∀ tokens : List Instr, (∀ i ∈ tokens, i.isToken = true ∧ i.wf = true) → disassemble (assemble tokens) = tokens

/-! ### Status, reset, commands -/

/-- R24: `STATUS` is a function of `PHASE`, at most one of its three bits is 1, and all are 0 in `IDLE`. -/
def Obligations.StatusFollowsPhase : Prop :=
  ∀ s : State,
    (s.ports.busy = true ↔ s.phase = .encPrime ∨ s.phase = .encLoop ∨ s.phase = .decLoop) ∧
    (s.ports.done = true ↔ s.phase = .done) ∧ (s.ports.fault = true ↔ s.phase = .fault) ∧
    ¬(s.ports.busy = true ∧ s.ports.done = true) ∧ ¬(s.ports.busy = true ∧ s.ports.fault = true) ∧
    ¬(s.ports.done = true ∧ s.ports.fault = true) ∧
    (s.phase = .idle → s.ports.busy = false ∧ s.ports.done = false ∧ s.ports.fault = false)

/-- The values State.reset has where 10_state.md R43 gives an "after `rst`" value (`ref` and `copy` it leaves open). -/
def Obligations.ResetStateHasSpecValues : Prop :=
  State.reset.phase = .idle ∧ State.reset.mode = .encode ∧ State.reset.err = ⟨.none, 0, 0, 0⟩ ∧
  State.reset.wr = ⟨0, 0⟩ ∧ State.reset.rd = ⟨0, 0, false, 0⟩ ∧ State.reset.enc = ⟨false, false⟩ ∧
  State.reset.mem = ⟨[], []⟩

/-- `rst` overrides whatever else the host drives and whatever the block was doing (70_reset_and_hazards.md R190,
60_exceptions.md R176). How many of the step's bytes the sink had accepted by then is `k` (log 5); `ref` and `copy` are
left open (R43). -/
def Obligations.RstResetsTheBlock : Prop :=
  ∀ (s : State) (k : Nat), s.pins.rst = some k →
    ∃ t, step s = .next t ∧ t.phase = .idle ∧ t.mode = .encode ∧ t.err = ⟨.none, 0, 0, 0⟩ ∧ t.wr = ⟨0, 0⟩ ∧
      t.rd = ⟨0, 0, false, 0⟩ ∧ t.enc = ⟨false, false⟩ ∧ t.mem = ⟨[], []⟩ ∧
      t.snk.out = s.snk.out ++ (bytesWritten s.popHost).take k ∧ t.snk.failAfter = s.snk.failAfter ∧
      t.ports.srcReady = false ∧ t.ports.snkValid = false ∧
      t.src = s.src ∧ t.jobs = s.jobs ∧ t.host = s.host.tail

/-- `CMD.ENCODE` while `busy` = 0 (43_encoder.md R130, 10_state.md R43): the session state is initialised, the next source
and sink are connected, and nothing else of the environment changes. `ref` and `copy` are left open within their ranges
(R34, R35). -/
def Obligations.EncodeCommandStartsASession : Prop :=
  ∀ s : State, s.busy = false →
    ∃ t, exec .cmdEncode s = .next t ∧ t.phase = .encPrime ∧ t.mode = .encode ∧ t.err = ⟨.none, 0, 0, 0⟩ ∧
      t.wr = ⟨0, 0⟩ ∧ t.rd = ⟨0, 0, false, 0⟩ ∧ t.enc = ⟨false, false⟩ ∧ t.mem = ⟨[], []⟩ ∧
      t.src = s.nextJob.src ∧ t.snk = ⟨[], s.nextJob.sinkFailAfter⟩ ∧ t.jobs = s.jobs.tail ∧ t.host = s.host ∧
      t.copy.idx ≤ 4094 ∧ t.copy.rem ≤ 15

/-- `CMD.DECODE` while `busy` = 0 (44_decoder.md R150, 10_state.md R43). -/
def Obligations.DecodeCommandStartsASession : Prop :=
  ∀ s : State, s.busy = false →
    ∃ t, exec .cmdDecode s = .next t ∧ t.phase = .decLoop ∧ t.mode = .decode ∧ t.err = ⟨.none, 0, 0, 0⟩ ∧
      t.wr = ⟨0, 0⟩ ∧ t.rd = ⟨0, 0, false, 0⟩ ∧ t.enc = ⟨false, false⟩ ∧ t.mem = ⟨[], []⟩ ∧
      t.src = s.nextJob.src ∧ t.snk = ⟨[], s.nextJob.sinkFailAfter⟩ ∧ t.jobs = s.jobs.tail ∧ t.host = s.host ∧
      t.copy.idx ≤ 4094 ∧ t.copy.rem ≤ 15

/-- `cmd_mode` selects the command; a START is accepted when `busy` = 0 and ignored, with no effect on any state, when
`busy` = 1 (30_encoding.md R81). That an ignored START takes a step of its own, in which the sequencer does not move and
only what the host drives moves on, is the model's choice (log 4, DEDUCED from 10_state.md R22 and
92_eei_decisions.md D20). -/
def Obligations.StartIsAcceptedOrIgnored : Prop :=
  (∀ s : State, s.pins.rst = none → s.pins.start = true → s.busy = false →
    (s.pins.cmdMode = 0#1 → step s = exec .cmdEncode s.popHost ∧ ∃ t, step s = .next t ∧ t.phase = .encPrime) ∧
    (s.pins.cmdMode = 1#1 → step s = exec .cmdDecode s.popHost ∧ ∃ t, step s = .next t ∧ t.phase = .decLoop)) ∧
  (∀ s : State, s.pins.rst = none → s.pins.start = true → s.busy = true → step s = .next s.popHost) ∧
  (∀ s : State, s.busy = true → exec .cmdEncode s = .next s ∧ exec .cmdDecode s = .next s)

/-- A session starts from the same state whatever the sessions before it left behind (00_scope.md R8, 10_state.md R21,
70_reset_and_hazards.md R191, R200): only the environment and the model's count of free values carry over. -/
def Obligations.SessionsAreIndependent : Prop :=
  ∀ s s' : State, s.busy = false → s'.busy = false → s.jobs = s'.jobs → s.host = s'.host → s.draws = s'.draws →
    exec .cmdEncode s = exec .cmdEncode s' ∧ exec .cmdDecode s = exec .cmdDecode s'

/-! ### Ports and fault entry -/

/-- R185: what the two handshakes answer at the edge that closes them. -/
def Obligations.ErrorAnswersWin : Prop :=
  (∀ p : SrcPins, p.closes = true →
    (p.err = true → p.answer = .err) ∧ (p.err = false → p.valid = true → p.answer = .byte p.data) ∧
    (p.err = false → p.valid = false → p.answer = .eof)) ∧
  (∀ p : SnkPins, p.closes = true → (p.err = true → p.answer = .err) ∧ (p.err = false → p.answer = .ok)) ∧
  (∀ (q : Source) (k : Sink), q.drive.closes = true ∧ k.drive.closes = true)

/-- R58, R59: what SrcFetch and SinkWrite do with the stream of a session. -/
def Obligations.StreamPrimitives : Prop :=
  (∀ s : State, s.src.errAt = some 0 → srcFetch s = (.err, s)) ∧
  (∀ s : State, s.src.errAt ≠ some 0 → s.src.bytes = [] → srcFetch s = (.eof, s)) ∧
  (∀ (s : State) (b : Byte) (bs : List Byte), s.src.errAt ≠ some 0 → s.src.bytes = b :: bs →
    srcFetch s = (.byte b, s.setSrc ⟨bs, s.src.errAt.map (· - 1)⟩)) ∧
  (∀ (s : State) (b : Byte), s.snk.failAfter = some 0 → sinkWrite b s = (.err, s)) ∧
  (∀ (s : State) (b : Byte), s.snk.failAfter ≠ some 0 →
    sinkWrite b s = (.ok, s.setSnk ⟨s.snk.out ++ [b], s.snk.failAfter.map (· - 1)⟩))

/-- R178: fault entry. The flush happens in an ENCODE session unless the sink has failed, and its answer is ignored. -/
def Obligations.FaultEntryEffect : Prop :=
  ∀ (code : ErrCode) (s : State),
    (faultEntry code s).err =
      (if code = .formatLen ∨ code = .formatPos then ⟨code, s.ref.pos, s.ref.len, s.rd.fetched⟩
        else ⟨code, 0, 0, s.rd.fetched⟩) ∧
    (s.mode = .encode → code ≠ .ioSnk → 0 < s.wr.n →
      (faultEntry code s).wr = ⟨0, 0⟩ ∧
      (s.snk.failAfter ≠ some 0 →
        (faultEntry code s).snk = ⟨s.snk.out ++ [s.wr.acc], s.snk.failAfter.map (· - 1)⟩) ∧
      (s.snk.failAfter = some 0 → (faultEntry code s).snk = s.snk)) ∧
    (s.mode ≠ .encode ∨ code = .ioSnk ∨ s.wr.n = 0 →
      (faultEntry code s).wr = s.wr ∧ (faultEntry code s).snk = s.snk) ∧
    faultEntry code s =
      (((s.setErr (faultEntry code s).err).setWr (faultEntry code s).wr).setSnk (faultEntry code s).snk).setPhase .fault

/-! ### The tokens -/

/-- `LIT`, its data read (44_decoder.md R152): at the exhaustion signal the session ends and the byte is dropped; else the
byte is pushed and written; a sink that refuses it raises IO_SNK after the push (60_exceptions.md R174). Nothing else
changes. -/
def Obligations.LiteralExecution : Prop :=
  ∀ (data : BitVec 8) (s : State),
    (s.rd.exh = true → exec (.lit data) s = .next (s.setPhase .done)) ∧
    (s.rd.exh = false → s.snk.failAfter ≠ some 0 →
      exec (.lit data) s =
        .next ((s.setMem (s.mem.push data)).setSnk ⟨s.snk.out ++ [data], s.snk.failAfter.map (· - 1)⟩)) ∧
    (s.rd.exh = false → s.snk.failAfter = some 0 →
      exec (.lit data) s = .next (faultEntry .ioSnk (s.setMem (s.mem.push data))))

/-- `MATCH`, its fields read, on a legal reference and a sink that takes its bytes (44_decoder.md R153,
42_history_matchfinder.md R112, R113): the bytes copied go to the sink in order and into the history; the session goes on
unless the exhaustion signal is set. Nothing else changes. -/
def Obligations.MatchCopiesBytes : Prop :=
  ∀ (pos : BitVec 12) (len : BitVec 4) (s : State),
    2 < len.toNat → pos.toNat < s.mem.hist.length → s.mem.hist.length ≤ 4095 →
    (∀ k, s.snk.failAfter = some k → len.toNat ≤ k) →
    ∃ t, exec (.matchRef pos len) s = .next t ∧
      t.snk.out = s.snk.out ++ copiedBytes s.mem.hist pos.toNat len.toNat ∧
      t.mem.hist = lastBytes 4095 (s.mem.hist ++ copiedBytes s.mem.hist pos.toNat len.toNat) ∧
      t.phase = (if s.rd.exh then .done else s.phase) ∧ t.copy.rem = 0 ∧
      t = ((((s.setRef ⟨pos, len⟩).setCopy t.copy).setMem ⟨t.mem.hist, s.mem.look⟩).setSnk
        ⟨t.snk.out, s.snk.failAfter.map (· - len.toNat)⟩).setPhase t.phase

/-- `MATCH` whose copy the sink refuses part way (42_history_matchfinder.md R112, 60_exceptions.md R174, R178): the bytes
already written stay written, the refused byte has been pushed, and IO_SNK is recorded. -/
def Obligations.MatchStopsAtSinkFailure : Prop :=
  ∀ (pos : BitVec 12) (len : BitVec 4) (s : State) (k : Nat),
    2 < len.toNat → pos.toNat < s.mem.hist.length → s.mem.hist.length ≤ 4095 →
    s.snk.failAfter = some k → k < len.toNat →
    ∃ t, exec (.matchRef pos len) s = .next t ∧ t.phase = .fault ∧ t.err = ⟨.ioSnk, 0, 0, s.rd.fetched⟩ ∧
      t.snk.out = s.snk.out ++ (copiedBytes s.mem.hist pos.toNat len.toNat).take k ∧
      t.mem.hist = lastBytes 4095 (s.mem.hist ++ (copiedBytes s.mem.hist pos.toNat len.toNat).take (k + 1)) ∧
      t = (((((s.setRef ⟨pos, len⟩).setCopy t.copy).setMem ⟨t.mem.hist, s.mem.look⟩).setSnk
        ⟨t.snk.out, some 0⟩).setErr t.err).setPhase .fault

/-- A position outside the history raises FORMAT_POS before any byte is copied (60_exceptions.md R172, 30_encoding.md R77);
the length check comes first (R176). -/
def Obligations.MatchOutsideHistoryFaults : Prop :=
  ∀ (pos : BitVec 12) (len : BitVec 4) (s : State), 2 < len.toNat → s.mem.hist.length ≤ pos.toNat →
    exec (.matchRef pos len) s = .next (faultEntry .formatPos (s.setRef ⟨pos, len⟩)) ∧
    (faultEntry .formatPos (s.setRef ⟨pos, len⟩)).err = ⟨.formatPos, pos, len, s.rd.fetched⟩

/-- A length of 0, 1 or 2 raises FORMAT_LEN, whatever the position (60_exceptions.md R171, R176, 30_encoding.md R76). -/
def Obligations.ShortMatchesFault : Prop :=
  ∀ (pos : BitVec 12) (s : State),
    exec (.matchLen0 pos) s = .next (faultEntry .formatLen (s.setRef ⟨pos, 0#4⟩)) ∧
    exec (.matchLen1 pos) s = .next (faultEntry .formatLen (s.setRef ⟨pos, 1#4⟩)) ∧
    exec (.matchLen2 pos) s = .next (faultEntry .formatLen (s.setRef ⟨pos, 2#4⟩)) ∧
    (∀ len : BitVec 4, len.toNat ≤ 2 →
      exec (.matchRef pos len) s = .next (faultEntry .formatLen (s.setRef ⟨pos, len⟩)) ∧
      (faultEntry .formatLen (s.setRef ⟨pos, len⟩)).err = ⟨.formatLen, pos, len, s.rd.fetched⟩)

/-- Format faults are precise (60_exceptions.md R177): in a DECODE session, a match token that ends in FORMAT_LEN or
FORMAT_POS has changed neither memory nor the sink; it has written `REF`, the error registers and `PHASE` only. -/
def Obligations.FormatFaultsArePrecise : Prop :=
  ∀ (i : Instr) (s t : State), i.isToken = true → s.mode = .decode → exec i s = .next t →
    t.err.code = .formatLen ∨ t.err.code = .formatPos → t.err ≠ s.err →
    t = ((s.setRef t.ref).setErr t.err).setPhase .fault

/-! ### The bit writer -/

/-- BW.WRITEBITS appends the low `n` bits of `value`, most significant first, to the bits written (40_bitstream_writer.md
R90, R91), with `floor((W.n + n) / 8)` sink writes, and touches nothing but the writer and the sink. -/
def Obligations.WriteBitsAppendsBits : Prop :=
  ∀ (value : BitVec 16) (n : Nat) (s : State), n ≤ 16 → s.wr.wf → s.snk.failAfter = none →
    ∃ t, writeBits value n s = .ok () t ∧ t.written = s.written ++ msbBits n value.toNat ∧ t.wr.wf ∧
      t.snk.out.length = s.snk.out.length + (s.wr.n + n) / 8 ∧ s.snk.out <+: t.snk.out ∧
      t.snk.failAfter = none ∧ t = (s.setWr t.wr).setSnk t.snk

/-- A sink that refuses a completed byte ends BW.WRITEBITS with IO_SNK, the bytes before it written (R91,
60_exceptions.md R174). -/
def Obligations.WriteBitsStopsAtSinkFailure : Prop :=
  ∀ (value : BitVec 16) (n k : Nat) (s : State), n ≤ 16 → s.wr.wf → s.snk.failAfter = some k →
    k < (s.wr.n + n) / 8 →
    ∃ t, writeBits value n s = .raised t ∧ t.phase = .fault ∧ t.err = ⟨.ioSnk, 0, 0, s.rd.fetched⟩ ∧
      t.snk.out.length = s.snk.out.length + k ∧
      bitsOfBytes t.snk.out = (s.written ++ msbBits n value.toNat).take (8 * t.snk.out.length)

/-- BW.FLUSH completes the last byte with zero bits in its low-order positions and is a no-op when nothing is pending
(40_bitstream_writer.md R92, R93). -/
def Obligations.FlushPadsWithZeros : Prop :=
  ∀ s : State, s.wr.wf → s.snk.failAfter = none →
    ∃ t, flushWriter s = .ok () t ∧
      bitsOfBytes t.snk.out = s.written ++ List.replicate ((8 - s.wr.n) % 8) false ∧
      t.wr = ⟨0, 0⟩ ∧ (s.wr.n = 0 → t = s) ∧ flushWriter t = .ok () t ∧
      t = (s.setWr t.wr).setSnk ⟨t.snk.out, none⟩

/-! ### The bit reader -/

/-- BR.READBITS delivers the next bits of the stream, most significant first, zeros past its end; it fetches a byte only
when a bit is asked for, and sets the exhaustion signal exactly when a bit that does not exist was asked for
(41_bitstream_reader.md R101 to R106). -/
def Obligations.ReadBitsDeliversTheStream : Prop :=
  ∀ (n : Nat) (s : State), n ≤ 16 → s.rd.wf → s.src.errAt = none → (s.rd.exh = true → s.src.bytes = []) →
    ∃ v t, readBits n s = .ok v t ∧ v.toNat = ofBits (takeZeroFilled n s.unread) ∧ t.unread = s.unread.drop n ∧
      t.rd.exh = (s.rd.exh || decide (s.unread.length < n)) ∧ t.rd.wf ∧ (0 < n → t.rd.n ≤ 7) ∧
      t.rd.fetched = s.rd.fetched + BitVec.ofNat 32 (s.src.bytes.length - t.src.bytes.length) ∧
      t = (s.setRd t.rd).setSrc ⟨t.src.bytes, none⟩

/-- A source that fails before the bits asked for have been fetched ends BR.READBITS with IO_SRC (R100, R101,
60_exceptions.md R173). -/
def Obligations.ReadBitsStopsAtSourceFailure : Prop :=
  ∀ (n e : Nat) (s : State), n ≤ 16 → s.rd.wf → s.rd.exh = false → s.src.errAt = some e → e ≤ s.src.bytes.length →
    s.rd.n + 8 * e < n →
    ∃ t, readBits n s = .raised t ∧ t.phase = .fault ∧
      t.err = ⟨.ioSrc, 0, 0, s.rd.fetched + BitVec.ofNat 32 e⟩ ∧ t.mem = s.mem ∧
      t.src.bytes = s.src.bytes.drop e ∧ (s.mode = .decode → t.snk = s.snk)

/-! ### One token -/

/-- The fetch of DEC.TOKEN reads the token at the cursor, missing bits as zeros, and leaves the cursor after it
(44_decoder.md R151, R156; 30_encoding.md R74). -/
def Obligations.FetchReadsTheNextToken : Prop :=
  ∀ s : State, s.rd.wf → s.rd.exh = false → s.src.errAt = none →
    ∃ t, fetchToken s = .ok (nextToken s.unread).1 t ∧ t.unread = (nextToken s.unread).2 ∧
      t.rd.exh = decide (s.unread.length < tokenLength (flagOf s.unread)) ∧ t.rd.wf ∧
      (flagOf s.unread = true → (nextToken s.unread).1 = decodeRef t.ref.pos t.ref.len) ∧
      (flagOf s.unread = false → t.ref = s.ref) ∧
      t.rd.fetched = s.rd.fetched + BitVec.ofNat 32 (s.src.bytes.length - t.src.bytes.length) ∧
      t = ((s.setRd t.rd).setSrc ⟨t.src.bytes, none⟩).setRef t.ref

/-- A source that fails inside a token ends the session with IO_SRC and no effect of the token (44_decoder.md R152, R153,
60_exceptions.md R173, R177). -/
def Obligations.FetchStopsAtSourceFailure : Prop :=
  ∀ (e : Nat) (s : State) (avail : List Bool), s.rd.wf → s.rd.exh = false → s.src.errAt = some e →
    e ≤ s.src.bytes.length → avail = s.rd.held ++ bitsOfBytes (s.src.bytes.take e) →
    avail.length < tokenLength (flagOf avail) →
    ∃ t, fetchToken s = .raised t ∧ t.phase = .fault ∧
      t.err = ⟨.ioSrc, 0, 0, s.rd.fetched + BitVec.ofNat 32 e⟩ ∧ t.mem = s.mem ∧ (s.mode = .decode → t.snk = s.snk)

/-- A STEP RUNS THE DECODED INSTRUCTION: with no `rst` and no START, in `DEC_LOOP`, when the bits at the cursor decode to
`i`, the step is `exec i` at the state whose reader stands after the token (10_state.md R22, 44_decoder.md R151). -/
def Obligations.StepRunsTheDecodedToken : Prop :=
  ∀ (s : State) (i : Instr) (rest : List Bool), s.quiet → s.phase = .decLoop → s.rd.wf → s.rd.exh = false →
    s.src.errAt = none → decodeBits s.unread = .ok (i, rest) →
    ∃ t, step s = exec i t ∧ t.unread = rest ∧ t.rd.exh = false ∧ t.rd.wf ∧
      t = ((s.popHost.setRd t.rd).setSrc ⟨t.src.bytes, none⟩).setRef t.ref

/-- A STEP RUNS THE COMMAND THE HOST DRIVES, and outside DEC.TOKEN the sequencer's operation of the phase; a block that is
not busy holds its state (10_state.md R22, 30_encoding.md R81, 60_exceptions.md R179). That one step is one such operation,
and that a START takes a step of its own, is the model's choice (log 4). -/
def Obligations.StepFollowsThePhase : Prop :=
  (∀ s : State, s.pins.rst = none → s.pins.start = true → step s = exec (decodeCmd s.pins.cmdMode) s.popHost) ∧
  (∀ s : State, s.quiet → s.phase = .encPrime → step s = (encPrime s.popHost).outcome) ∧
  (∀ s : State, s.quiet → s.phase = .encLoop → step s = (encStep s.popHost).outcome) ∧
  (∀ s : State, s.quiet → s.busy = false → step s = .next s.popHost)

/-- The instruction of a table word is the one the very next step runs (the model's own placing of a word, log 10 and
log 11). -/
def Obligations.FetchWordRunsNext : Prop :=
  ∀ (s : State) (nbits w : Nat) (i : Instr), decodeTableWord nbits w = some i →
    ∃ t, step (s.withFetchWord nbits w) = exec i t ∧ t.mem = s.mem ∧ t.snk = s.snk ∧ t.jobs = s.jobs ∧
      t.host = s.host ∧ t.rd.exh = (if nbits ≤ 8 then s.rd.exh else false)

/-! ### History, lookahead, match finder -/

/-- R52: the history holds the newest 4095 bytes pushed, in push order. -/
def Obligations.HistoryKeepsTheNewestBytes : Prop :=
  ∀ (m : Memory) (bytes : List Byte), m.hist.length ≤ 4095 →
    (bytes.foldl Memory.push m).hist = lastBytes 4095 (m.hist ++ bytes) ∧
    (bytes.foldl Memory.push m).hist.length ≤ 4095 ∧ (bytes.foldl Memory.push m).look = m.look

/-- R121, R122: LA.APPEND evicts only past the capacity, LA.POP removes the oldest byte. -/
def Obligations.LookaheadAppendAndPop : Prop :=
  (∀ (m : Memory) (b : Byte), m.look.length < 15 → m.append b = ⟨m.hist, m.look ++ [b]⟩) ∧
  (∀ (m : Memory) (b : Byte), m.look.length = 15 → m.append b = ⟨m.hist, m.look.tail ++ [b]⟩) ∧
  (∀ s : State, 0 < s.mem.look.length → laPop s = .ok () (s.setMem ⟨s.mem.hist, s.mem.look.tail⟩))

/-- HB.BYTEAT and LA.BYTEAT read inside the occupancy and change nothing (42_history_matchfinder.md R111, R123); outside it
the model refuses them, and a pop of an empty lookahead is a fault (the model's choice, log 6 and log 7; 20_memory.md
R61). -/
def Obligations.BoundsCheckedReads : Prop :=
  ∀ (s : State) (i : Nat),
    (∀ h : i < s.mem.hist.length, histByteAt i s = .ok s.mem.hist[i] s) ∧
    (s.mem.hist.length ≤ i → histByteAt i s = .refused (.historyIndex i)) ∧
    (∀ h : i < s.mem.look.length, laByteAt i s = .ok s.mem.look[i] s) ∧
    (s.mem.look.length ≤ i → laByteAt i s = .refused (.lookaheadIndex i)) ∧
    (s.mem.look = [] → laPop s = .fault .popOfEmptyLookahead)

/-- R115, R116: the match finder's result is a run inside both buffers, no candidate has a longer run, and no older
candidate has a run as long. -/
def Obligations.LongestMatchIsLongestAndOldest : Prop :=
  ∀ m : Memory, m.look.length ≤ 15 →
    (longestMatch m).2 ≤ m.look.length ∧ (longestMatch m).2 ≤ 15 ∧
    (0 < (longestMatch m).2 → (longestMatch m).1 < m.hist.length) ∧
    (longestMatch m).1 + (longestMatch m).2 ≤ m.hist.length ∧
    (∀ k, k < (longestMatch m).2 → m.hist[(longestMatch m).1 + k]? = m.look[k]?) ∧
    (∀ i j, i + j ≤ m.hist.length → j ≤ m.look.length → (∀ k, k < j → m.hist[i + k]? = m.look[k]?) →
      j ≤ (longestMatch m).2 ∧ (j = (longestMatch m).2 → 0 < j → (longestMatch m).1 ≤ i)) ∧
    ((longestMatch m).2 = 0 → (longestMatch m).1 = 0)

/-- R117: a scan that stops once the run is as long as the lookahead gives the same result. -/
def Obligations.EarlyStopChangesNothing : Prop := ∀ m : Memory, longestMatchEarly m = longestMatch m

/-! ### The encoder -/

/-- ENC.PRIME takes as many bytes as are available, up to 15, and a short input is no fault (43_encoder.md R131,
60_exceptions.md R175). -/
def Obligations.PrimeFillsTheLookahead : Prop :=
  ∀ s : State, s.Inv → s.phase = .encPrime → s.src.errAt = none →
    ∃ t, encPrime s = .ok () t ∧ t.mem = ⟨[], s.src.bytes.take 15⟩ ∧ t.src = ⟨s.src.bytes.drop 15, none⟩ ∧
      t.enc = ⟨decide (s.src.bytes.length < 15), decide (s.src.bytes ≠ [])⟩ ∧
      t.phase = (if s.src.bytes = [] then .done else .encLoop) ∧
      t = (((s.setMem t.mem).setSrc t.src).setEnc t.enc).setPhase t.phase

/-- A source that fails during ENC.PRIME: IO_SRC, nothing written, the bytes fetched stay in the lookahead
(43_encoder.md R131, R139, 60_exceptions.md R173). -/
def Obligations.PrimeStopsAtSourceFailure : Prop :=
  ∀ (s : State) (e : Nat), s.Inv → s.phase = .encPrime → s.src.errAt = some e → e ≤ s.src.bytes.length → e < 15 →
    ∃ t, encPrime s = .raised t ∧ t.phase = .fault ∧ t.err = ⟨.ioSrc, 0, 0, 0⟩ ∧ t.snk = s.snk ∧
      t.mem = ⟨[], s.src.bytes.take e⟩

/-- ENC.ADVANCE moves one plaintext byte from the lookahead into the history and reports whether any is left
(43_encoder.md R135, R137). -/
def Obligations.AdvanceMovesOneByte : Prop :=
  ∀ s : State, s.mem.wf → s.mem.look ≠ [] → (s.enc.eof = false → s.mem.look.length = 15) →
    (s.enc.eof = true → s.src.bytes = []) → s.src.errAt = none →
    ∃ t, encAdvance s = .ok () t ∧ t.mem.hist = lastBytes 4095 (s.mem.hist ++ s.toEncode.take 1) ∧
      t.toEncode = s.toEncode.drop 1 ∧ t.mem.look = (s.toEncode.drop 1).take 15 ∧
      t.enc = ⟨decide (s.src.bytes = []), decide (s.toEncode.drop 1 ≠ [])⟩ ∧
      t = ((s.setMem t.mem).setSrc ⟨t.src.bytes, none⟩).setEnc t.enc

/-- R80: every token the encoder writes is a literal or a match inside the history. -/
def Obligations.EmittedTokensAreValid : Prop :=
  ∀ s : State, s.Inv → s.phase = .encLoop →
    (∃ b, encodedToken s.mem = .lit b) ∨
    (∃ pos len, encodedToken s.mem = .matchRef pos len ∧ 3 ≤ len.toNat ∧ len.toNat ≤ 15 ∧ pos.toNat ≤ 4094 ∧
      pos.toNat < s.mem.hist.length ∧ pos.toNat + len.toNat ≤ s.mem.hist.length)

/-- ENC.STEP writes exactly the bits of one token, moves the bytes it covers into the history, and finishes with a flush
when the plaintext is used up (43_encoder.md R132 to R137). -/
def Obligations.EncoderStepEmitsOneToken : Prop :=
  ∀ s : State, s.Inv → s.phase = .encLoop → s.noIoErrors →
    ∃ t, encStep s = .ok () t ∧ 1 ≤ encodedCount s.mem ∧ encodedCount s.mem ≤ s.mem.look.length ∧
      encodedCount s.mem = tokenCovers (encodedToken s.mem) ∧
      t.mem.hist = lastBytes 4095 (s.mem.hist ++ s.toEncode.take (encodedCount s.mem)) ∧
      t.toEncode = s.toEncode.drop (encodedCount s.mem) ∧ t.mem.look = t.toEncode.take 15 ∧
      (t.toEncode ≠ [] → t.phase = .encLoop ∧ t.written = s.written ++ (encode (encodedToken s.mem)).bits) ∧
      (t.toEncode = [] → t.phase = .done ∧ t.wr = ⟨0, 0⟩ ∧
        t.snk.out = packBits (s.written ++ (encode (encodedToken s.mem)).bits)) ∧
      t = ((((((s.setPhase t.phase).setWr t.wr).setEnc t.enc).setRef t.ref).setMem t.mem).setSrc t.src).setSnk t.snk

/-- A source that fails during the advances of a step: the token just written and the bits before it are flushed, and
IO_SRC is recorded (43_encoder.md R132, R139; 60_exceptions.md R173, R178; 70_reset_and_hazards.md R196). -/
def Obligations.EncoderFlushesAtSourceFailure : Prop :=
  ∀ (s : State) (e : Nat), s.Inv → s.phase = .encLoop → s.enc.eof = false → s.snk.failAfter = none →
    s.src.errAt = some e → e ≤ s.src.bytes.length → e < encodedCount s.mem →
    ∃ t, encStep s = .raised t ∧ t.phase = .fault ∧ t.err = ⟨.ioSrc, 0, 0, 0⟩ ∧ t.wr = ⟨0, 0⟩ ∧
      t.snk.out = packBits (s.written ++ (encode (encodedToken s.mem)).bits) ∧
      t.mem.hist = lastBytes 4095 (s.mem.hist ++ s.mem.look.take (e + 1))

/-! ### Whole-machine rules -/

/-- The invariant holds at reset. -/
def Obligations.ResetIsGood : Prop := State.reset.Inv

/-- Every step keeps the invariant (R25 to R30, R34 to R37, R52, R53, R137, R158). -/
def Obligations.StepKeepsTheInvariant : Prop := ∀ s t : State, s.Inv → step s = .next t → t.Inv

/-- Every step keeps the canonical form of memory, in every state that has it (20_memory.md R52, R53). -/
def Obligations.StepKeepsMemoryForm : Prop := ∀ s t : State, s.mem.wf → step s = .next t → t.mem.wf

/-- From a good state a step never stops with a fault or a refusal: the rules are total on every byte sequence and every
host (20_memory.md R61, 44_decoder.md R156). -/
def Obligations.GoodStatesNeverStop : Prop := ∀ s : State, s.Inv → ∃ t, step s = .next t

/-- The codes of `PHASE` and its transitions; no other transition exists (10_state.md R22, 30_encoding.md R81). That a
step in which a START is ignored leaves `PHASE`, because the sequencer does not move in it, is the model's choice (log 4,
DEDUCED from 10_state.md R22 and 92_eei_decisions.md D20). -/
def Obligations.PhaseTransitionsAsListed : Prop :=
  (Phase.idle.code = 0 ∧ Phase.encPrime.code = 1 ∧ Phase.encLoop.code = 2 ∧ Phase.decLoop.code = 3 ∧
    Phase.done.code = 4 ∧ Phase.fault.code = 5) ∧
  (∀ s t : State, step s = .next t →
    (s.pins.rst ≠ none → t.phase = .idle) ∧
    (s.accepts → s.pins.cmdMode = 0#1 → t.phase = .encPrime) ∧
    (s.accepts → s.pins.cmdMode = 1#1 → t.phase = .decLoop) ∧
    (s.pins.rst = none → s.pins.start = true → s.busy = true → t.phase = s.phase) ∧
    (s.quiet → s.busy = false → t.phase = s.phase) ∧
    (s.quiet → s.phase = .encPrime → t.phase = .encLoop ∨ t.phase = .done ∨ t.phase = .fault) ∧
    (s.quiet → s.phase = .encLoop → t.phase = .encLoop ∨ t.phase = .done ∨ t.phase = .fault) ∧
    (s.quiet → s.phase = .decLoop → t.phase = .decLoop ∨ t.phase = .done ∨ t.phase = .fault))

/-- R23: `MODE` is written only when a START is accepted (and by `rst`, R190), to the command's mode. -/
def Obligations.ModeIsWrittenByStartOnly : Prop :=
  ∀ s t : State, step s = .next t → s.pins.rst = none →
    (s.accepts → t.mode.bit = s.pins.cmdMode) ∧ (¬s.accepts → t.mode = s.mode)

/-- The error registers change only at fault entry, which ends a busy session, and are cleared by every accepted START and
by `rst` (10_state.md R25, R26, R27; 60_exceptions.md R176, R179). -/
def Obligations.ErrorRegistersAreHeld : Prop :=
  ∀ s t : State, step s = .next t →
    (s.pins.rst ≠ none ∨ s.accepts → t.err = ⟨.none, 0, 0, 0⟩) ∧
    (s.pins.rst = none → ¬s.accepts →
      t.err = s.err ∨ (s.busy = true ∧ t.phase = .fault ∧ t.err.code ≠ .none))

/-- Bytes reach the sink in order and nothing is taken back; the source is consumed in order (20_memory.md R58, R59, R63;
44_decoder.md R157). -/
def Obligations.StreamsAreSequential : Prop :=
  ∀ s t : State, step s = .next t → ¬s.accepts →
    s.snk.out <+: t.snk.out ∧ t.src.bytes <:+ s.src.bytes

/-- `R.exh` and `E.eof` stay set until the next accepted START or `rst`, and no further fetch is issued
(41_bitstream_reader.md R102; 10_state.md R30, R32). -/
def Obligations.EndOfSourceIsSticky : Prop :=
  ∀ s t : State, step s = .next t → s.pins.rst = none → ¬s.accepts →
    (s.rd.exh = true → t.rd.exh = true ∧ (s.phase = .decLoop → t.src = s.src ∧ t.rd.fetched = s.rd.fetched)) ∧
    (s.enc.eof = true → t.enc.eof = true ∧ (s.phase = .encPrime ∨ s.phase = .encLoop → t.src = s.src))

/-- The decoder never writes the encoder's state, nor the encoder the decoder's (10_state.md R20, R37, R27). -/
def Obligations.SequencersStayApart : Prop :=
  ∀ s t : State, step s = .next t → s.quiet →
    (s.phase = .decLoop → s.mode = .decode → t.mem.look = s.mem.look ∧ t.wr = s.wr ∧ t.enc = s.enc) ∧
    (s.phase = .encPrime ∨ s.phase = .encLoop → t.rd = s.rd ∧ t.copy = s.copy) ∧
    t.jobs = s.jobs ∧ t.host = s.host.tail ∧ t.draws = s.draws

/-- During a session the history's occupancy never decreases (42_history_matchfinder.md R110). -/
def Obligations.OccupancyNeverDecreases : Prop :=
  ∀ s t : State, step s = .next t → s.pins.rst = none → ¬s.accepts → s.mem.hist.length ≤ t.mem.hist.length

/-- Every session ends: with a host that drives nothing more, a good state reaches a phase that is not busy within the
bound of 70_reset_and_hazards.md R203, counted in the model's steps (log 4). -/
def Obligations.EverySessionEnds : Prop :=
  ∀ s : State, s.Inv → s.host = [] →
    ∃ (n : Nat) (t : State), Host.Core.run Sys2Proof.core n s = .next t ∧ t.busy = false ∧
      (s.busy = false → n = 0) ∧
      (s.phase = .encPrime ∨ s.phase = .encLoop → n ≤ 1 + s.toEncode.length) ∧
      (s.phase = .decLoop → n ≤ s.unread.length / 9 + 1)

/-- How a DECODE session ends on any byte sequence when no port fails: `DONE` with the exhaustion signal set, or a format
fault (44_decoder.md R154, R156). -/
def Obligations.DecodeSessionsEndAsListed : Prop :=
  ∀ (bytes : List Byte) (s : State), s.busy = false → s.host = [HostPins.startDecode] →
    s.jobs = [⟨⟨bytes, none⟩, none⟩] →
    ∃ (n : Nat) (t : State), 0 < n ∧ Host.Core.run Sys2Proof.core n s = .next t ∧
      ((t.phase = .done ∧ t.rd.exh = true ∧ t.err.code = .none) ∨
        (t.phase = .fault ∧ (t.err.code = .formatLen ∨ t.err.code = .formatPos)))

/-- An ENCODE session without port failures leaves at the sink the assembled listing of literals and matches that together
stand for the plaintext's bytes, in `ceil` of its bits over 8 bytes (43_encoder.md R137, R138; 30_encoding.md R70, R80). -/
def Obligations.EncodedStreamIsATokenListing : Prop :=
  ∀ (plain : List Byte) (s : State), s.busy = false → s.host = [HostPins.startEncode] →
    s.jobs = [⟨⟨plain, none⟩, none⟩] →
    ∃ (n : Nat) (t : State) (tokens : List Instr), 0 < n ∧ Host.Core.run Sys2Proof.core n s = .next t ∧
      t.phase = .done ∧ t.snk.out = assemble tokens ∧ (∀ i ∈ tokens, i.isToken = true ∧ i.wf = true ∧ 1 ≤ tokenCovers i) ∧
      (tokens.map tokenCovers).sum = plain.length ∧
      t.snk.out.length = ((tokens.map fun i => (encode i).width).sum + 7) / 8

/-- R155, the round-trip law: decoding what an ENCODE session leaves at its sink gives the plaintext back and ends in
`DONE`, for every plaintext and whatever state the block was in before either session. -/
def Obligations.DecodingAnEncodingGivesThePlaintext : Prop :=
  ∀ (plain : List Byte) (s : State), s.busy = false → s.host = [HostPins.startEncode] →
    s.jobs = [⟨⟨plain, none⟩, none⟩] →
    ∃ (n : Nat) (t : State), 0 < n ∧ Host.Core.run Sys2Proof.core n s = .next t ∧ t.phase = .done ∧
      ∀ d : State, d.busy = false → d.host = [HostPins.startDecode] → d.jobs = [⟨⟨t.snk.out, none⟩, none⟩] →
        ∃ (m : Nat) (u : State), 0 < m ∧ Host.Core.run Sys2Proof.core m d = .next u ∧ u.phase = .done ∧
          u.snk.out = plain

/-! ### The physical organisation of the history -/

/-- 20_memory.md R67: a push into the ring is a push into the history, and the ring stays well-formed. -/
def Obligations.RingPushIsHistoryPush : Prop :=
  ∀ (r : Ring) (b : Byte) (look : List Byte), r.wf →
    (r.push b).wf ∧ (r.push b).history = (Memory.push ⟨r.history, look⟩ b).hist

/-- 20_memory.md R67: the copy engine with a physical read pointer that always increments gives the bytes and the history of
HB.COPYRANGE, eviction or not (42_history_matchfinder.md R113). -/
def Obligations.RingCopyIsCopyRange : Prop :=
  ∀ (r : Ring) (start n : Nat) (s : State), r.wf → start < r.cnt → s.mem.hist = r.history → s.snk.failAfter = none →
    ∃ t, copyRange start n s = .ok () t ∧
      t.snk.out = s.snk.out ++ (Ring.copy n (r.head + BitVec.ofNat 12 start) r).1 ∧
      t.mem.hist = (Ring.copy n (r.head + BitVec.ofNat 12 start) r).2.history
end

