-- ==== Sys2Proof/Laws/State.lean ====
section
/-! SUPPORT. One lemma per field per update of the state, all true by `rfl`: no later proof unfolds an update. -/

namespace Sys2Proof.Machine.State

@[simp] theorem setPhase_phase (s : State) (x : Phase) : (s.setPhase x).phase = x := rfl
@[simp] theorem setPhase_mode (s : State) (x : Phase) : (s.setPhase x).mode = s.mode := rfl
@[simp] theorem setPhase_err (s : State) (x : Phase) : (s.setPhase x).err = s.err := rfl
@[simp] theorem setPhase_wr (s : State) (x : Phase) : (s.setPhase x).wr = s.wr := rfl
@[simp] theorem setPhase_rd (s : State) (x : Phase) : (s.setPhase x).rd = s.rd := rfl
@[simp] theorem setPhase_enc (s : State) (x : Phase) : (s.setPhase x).enc = s.enc := rfl
@[simp] theorem setPhase_ref (s : State) (x : Phase) : (s.setPhase x).ref = s.ref := rfl
@[simp] theorem setPhase_copy (s : State) (x : Phase) : (s.setPhase x).copy = s.copy := rfl
@[simp] theorem setPhase_mem (s : State) (x : Phase) : (s.setPhase x).mem = s.mem := rfl
@[simp] theorem setPhase_src (s : State) (x : Phase) : (s.setPhase x).src = s.src := rfl
@[simp] theorem setPhase_snk (s : State) (x : Phase) : (s.setPhase x).snk = s.snk := rfl
@[simp] theorem setPhase_jobs (s : State) (x : Phase) : (s.setPhase x).jobs = s.jobs := rfl
@[simp] theorem setPhase_host (s : State) (x : Phase) : (s.setPhase x).host = s.host := rfl
@[simp] theorem setPhase_draws (s : State) (x : Phase) : (s.setPhase x).draws = s.draws := rfl
@[simp] theorem setPhase_self (s : State) : s.setPhase s.phase = s := rfl
@[simp] theorem setPhase_setPhase (s : State) (x y : Phase) : (s.setPhase x).setPhase y = s.setPhase y := rfl

@[simp] theorem setMode_phase (s : State) (x : Mode) : (s.setMode x).phase = s.phase := rfl
@[simp] theorem setMode_mode (s : State) (x : Mode) : (s.setMode x).mode = x := rfl
@[simp] theorem setMode_err (s : State) (x : Mode) : (s.setMode x).err = s.err := rfl
@[simp] theorem setMode_wr (s : State) (x : Mode) : (s.setMode x).wr = s.wr := rfl
@[simp] theorem setMode_rd (s : State) (x : Mode) : (s.setMode x).rd = s.rd := rfl
@[simp] theorem setMode_enc (s : State) (x : Mode) : (s.setMode x).enc = s.enc := rfl
@[simp] theorem setMode_ref (s : State) (x : Mode) : (s.setMode x).ref = s.ref := rfl
@[simp] theorem setMode_copy (s : State) (x : Mode) : (s.setMode x).copy = s.copy := rfl
@[simp] theorem setMode_mem (s : State) (x : Mode) : (s.setMode x).mem = s.mem := rfl
@[simp] theorem setMode_src (s : State) (x : Mode) : (s.setMode x).src = s.src := rfl
@[simp] theorem setMode_snk (s : State) (x : Mode) : (s.setMode x).snk = s.snk := rfl
@[simp] theorem setMode_jobs (s : State) (x : Mode) : (s.setMode x).jobs = s.jobs := rfl
@[simp] theorem setMode_host (s : State) (x : Mode) : (s.setMode x).host = s.host := rfl
@[simp] theorem setMode_draws (s : State) (x : Mode) : (s.setMode x).draws = s.draws := rfl
@[simp] theorem setMode_self (s : State) : s.setMode s.mode = s := rfl
@[simp] theorem setMode_setMode (s : State) (x y : Mode) : (s.setMode x).setMode y = s.setMode y := rfl

@[simp] theorem setErr_phase (s : State) (x : ErrRegs) : (s.setErr x).phase = s.phase := rfl
@[simp] theorem setErr_mode (s : State) (x : ErrRegs) : (s.setErr x).mode = s.mode := rfl
@[simp] theorem setErr_err (s : State) (x : ErrRegs) : (s.setErr x).err = x := rfl
@[simp] theorem setErr_wr (s : State) (x : ErrRegs) : (s.setErr x).wr = s.wr := rfl
@[simp] theorem setErr_rd (s : State) (x : ErrRegs) : (s.setErr x).rd = s.rd := rfl
@[simp] theorem setErr_enc (s : State) (x : ErrRegs) : (s.setErr x).enc = s.enc := rfl
@[simp] theorem setErr_ref (s : State) (x : ErrRegs) : (s.setErr x).ref = s.ref := rfl
@[simp] theorem setErr_copy (s : State) (x : ErrRegs) : (s.setErr x).copy = s.copy := rfl
@[simp] theorem setErr_mem (s : State) (x : ErrRegs) : (s.setErr x).mem = s.mem := rfl
@[simp] theorem setErr_src (s : State) (x : ErrRegs) : (s.setErr x).src = s.src := rfl
@[simp] theorem setErr_snk (s : State) (x : ErrRegs) : (s.setErr x).snk = s.snk := rfl
@[simp] theorem setErr_jobs (s : State) (x : ErrRegs) : (s.setErr x).jobs = s.jobs := rfl
@[simp] theorem setErr_host (s : State) (x : ErrRegs) : (s.setErr x).host = s.host := rfl
@[simp] theorem setErr_draws (s : State) (x : ErrRegs) : (s.setErr x).draws = s.draws := rfl
@[simp] theorem setErr_self (s : State) : s.setErr s.err = s := rfl
@[simp] theorem setErr_setErr (s : State) (x y : ErrRegs) : (s.setErr x).setErr y = s.setErr y := rfl

@[simp] theorem setWr_phase (s : State) (x : Writer) : (s.setWr x).phase = s.phase := rfl
@[simp] theorem setWr_mode (s : State) (x : Writer) : (s.setWr x).mode = s.mode := rfl
@[simp] theorem setWr_err (s : State) (x : Writer) : (s.setWr x).err = s.err := rfl
@[simp] theorem setWr_wr (s : State) (x : Writer) : (s.setWr x).wr = x := rfl
@[simp] theorem setWr_rd (s : State) (x : Writer) : (s.setWr x).rd = s.rd := rfl
@[simp] theorem setWr_enc (s : State) (x : Writer) : (s.setWr x).enc = s.enc := rfl
@[simp] theorem setWr_ref (s : State) (x : Writer) : (s.setWr x).ref = s.ref := rfl
@[simp] theorem setWr_copy (s : State) (x : Writer) : (s.setWr x).copy = s.copy := rfl
@[simp] theorem setWr_mem (s : State) (x : Writer) : (s.setWr x).mem = s.mem := rfl
@[simp] theorem setWr_src (s : State) (x : Writer) : (s.setWr x).src = s.src := rfl
@[simp] theorem setWr_snk (s : State) (x : Writer) : (s.setWr x).snk = s.snk := rfl
@[simp] theorem setWr_jobs (s : State) (x : Writer) : (s.setWr x).jobs = s.jobs := rfl
@[simp] theorem setWr_host (s : State) (x : Writer) : (s.setWr x).host = s.host := rfl
@[simp] theorem setWr_draws (s : State) (x : Writer) : (s.setWr x).draws = s.draws := rfl
@[simp] theorem setWr_self (s : State) : s.setWr s.wr = s := rfl
@[simp] theorem setWr_setWr (s : State) (x y : Writer) : (s.setWr x).setWr y = s.setWr y := rfl

@[simp] theorem setRd_phase (s : State) (x : Reader) : (s.setRd x).phase = s.phase := rfl
@[simp] theorem setRd_mode (s : State) (x : Reader) : (s.setRd x).mode = s.mode := rfl
@[simp] theorem setRd_err (s : State) (x : Reader) : (s.setRd x).err = s.err := rfl
@[simp] theorem setRd_wr (s : State) (x : Reader) : (s.setRd x).wr = s.wr := rfl
@[simp] theorem setRd_rd (s : State) (x : Reader) : (s.setRd x).rd = x := rfl
@[simp] theorem setRd_enc (s : State) (x : Reader) : (s.setRd x).enc = s.enc := rfl
@[simp] theorem setRd_ref (s : State) (x : Reader) : (s.setRd x).ref = s.ref := rfl
@[simp] theorem setRd_copy (s : State) (x : Reader) : (s.setRd x).copy = s.copy := rfl
@[simp] theorem setRd_mem (s : State) (x : Reader) : (s.setRd x).mem = s.mem := rfl
@[simp] theorem setRd_src (s : State) (x : Reader) : (s.setRd x).src = s.src := rfl
@[simp] theorem setRd_snk (s : State) (x : Reader) : (s.setRd x).snk = s.snk := rfl
@[simp] theorem setRd_jobs (s : State) (x : Reader) : (s.setRd x).jobs = s.jobs := rfl
@[simp] theorem setRd_host (s : State) (x : Reader) : (s.setRd x).host = s.host := rfl
@[simp] theorem setRd_draws (s : State) (x : Reader) : (s.setRd x).draws = s.draws := rfl
@[simp] theorem setRd_self (s : State) : s.setRd s.rd = s := rfl
@[simp] theorem setRd_setRd (s : State) (x y : Reader) : (s.setRd x).setRd y = s.setRd y := rfl

@[simp] theorem setEnc_phase (s : State) (x : EncFlags) : (s.setEnc x).phase = s.phase := rfl
@[simp] theorem setEnc_mode (s : State) (x : EncFlags) : (s.setEnc x).mode = s.mode := rfl
@[simp] theorem setEnc_err (s : State) (x : EncFlags) : (s.setEnc x).err = s.err := rfl
@[simp] theorem setEnc_wr (s : State) (x : EncFlags) : (s.setEnc x).wr = s.wr := rfl
@[simp] theorem setEnc_rd (s : State) (x : EncFlags) : (s.setEnc x).rd = s.rd := rfl
@[simp] theorem setEnc_enc (s : State) (x : EncFlags) : (s.setEnc x).enc = x := rfl
@[simp] theorem setEnc_ref (s : State) (x : EncFlags) : (s.setEnc x).ref = s.ref := rfl
@[simp] theorem setEnc_copy (s : State) (x : EncFlags) : (s.setEnc x).copy = s.copy := rfl
@[simp] theorem setEnc_mem (s : State) (x : EncFlags) : (s.setEnc x).mem = s.mem := rfl
@[simp] theorem setEnc_src (s : State) (x : EncFlags) : (s.setEnc x).src = s.src := rfl
@[simp] theorem setEnc_snk (s : State) (x : EncFlags) : (s.setEnc x).snk = s.snk := rfl
@[simp] theorem setEnc_jobs (s : State) (x : EncFlags) : (s.setEnc x).jobs = s.jobs := rfl
@[simp] theorem setEnc_host (s : State) (x : EncFlags) : (s.setEnc x).host = s.host := rfl
@[simp] theorem setEnc_draws (s : State) (x : EncFlags) : (s.setEnc x).draws = s.draws := rfl
@[simp] theorem setEnc_self (s : State) : s.setEnc s.enc = s := rfl
@[simp] theorem setEnc_setEnc (s : State) (x y : EncFlags) : (s.setEnc x).setEnc y = s.setEnc y := rfl

@[simp] theorem setRef_phase (s : State) (x : Ref) : (s.setRef x).phase = s.phase := rfl
@[simp] theorem setRef_mode (s : State) (x : Ref) : (s.setRef x).mode = s.mode := rfl
@[simp] theorem setRef_err (s : State) (x : Ref) : (s.setRef x).err = s.err := rfl
@[simp] theorem setRef_wr (s : State) (x : Ref) : (s.setRef x).wr = s.wr := rfl
@[simp] theorem setRef_rd (s : State) (x : Ref) : (s.setRef x).rd = s.rd := rfl
@[simp] theorem setRef_enc (s : State) (x : Ref) : (s.setRef x).enc = s.enc := rfl
@[simp] theorem setRef_ref (s : State) (x : Ref) : (s.setRef x).ref = x := rfl
@[simp] theorem setRef_copy (s : State) (x : Ref) : (s.setRef x).copy = s.copy := rfl
@[simp] theorem setRef_mem (s : State) (x : Ref) : (s.setRef x).mem = s.mem := rfl
@[simp] theorem setRef_src (s : State) (x : Ref) : (s.setRef x).src = s.src := rfl
@[simp] theorem setRef_snk (s : State) (x : Ref) : (s.setRef x).snk = s.snk := rfl
@[simp] theorem setRef_jobs (s : State) (x : Ref) : (s.setRef x).jobs = s.jobs := rfl
@[simp] theorem setRef_host (s : State) (x : Ref) : (s.setRef x).host = s.host := rfl
@[simp] theorem setRef_draws (s : State) (x : Ref) : (s.setRef x).draws = s.draws := rfl
@[simp] theorem setRef_self (s : State) : s.setRef s.ref = s := rfl
@[simp] theorem setRef_setRef (s : State) (x y : Ref) : (s.setRef x).setRef y = s.setRef y := rfl

@[simp] theorem setCopy_phase (s : State) (x : CopyRegs) : (s.setCopy x).phase = s.phase := rfl
@[simp] theorem setCopy_mode (s : State) (x : CopyRegs) : (s.setCopy x).mode = s.mode := rfl
@[simp] theorem setCopy_err (s : State) (x : CopyRegs) : (s.setCopy x).err = s.err := rfl
@[simp] theorem setCopy_wr (s : State) (x : CopyRegs) : (s.setCopy x).wr = s.wr := rfl
@[simp] theorem setCopy_rd (s : State) (x : CopyRegs) : (s.setCopy x).rd = s.rd := rfl
@[simp] theorem setCopy_enc (s : State) (x : CopyRegs) : (s.setCopy x).enc = s.enc := rfl
@[simp] theorem setCopy_ref (s : State) (x : CopyRegs) : (s.setCopy x).ref = s.ref := rfl
@[simp] theorem setCopy_copy (s : State) (x : CopyRegs) : (s.setCopy x).copy = x := rfl
@[simp] theorem setCopy_mem (s : State) (x : CopyRegs) : (s.setCopy x).mem = s.mem := rfl
@[simp] theorem setCopy_src (s : State) (x : CopyRegs) : (s.setCopy x).src = s.src := rfl
@[simp] theorem setCopy_snk (s : State) (x : CopyRegs) : (s.setCopy x).snk = s.snk := rfl
@[simp] theorem setCopy_jobs (s : State) (x : CopyRegs) : (s.setCopy x).jobs = s.jobs := rfl
@[simp] theorem setCopy_host (s : State) (x : CopyRegs) : (s.setCopy x).host = s.host := rfl
@[simp] theorem setCopy_draws (s : State) (x : CopyRegs) : (s.setCopy x).draws = s.draws := rfl
@[simp] theorem setCopy_self (s : State) : s.setCopy s.copy = s := rfl
@[simp] theorem setCopy_setCopy (s : State) (x y : CopyRegs) : (s.setCopy x).setCopy y = s.setCopy y := rfl

@[simp] theorem setMem_phase (s : State) (x : Memory) : (s.setMem x).phase = s.phase := rfl
@[simp] theorem setMem_mode (s : State) (x : Memory) : (s.setMem x).mode = s.mode := rfl
@[simp] theorem setMem_err (s : State) (x : Memory) : (s.setMem x).err = s.err := rfl
@[simp] theorem setMem_wr (s : State) (x : Memory) : (s.setMem x).wr = s.wr := rfl
@[simp] theorem setMem_rd (s : State) (x : Memory) : (s.setMem x).rd = s.rd := rfl
@[simp] theorem setMem_enc (s : State) (x : Memory) : (s.setMem x).enc = s.enc := rfl
@[simp] theorem setMem_ref (s : State) (x : Memory) : (s.setMem x).ref = s.ref := rfl
@[simp] theorem setMem_copy (s : State) (x : Memory) : (s.setMem x).copy = s.copy := rfl
@[simp] theorem setMem_mem (s : State) (x : Memory) : (s.setMem x).mem = x := rfl
@[simp] theorem setMem_src (s : State) (x : Memory) : (s.setMem x).src = s.src := rfl
@[simp] theorem setMem_snk (s : State) (x : Memory) : (s.setMem x).snk = s.snk := rfl
@[simp] theorem setMem_jobs (s : State) (x : Memory) : (s.setMem x).jobs = s.jobs := rfl
@[simp] theorem setMem_host (s : State) (x : Memory) : (s.setMem x).host = s.host := rfl
@[simp] theorem setMem_draws (s : State) (x : Memory) : (s.setMem x).draws = s.draws := rfl
@[simp] theorem setMem_self (s : State) : s.setMem s.mem = s := rfl
@[simp] theorem setMem_setMem (s : State) (x y : Memory) : (s.setMem x).setMem y = s.setMem y := rfl

@[simp] theorem setSrc_phase (s : State) (x : Source) : (s.setSrc x).phase = s.phase := rfl
@[simp] theorem setSrc_mode (s : State) (x : Source) : (s.setSrc x).mode = s.mode := rfl
@[simp] theorem setSrc_err (s : State) (x : Source) : (s.setSrc x).err = s.err := rfl
@[simp] theorem setSrc_wr (s : State) (x : Source) : (s.setSrc x).wr = s.wr := rfl
@[simp] theorem setSrc_rd (s : State) (x : Source) : (s.setSrc x).rd = s.rd := rfl
@[simp] theorem setSrc_enc (s : State) (x : Source) : (s.setSrc x).enc = s.enc := rfl
@[simp] theorem setSrc_ref (s : State) (x : Source) : (s.setSrc x).ref = s.ref := rfl
@[simp] theorem setSrc_copy (s : State) (x : Source) : (s.setSrc x).copy = s.copy := rfl
@[simp] theorem setSrc_mem (s : State) (x : Source) : (s.setSrc x).mem = s.mem := rfl
@[simp] theorem setSrc_src (s : State) (x : Source) : (s.setSrc x).src = x := rfl
@[simp] theorem setSrc_snk (s : State) (x : Source) : (s.setSrc x).snk = s.snk := rfl
@[simp] theorem setSrc_jobs (s : State) (x : Source) : (s.setSrc x).jobs = s.jobs := rfl
@[simp] theorem setSrc_host (s : State) (x : Source) : (s.setSrc x).host = s.host := rfl
@[simp] theorem setSrc_draws (s : State) (x : Source) : (s.setSrc x).draws = s.draws := rfl
@[simp] theorem setSrc_self (s : State) : s.setSrc s.src = s := rfl
@[simp] theorem setSrc_setSrc (s : State) (x y : Source) : (s.setSrc x).setSrc y = s.setSrc y := rfl

@[simp] theorem setSnk_phase (s : State) (x : Sink) : (s.setSnk x).phase = s.phase := rfl
@[simp] theorem setSnk_mode (s : State) (x : Sink) : (s.setSnk x).mode = s.mode := rfl
@[simp] theorem setSnk_err (s : State) (x : Sink) : (s.setSnk x).err = s.err := rfl
@[simp] theorem setSnk_wr (s : State) (x : Sink) : (s.setSnk x).wr = s.wr := rfl
@[simp] theorem setSnk_rd (s : State) (x : Sink) : (s.setSnk x).rd = s.rd := rfl
@[simp] theorem setSnk_enc (s : State) (x : Sink) : (s.setSnk x).enc = s.enc := rfl
@[simp] theorem setSnk_ref (s : State) (x : Sink) : (s.setSnk x).ref = s.ref := rfl
@[simp] theorem setSnk_copy (s : State) (x : Sink) : (s.setSnk x).copy = s.copy := rfl
@[simp] theorem setSnk_mem (s : State) (x : Sink) : (s.setSnk x).mem = s.mem := rfl
@[simp] theorem setSnk_src (s : State) (x : Sink) : (s.setSnk x).src = s.src := rfl
@[simp] theorem setSnk_snk (s : State) (x : Sink) : (s.setSnk x).snk = x := rfl
@[simp] theorem setSnk_jobs (s : State) (x : Sink) : (s.setSnk x).jobs = s.jobs := rfl
@[simp] theorem setSnk_host (s : State) (x : Sink) : (s.setSnk x).host = s.host := rfl
@[simp] theorem setSnk_draws (s : State) (x : Sink) : (s.setSnk x).draws = s.draws := rfl
@[simp] theorem setSnk_self (s : State) : s.setSnk s.snk = s := rfl
@[simp] theorem setSnk_setSnk (s : State) (x y : Sink) : (s.setSnk x).setSnk y = s.setSnk y := rfl

@[simp] theorem setJobs_phase (s : State) (x : List Job) : (s.setJobs x).phase = s.phase := rfl
@[simp] theorem setJobs_mode (s : State) (x : List Job) : (s.setJobs x).mode = s.mode := rfl
@[simp] theorem setJobs_err (s : State) (x : List Job) : (s.setJobs x).err = s.err := rfl
@[simp] theorem setJobs_wr (s : State) (x : List Job) : (s.setJobs x).wr = s.wr := rfl
@[simp] theorem setJobs_rd (s : State) (x : List Job) : (s.setJobs x).rd = s.rd := rfl
@[simp] theorem setJobs_enc (s : State) (x : List Job) : (s.setJobs x).enc = s.enc := rfl
@[simp] theorem setJobs_ref (s : State) (x : List Job) : (s.setJobs x).ref = s.ref := rfl
@[simp] theorem setJobs_copy (s : State) (x : List Job) : (s.setJobs x).copy = s.copy := rfl
@[simp] theorem setJobs_mem (s : State) (x : List Job) : (s.setJobs x).mem = s.mem := rfl
@[simp] theorem setJobs_src (s : State) (x : List Job) : (s.setJobs x).src = s.src := rfl
@[simp] theorem setJobs_snk (s : State) (x : List Job) : (s.setJobs x).snk = s.snk := rfl
@[simp] theorem setJobs_jobs (s : State) (x : List Job) : (s.setJobs x).jobs = x := rfl
@[simp] theorem setJobs_host (s : State) (x : List Job) : (s.setJobs x).host = s.host := rfl
@[simp] theorem setJobs_draws (s : State) (x : List Job) : (s.setJobs x).draws = s.draws := rfl
@[simp] theorem setJobs_self (s : State) : s.setJobs s.jobs = s := rfl
@[simp] theorem setJobs_setJobs (s : State) (x y : List Job) : (s.setJobs x).setJobs y = s.setJobs y := rfl

@[simp] theorem setHost_phase (s : State) (x : List HostPins) : (s.setHost x).phase = s.phase := rfl
@[simp] theorem setHost_mode (s : State) (x : List HostPins) : (s.setHost x).mode = s.mode := rfl
@[simp] theorem setHost_err (s : State) (x : List HostPins) : (s.setHost x).err = s.err := rfl
@[simp] theorem setHost_wr (s : State) (x : List HostPins) : (s.setHost x).wr = s.wr := rfl
@[simp] theorem setHost_rd (s : State) (x : List HostPins) : (s.setHost x).rd = s.rd := rfl
@[simp] theorem setHost_enc (s : State) (x : List HostPins) : (s.setHost x).enc = s.enc := rfl
@[simp] theorem setHost_ref (s : State) (x : List HostPins) : (s.setHost x).ref = s.ref := rfl
@[simp] theorem setHost_copy (s : State) (x : List HostPins) : (s.setHost x).copy = s.copy := rfl
@[simp] theorem setHost_mem (s : State) (x : List HostPins) : (s.setHost x).mem = s.mem := rfl
@[simp] theorem setHost_src (s : State) (x : List HostPins) : (s.setHost x).src = s.src := rfl
@[simp] theorem setHost_snk (s : State) (x : List HostPins) : (s.setHost x).snk = s.snk := rfl
@[simp] theorem setHost_jobs (s : State) (x : List HostPins) : (s.setHost x).jobs = s.jobs := rfl
@[simp] theorem setHost_host (s : State) (x : List HostPins) : (s.setHost x).host = x := rfl
@[simp] theorem setHost_draws (s : State) (x : List HostPins) : (s.setHost x).draws = s.draws := rfl
@[simp] theorem setHost_self (s : State) : s.setHost s.host = s := rfl
@[simp] theorem setHost_setHost (s : State) (x y : List HostPins) : (s.setHost x).setHost y = s.setHost y := rfl

@[simp] theorem setDraws_phase (s : State) (x : Nat) : (s.setDraws x).phase = s.phase := rfl
@[simp] theorem setDraws_mode (s : State) (x : Nat) : (s.setDraws x).mode = s.mode := rfl
@[simp] theorem setDraws_err (s : State) (x : Nat) : (s.setDraws x).err = s.err := rfl
@[simp] theorem setDraws_wr (s : State) (x : Nat) : (s.setDraws x).wr = s.wr := rfl
@[simp] theorem setDraws_rd (s : State) (x : Nat) : (s.setDraws x).rd = s.rd := rfl
@[simp] theorem setDraws_enc (s : State) (x : Nat) : (s.setDraws x).enc = s.enc := rfl
@[simp] theorem setDraws_ref (s : State) (x : Nat) : (s.setDraws x).ref = s.ref := rfl
@[simp] theorem setDraws_copy (s : State) (x : Nat) : (s.setDraws x).copy = s.copy := rfl
@[simp] theorem setDraws_mem (s : State) (x : Nat) : (s.setDraws x).mem = s.mem := rfl
@[simp] theorem setDraws_src (s : State) (x : Nat) : (s.setDraws x).src = s.src := rfl
@[simp] theorem setDraws_snk (s : State) (x : Nat) : (s.setDraws x).snk = s.snk := rfl
@[simp] theorem setDraws_jobs (s : State) (x : Nat) : (s.setDraws x).jobs = s.jobs := rfl
@[simp] theorem setDraws_host (s : State) (x : Nat) : (s.setDraws x).host = s.host := rfl
@[simp] theorem setDraws_draws (s : State) (x : Nat) : (s.setDraws x).draws = x := rfl
@[simp] theorem setDraws_self (s : State) : s.setDraws s.draws = s := rfl
@[simp] theorem setDraws_setDraws (s : State) (x y : Nat) : (s.setDraws x).setDraws y = s.setDraws y := rfl

@[simp] theorem popHost_host (s : State) : s.popHost.host = s.host.tail := rfl
@[simp] theorem popHost_phase (s : State) : s.popHost.phase = s.phase := rfl
@[simp] theorem popHost_mode (s : State) : s.popHost.mode = s.mode := rfl
@[simp] theorem popHost_err (s : State) : s.popHost.err = s.err := rfl
@[simp] theorem popHost_wr (s : State) : s.popHost.wr = s.wr := rfl
@[simp] theorem popHost_rd (s : State) : s.popHost.rd = s.rd := rfl
@[simp] theorem popHost_enc (s : State) : s.popHost.enc = s.enc := rfl
@[simp] theorem popHost_ref (s : State) : s.popHost.ref = s.ref := rfl
@[simp] theorem popHost_copy (s : State) : s.popHost.copy = s.copy := rfl
@[simp] theorem popHost_mem (s : State) : s.popHost.mem = s.mem := rfl
@[simp] theorem popHost_src (s : State) : s.popHost.src = s.src := rfl
@[simp] theorem popHost_snk (s : State) : s.popHost.snk = s.snk := rfl
@[simp] theorem popHost_jobs (s : State) : s.popHost.jobs = s.jobs := rfl
@[simp] theorem popHost_draws (s : State) : s.popHost.draws = s.draws := rfl

/-- Two states with equal fields are equal. -/
theorem ext_fields {s t : State}
    (h_phase : s.phase = t.phase)
    (h_mode : s.mode = t.mode)
    (h_err : s.err = t.err)
    (h_wr : s.wr = t.wr)
    (h_rd : s.rd = t.rd)
    (h_enc : s.enc = t.enc)
    (h_ref : s.ref = t.ref)
    (h_copy : s.copy = t.copy)
    (h_mem : s.mem = t.mem)
    (h_src : s.src = t.src)
    (h_snk : s.snk = t.snk)
    (h_jobs : s.jobs = t.jobs)
    (h_host : s.host = t.host)
    (h_draws : s.draws = t.draws) : s = t := by
  cases s; cases t; simp_all

end Sys2Proof.Machine.State
end

