-- ==== Sys2Proof/Laws/Memory.lean ====
section
/-! SUPPORT. Every memory operation keeps the canonical form, and what each does to the two sequences. -/

namespace Sys2Proof.Machine

/-- HB.PUSH says nothing about the lookahead. -/
@[simp] theorem Memory.push_look (m : Memory) (b : Byte) : (m.push b).look = m.look := rfl

/-- LA.APPEND says nothing about the history. -/
@[simp] theorem Memory.append_hist (m : Memory) (b : Byte) : (m.append b).hist = m.hist := rfl

/-- Below the capacity nothing is evicted. -/
theorem evict_of_le {capacity : Nat} {l : List Byte} (h : l.length ≤ capacity) : evict capacity l = l :=
  if_neg (Nat.not_lt.mpr h)

/-- Past the capacity the oldest byte leaves. -/
theorem evict_of_lt {capacity : Nat} {l : List Byte} (h : capacity < l.length) : evict capacity l = l.tail := if_pos h

/-- HB.PUSH below the capacity appends. -/
theorem Memory.push_hist_of_lt {m : Memory} (b : Byte) (h : m.hist.length < Config.dictionarySize) :
    (m.push b).hist = m.hist ++ [b] := evict_of_le (by simpa using h)

/-- HB.PUSH at the capacity evicts the oldest byte. -/
theorem Memory.push_hist_of_full {m : Memory} (b : Byte) (h : m.hist.length = Config.dictionarySize) :
    (m.push b).hist = m.hist.tail ++ [b] := by
  refine (evict_of_lt (by simp [h])).trans ?_
  cases hm : m.hist with
  | nil => simp [hm] at h
  | cons a l => rfl

/-- LA.APPEND below the capacity appends. -/
theorem Memory.append_look_of_lt {m : Memory} (b : Byte) (h : m.look.length < Config.maxMatchSize) :
    (m.append b).look = m.look ++ [b] := evict_of_le (by simpa using h)

/-- LA.APPEND at the capacity evicts the oldest byte. -/
theorem Memory.append_look_of_full {m : Memory} (b : Byte) (h : m.look.length = Config.maxMatchSize) :
    (m.append b).look = m.look.tail ++ [b] := by
  refine (evict_of_lt (by simp [h])).trans ?_
  cases hm : m.look with
  | nil => simp [hm] at h
  | cons a l => rfl

theorem Memory.push_wf {m : Memory} (b : Byte) (h : m.wf) : (m.push b).wf := by
  refine ⟨?_, h.2⟩
  rcases Nat.lt_or_ge m.hist.length Config.dictionarySize with hl | hl
  · rw [Memory.push_hist_of_lt b hl]
    simpa using hl
  · have hl : m.hist.length = Config.dictionarySize := Nat.le_antisymm h.1 hl
    rw [Memory.push_hist_of_full b hl]
    simp [hl]

theorem Memory.append_wf {m : Memory} (b : Byte) (h : m.wf) : (m.append b).wf := by
  refine ⟨h.1, ?_⟩
  rcases Nat.lt_or_ge m.look.length Config.maxMatchSize with hl | hl
  · rw [Memory.append_look_of_lt b hl]
    simpa using hl
  · have hl : m.look.length = Config.maxMatchSize := Nat.le_antisymm h.2 hl
    rw [Memory.append_look_of_full b hl]
    simp [hl]

/-- LA.POP keeps the canonical form. -/
theorem laPop_wf {s t : State} {u : Unit} (h : s.mem.wf) (hp : laPop s = .ok u t) : t.mem.wf := by
  unfold laPop at hp
  split at hp
  · cases hp
  · rename_i b l hl
    cases hp
    refine ⟨h.1, ?_⟩
    have := h.2
    rw [hl] at this
    exact Nat.le_of_succ_le this

/-- Everything LA.POP can do. -/
theorem laPop_cases (s : State) :
    (s.mem.look = [] ∧ laPop s = .fault .popOfEmptyLookahead) ∨
    (∃ b l, s.mem.look = b :: l ∧ laPop s = .ok () (s.setMem ⟨s.mem.hist, l⟩)) := by
  unfold laPop
  split
  · exact .inl ⟨‹_›, rfl⟩
  · exact .inr ⟨_, _, ‹_›, rfl⟩

/-- Everything HB.BYTEAT can do. -/
theorem histByteAt_cases (i : Nat) (s : State) :
    (∃ b, s.mem.hist[i]? = some b ∧ histByteAt i s = .ok b s) ∨
    (s.mem.hist.length ≤ i ∧ histByteAt i s = .refused (.historyIndex i)) := by
  unfold histByteAt
  split
  · rename_i hb
    exact .inl ⟨_, hb, rfl⟩
  · rename_i hb
    exact .inr ⟨List.getElem?_eq_none_iff.mp hb, rfl⟩

/-- Everything LA.BYTEAT can do. -/
theorem laByteAt_cases (k : Nat) (s : State) :
    (∃ b, s.mem.look[k]? = some b ∧ laByteAt k s = .ok b s) ∨
    (s.mem.look.length ≤ k ∧ laByteAt k s = .refused (.lookaheadIndex k)) := by
  unfold laByteAt
  split
  · rename_i hb
    exact .inl ⟨_, hb, rfl⟩
  · rename_i hb
    exact .inr ⟨List.getElem?_eq_none_iff.mp hb, rfl⟩

end Sys2Proof.Machine
end

