-- ==== Sys2Proof/Laws/Ops.lean ====
section
/-! SUPPORT. What each shared operation can do, said once: its possible ends (`…_cases`) and its frame (`…_frame`, `…_post`). -/

namespace Sys2Proof.Machine

/-! ### How an operation ends -/

@[simp] theorem Res.bind_ok {α β : Type} (a : α) (s : State) (f : α → State → Res β) :
    (Res.ok a s).bind f = f a s := rfl
@[simp] theorem Res.bind_raised {α β : Type} (s : State) (f : α → State → Res β) :
    (Res.raised s).bind f = .raised s := rfl
@[simp] theorem Res.bind_fault {α β : Type} (r : Fault) (f : α → State → Res β) :
    (Res.fault r).bind f = .fault r := rfl
@[simp] theorem Res.bind_refused {α β : Type} (r : Refusal) (f : α → State → Res β) :
    (Res.refused r).bind f = .refused r := rfl
@[simp] theorem Res.outcome_ok (u : Unit) (s : State) : (Res.ok u s).outcome = .next s := rfl
@[simp] theorem Res.outcome_raised (s : State) : (Res.raised s).outcome = .next s := rfl
@[simp] theorem Res.outcome_fault (r : Fault) : (Res.fault r).outcome = .fault r := rfl
@[simp] theorem Res.outcome_refused (r : Refusal) : (Res.refused r).outcome = .refused r := rfl

/-- `r` ends well: completed with `P`, or raised one of the spec's faults with `Q`; it does not stop. -/
def Res.Ends {α : Type} (P : α → State → Prop) (Q : State → Prop) : Res α → Prop
  | .ok a s => P a s
  | .raised s => Q s
  | .fault _ => False
  | .refused _ => False

/-- The same, of an operation that may also stop. -/
def Res.Post {α : Type} (P : α → State → Prop) (Q : State → Prop) : Res α → Prop
  | .ok a s => P a s
  | .raised s => Q s
  | .fault _ => True
  | .refused _ => True

theorem Res.Ends.post {α : Type} {P : α → State → Prop} {Q : State → Prop} {r : Res α} (h : r.Ends P Q) :
    r.Post P Q := by
  cases r <;> first | exact h | trivial

theorem Res.Ends.mono {α : Type} {P P' : α → State → Prop} {Q Q' : State → Prop} {r : Res α} (h : r.Ends P Q)
    (hp : ∀ a s, P a s → P' a s) (hq : ∀ s, Q s → Q' s) : r.Ends P' Q' := by
  cases r with
  | ok a s => exact hp a s h
  | raised s => exact hq s h
  | fault r => exact h
  | refused r => exact h

theorem Res.Post.mono {α : Type} {P P' : α → State → Prop} {Q Q' : State → Prop} {r : Res α} (h : r.Post P Q)
    (hp : ∀ a s, P a s → P' a s) (hq : ∀ s, Q s → Q' s) : r.Post P' Q' := by
  cases r with
  | ok a s => exact hp a s h
  | raised s => exact hq s h
  | fault r => trivial
  | refused r => trivial

theorem Res.Ends.bind {α β : Type} {P : α → State → Prop} {P' : β → State → Prop} {Q : State → Prop} {r : Res α}
    {f : α → State → Res β} (h : r.Ends P Q) (hf : ∀ a s, P a s → (f a s).Ends P' Q) : (r.bind f).Ends P' Q := by
  cases r with
  | ok a s => exact hf a s h
  | raised s => exact h
  | fault r => exact h
  | refused r => exact h

theorem Res.Post.bind {α β : Type} {P : α → State → Prop} {P' : β → State → Prop} {Q : State → Prop} {r : Res α}
    {f : α → State → Res β} (h : r.Post P Q) (hf : ∀ a s, P a s → (f a s).Post P' Q) : (r.bind f).Post P' Q := by
  cases r with
  | ok a s => exact hf a s h
  | raised s => exact h
  | fault r => trivial
  | refused r => trivial

/-- A step whose work is an operation that ends well goes on. -/
theorem Res.Ends.outcome {r : Res Unit} {P : Unit → State → Prop} {Q : State → Prop} (h : r.Ends P Q) :
    ∃ t, r.outcome = .next t ∧ (P () t ∨ Q t) := by
  cases r with
  | ok a s => exact ⟨s, rfl, .inl h⟩
  | raised s => exact ⟨s, rfl, .inr h⟩
  | fault r => exact h.elim
  | refused r => exact h.elim

/-! ### The two ports -/

/-- The pins of the modelled source always close the fetch. -/
theorem Source.drive_closes (q : Source) : q.drive.closes = true := by
  cases h : q.bytes.isEmpty <;> simp [SrcPins.closes, Source.drive, h]

/-- The pins of the modelled sink always close the write. -/
theorem Sink.drive_closes (q : Sink) : q.drive.closes = true := by
  simp [SnkPins.closes, Sink.drive]

/-- Everything SrcFetch can do (R58). -/
theorem srcFetch_cases (s : State) :
    (s.src.errAt = some 0 ∧ srcFetch s = (.err, s)) ∨
    (s.src.errAt ≠ some 0 ∧ s.src.bytes = [] ∧ srcFetch s = (.eof, s)) ∨
    (∃ b bs, s.src.errAt ≠ some 0 ∧ s.src.bytes = b :: bs ∧
      srcFetch s = (.byte b, s.setSrc ⟨bs, s.src.errAt.map (· - 1)⟩)) := by
  by_cases he : s.src.errAt = some 0
  · exact .inl ⟨he, by simp [srcFetch, Source.drive, SrcPins.answer, he]⟩
  · cases hb : s.src.bytes with
    | nil => exact .inr (.inl ⟨he, rfl, by simp [srcFetch, Source.drive, SrcPins.answer, he, hb]⟩)
    | cons b bs =>
      exact .inr (.inr ⟨b, bs, he, rfl, by simp [srcFetch, Source.drive, SrcPins.answer, Source.consume, he, hb]⟩)

/-- Everything SinkWrite can do (R59). -/
theorem sinkWrite_cases (b : Byte) (s : State) :
    (s.snk.failAfter = some 0 ∧ sinkWrite b s = (.err, s)) ∨
    (s.snk.failAfter ≠ some 0 ∧
      sinkWrite b s = (.ok, s.setSnk ⟨s.snk.out ++ [b], s.snk.failAfter.map (· - 1)⟩)) := by
  by_cases he : s.snk.failAfter = some 0
  · exact .inl ⟨he, by simp [sinkWrite, Sink.drive, SnkPins.answer, he]⟩
  · exact .inr ⟨he, by simp [sinkWrite, Sink.drive, SnkPins.answer, Sink.accept, he]⟩

/-- Everything a byte to the sink can do. -/
theorem emitByte_cases (b : Byte) (s : State) :
    (s.snk.failAfter = some 0 ∧ emitByte b s = .raised (faultEntry .ioSnk s)) ∨
    (s.snk.failAfter ≠ some 0 ∧
      emitByte b s = .ok () (s.setSnk ⟨s.snk.out ++ [b], s.snk.failAfter.map (· - 1)⟩)) := by
  rcases sinkWrite_cases b s with ⟨he, h⟩ | ⟨he, h⟩
  · exact .inl ⟨he, by simp [emitByte, h, raise]⟩
  · exact .inr ⟨he, by simp [emitByte, h]⟩

/-! ### Fault entry -/

/-- The flush of fault entry writes the writer and the sink, nothing else. -/
theorem faultFlush_frame (s : State) :
    faultFlush s = (s.setWr (faultFlush s).wr).setSnk (faultFlush s).snk := by
  unfold faultFlush
  split
  · rcases sinkWrite_cases s.wr.acc s with ⟨_, h⟩ | ⟨_, h⟩ <;> rw [h] <;> rfl
  · rfl

/-- Fault entry writes the error registers, `PHASE`, and, when it flushes, the writer and the sink; nothing else. -/
theorem faultEntry_frame (code : ErrCode) (s : State) :
    faultEntry code s =
      (((s.setErr (faultEntry code s).err).setWr (faultEntry code s).wr).setSnk (faultEntry code s).snk).setPhase
        .fault := by
  unfold faultEntry
  dsimp only
  split
  · rw [faultFlush_frame]; rfl
  · rfl

@[simp] theorem faultEntry_phase (code : ErrCode) (s : State) : (faultEntry code s).phase = .fault := rfl

@[simp] theorem faultEntry_mode (code : ErrCode) (s : State) : (faultEntry code s).mode = s.mode := by
  rw [faultEntry_frame]; rfl
@[simp] theorem faultEntry_rd (code : ErrCode) (s : State) : (faultEntry code s).rd = s.rd := by
  rw [faultEntry_frame]; rfl
@[simp] theorem faultEntry_enc (code : ErrCode) (s : State) : (faultEntry code s).enc = s.enc := by
  rw [faultEntry_frame]; rfl
@[simp] theorem faultEntry_ref (code : ErrCode) (s : State) : (faultEntry code s).ref = s.ref := by
  rw [faultEntry_frame]; rfl
@[simp] theorem faultEntry_copy (code : ErrCode) (s : State) : (faultEntry code s).copy = s.copy := by
  rw [faultEntry_frame]; rfl
@[simp] theorem faultEntry_mem (code : ErrCode) (s : State) : (faultEntry code s).mem = s.mem := by
  rw [faultEntry_frame]; rfl
@[simp] theorem faultEntry_src (code : ErrCode) (s : State) : (faultEntry code s).src = s.src := by
  rw [faultEntry_frame]; rfl
@[simp] theorem faultEntry_jobs (code : ErrCode) (s : State) : (faultEntry code s).jobs = s.jobs := by
  rw [faultEntry_frame]; rfl
@[simp] theorem faultEntry_host (code : ErrCode) (s : State) : (faultEntry code s).host = s.host := by
  rw [faultEntry_frame]; rfl
@[simp] theorem faultEntry_draws (code : ErrCode) (s : State) : (faultEntry code s).draws = s.draws := by
  rw [faultEntry_frame]; rfl

/-- What fault entry records (R25, R26, R27). -/
theorem faultEntry_err (code : ErrCode) (s : State) :
    (faultEntry code s).err =
      if code.isFormat then ⟨code, s.ref.pos, s.ref.len, s.rd.fetched⟩ else ⟨code, 0, 0, s.rd.fetched⟩ := by
  unfold faultEntry
  dsimp only
  split
  · rw [faultFlush_frame]; rfl
  · rfl

/-- Outside an ENCODE session fault entry leaves the writer and the sink alone. -/
theorem faultEntry_of_decode {code : ErrCode} {s : State} (h : s.mode = .decode) :
    (faultEntry code s).wr = s.wr ∧ (faultEntry code s).snk = s.snk := by
  unfold faultEntry
  simp [h]

/-- After a sink failure fault entry leaves the writer and the sink alone. -/
theorem faultEntry_of_ioSnk (s : State) :
    (faultEntry .ioSnk s).wr = s.wr ∧ (faultEntry .ioSnk s).snk = s.snk := by
  unfold faultEntry
  simp

/-- The flush of fault entry appends at most one byte to what the sink has accepted. -/
theorem faultFlush_out (s : State) : ∃ more, (faultFlush s).snk.out = s.snk.out ++ more := by
  unfold faultFlush
  split
  · rcases sinkWrite_cases s.wr.acc s with ⟨_, h⟩ | ⟨_, h⟩ <;> rw [h]
    · exact ⟨[], (List.append_nil _).symm⟩
    · exact ⟨[s.wr.acc], rfl⟩
  · exact ⟨[], (List.append_nil _).symm⟩

/-- The sink keeps what it has accepted. -/
theorem faultEntry_out (code : ErrCode) (s : State) : ∃ more, (faultEntry code s).snk.out = s.snk.out ++ more := by
  unfold faultEntry
  dsimp only
  split
  · exact faultFlush_out _
  · exact ⟨[], (List.append_nil _).symm⟩

/-! ### The bit writer -/

/-- Everything one written bit can do (R91). -/
theorem writeBit_cases (b : Bool) (s : State) :
    (s.wr.n ≠ 7 ∧ writeBit b s = .ok () (s.setWr ⟨assignBit s.wr.acc (7 - s.wr.n) b, s.wr.n + 1⟩)) ∨
    (s.wr.n = 7 ∧ s.snk.failAfter = some 0 ∧
      writeBit b s = .raised (faultEntry .ioSnk (s.setWr ⟨assignBit s.wr.acc 0 b, 8⟩))) ∨
    (s.wr.n = 7 ∧ s.snk.failAfter ≠ some 0 ∧
      writeBit b s =
        .ok () ((s.setSnk ⟨s.snk.out ++ [assignBit s.wr.acc 0 b], s.snk.failAfter.map (· - 1)⟩).setWr ⟨0, 0⟩)) := by
  by_cases hn : s.wr.n = 7
  · rcases emitByte_cases (assignBit s.wr.acc 0 b) (s.setWr ⟨assignBit s.wr.acc 0 b, 8⟩) with ⟨he, h⟩ | ⟨he, h⟩
    · exact .inr (.inl ⟨hn, he, by simp [writeBit, hn, h]⟩)
    · exact .inr (.inr ⟨hn, he, by simp [writeBit, hn, h]; rfl⟩)
  · exact .inl ⟨hn, by simp [writeBit, hn]⟩

/-- The writer changes `W` and the sink only, and raises IO_SNK only. -/
theorem writeBits_post (value : BitVec 16) (n : Nat) (s : State) :
    (writeBits value n s).Ends (fun _ t => ∃ w k, t = (s.setWr w).setSnk k)
      (fun t => ∃ w k, t = faultEntry .ioSnk ((s.setWr w).setSnk k)) := by
  induction n generalizing s with
  | zero => exact ⟨s.wr, s.snk, rfl⟩
  | succ k ih =>
    unfold writeBits
    rcases writeBit_cases (value.getLsbD k) s with ⟨_, h⟩ | ⟨_, _, h⟩ | ⟨_, _, h⟩ <;> rw [h]
    · exact (ih _).mono (fun _ t ⟨w, q, ht⟩ => ⟨w, q, ht⟩) (fun t ⟨w, q, ht⟩ => ⟨w, q, ht⟩)
    · exact ⟨⟨assignBit s.wr.acc 0 (value.getLsbD k), 8⟩, s.snk, rfl⟩
    · exact (ih _).mono (fun _ t ⟨w, q, ht⟩ => ⟨w, q, ht⟩) (fun t ⟨w, q, ht⟩ => ⟨w, q, ht⟩)

/-- Everything BW.FLUSH can do (R92). -/
theorem flushWriter_cases (s : State) :
    (s.wr.n = 0 ∧ flushWriter s = .ok () s) ∨
    (0 < s.wr.n ∧ s.snk.failAfter = some 0 ∧ flushWriter s = .raised (faultEntry .ioSnk s)) ∨
    (0 < s.wr.n ∧ s.snk.failAfter ≠ some 0 ∧
      flushWriter s =
        .ok () ((s.setSnk ⟨s.snk.out ++ [s.wr.acc], s.snk.failAfter.map (· - 1)⟩).setWr ⟨0, 0⟩)) := by
  by_cases hn : s.wr.n = 0
  · exact .inl ⟨hn, by simp [flushWriter, hn]⟩
  · have hp : 0 < s.wr.n := Nat.pos_of_ne_zero hn
    rcases emitByte_cases s.wr.acc s with ⟨he, h⟩ | ⟨he, h⟩
    · exact .inr (.inl ⟨hp, he, by simp [flushWriter, hp, h]⟩)
    · exact .inr (.inr ⟨hp, he, by simp [flushWriter, hp, h]⟩)

/-! ### The bit reader -/

/-- Everything BR.FETCH can do (R100). -/
theorem fetchByte_cases (s : State) :
    (s.src.errAt = some 0 ∧ fetchByte s = .raised (faultEntry .ioSrc s)) ∨
    (s.src.errAt ≠ some 0 ∧ s.src.bytes = [] ∧ fetchByte s = .ok () (s.setRd ⟨0, 0, true, s.rd.fetched⟩)) ∨
    (∃ b bs, s.src.errAt ≠ some 0 ∧ s.src.bytes = b :: bs ∧
      fetchByte s =
        .ok () ((s.setSrc ⟨bs, s.src.errAt.map (· - 1)⟩).setRd ⟨b, 8, s.rd.exh, s.rd.fetched + 1⟩)) := by
  rcases srcFetch_cases s with ⟨he, h⟩ | ⟨he, hb, h⟩ | ⟨b, bs, he, hb, h⟩
  · exact .inl ⟨he, by simp [fetchByte, h, raise]⟩
  · exact .inr (.inl ⟨he, hb, by simp [fetchByte, h]⟩)
  · exact .inr (.inr ⟨b, bs, he, hb, by simp [fetchByte, h]⟩)

/-- Taking a bit changes the reader only. -/
theorem takeBit_frame (s : State) : (takeBit s).2 = s.setRd (takeBit s).2.rd := by
  unfold takeBit
  split <;> rfl

/-- The reader changes `R` and the source only, and raises IO_SRC only. -/
theorem readBit_post (s : State) :
    (readBit s).Ends (fun _ t => ∃ r q, t = (s.setRd r).setSrc q) (fun t => t = faultEntry .ioSrc s) := by
  unfold readBit
  by_cases hc : s.rd.n = 0 ∧ s.rd.exh = false
  · rw [if_pos hc]
    rcases fetchByte_cases s with ⟨_, h⟩ | ⟨_, _, h⟩ | ⟨b, bs, _, _, h⟩ <;> rw [h]
    · exact rfl
    · exact ⟨(takeBit (s.setRd ⟨0, 0, true, s.rd.fetched⟩)).2.rd, s.src, takeBit_frame _⟩
    · exact ⟨(takeBit ((s.setSrc ⟨bs, s.src.errAt.map (· - 1)⟩).setRd ⟨b, 8, s.rd.exh, s.rd.fetched + 1⟩)).2.rd,
        ⟨bs, s.src.errAt.map (· - 1)⟩, takeBit_frame _⟩
  · rw [if_neg hc]
    exact ⟨(takeBit s).2.rd, s.src, takeBit_frame s⟩

/-- BR.READBITS changes `R` and the source only, and raises IO_SRC only. -/
theorem readBitsFrom_post (v : BitVec 16) (n : Nat) (s : State) :
    (readBitsFrom v n s).Ends (fun _ t => ∃ r q, t = (s.setRd r).setSrc q)
      (fun t => ∃ r q, t = faultEntry .ioSrc ((s.setRd r).setSrc q)) := by
  induction n generalizing s v with
  | zero => exact ⟨s.rd, s.src, rfl⟩
  | succ k ih =>
    unfold readBitsFrom
    refine Res.Ends.bind (P := fun _ t => ∃ r q, t = (s.setRd r).setSrc q)
      ((readBit_post s).mono (fun _ _ h => h) (fun t ht => ⟨s.rd, s.src, ht⟩)) ?_
    rintro b s1 ⟨r, q, rfl⟩
    exact (ih _ _).mono (fun _ t ⟨r', q', ht⟩ => ⟨r', q', ht⟩) (fun t ⟨r', q', ht⟩ => ⟨r', q', ht⟩)

/-- `readBitsFrom_post` for the whole operation. -/
theorem readBits_post (n : Nat) (s : State) :
    (readBits n s).Ends (fun _ t => ∃ r q, t = (s.setRd r).setSrc q)
      (fun t => ∃ r q, t = faultEntry .ioSrc ((s.setRd r).setSrc q)) := readBitsFrom_post 0#16 n s

/-! ### The copy engine -/

/-- Everything one copied byte can do (R112). -/
theorem copyByte_cases (s : State) :
    (s.mem.hist.length ≤ s.copy.idx ∧ copyByte s = .refused (.historyIndex s.copy.idx)) ∨
    (∃ b, s.mem.hist[s.copy.idx]? = some b ∧ s.snk.failAfter = some 0 ∧
      copyByte s = .raised (faultEntry .ioSnk (s.setMem (s.mem.push b)))) ∨
    (∃ b, s.mem.hist[s.copy.idx]? = some b ∧ s.snk.failAfter ≠ some 0 ∧
      copyByte s =
        .ok () (((s.setMem (s.mem.push b)).setSnk ⟨s.snk.out ++ [b], s.snk.failAfter.map (· - 1)⟩).setCopy
          ⟨if s.mem.hist.length = Config.dictionarySize then s.copy.idx else s.copy.idx + 1, s.copy.rem - 1⟩)) := by
  rcases histByteAt_cases s.copy.idx s with ⟨b, hb, h⟩ | ⟨hl, h⟩
  · rcases emitByte_cases b (s.setMem (s.mem.push b)) with ⟨he, h'⟩ | ⟨he, h'⟩
    · exact .inr (.inl ⟨b, hb, he, by simp [copyByte, h, histPush, h']⟩)
    · exact .inr (.inr ⟨b, hb, he, by simp [copyByte, h, histPush, h']⟩)
  · exact .inl ⟨hl, by simp [copyByte, h]⟩

/-- What the copy engine may change: `C`, the history and the sink. -/
abbrev CopyFrame (s t : State) : Prop :=
  ∃ c h k, t = ((s.setCopy c).setMem ⟨h, s.mem.look⟩).setSnk k

/-- One copied byte stays inside the frame. -/
theorem copyByte_frame (s : State) :
    (copyByte s).Post (fun _ t => CopyFrame s t) (fun t => ∃ u, CopyFrame s u ∧ t = faultEntry .ioSnk u) := by
  rcases copyByte_cases s with ⟨_, h⟩ | ⟨b, _, _, h⟩ | ⟨b, _, _, h⟩ <;> rw [h]
  · trivial
  · exact ⟨s.setMem (s.mem.push b), ⟨s.copy, (s.mem.push b).hist, s.snk, rfl⟩, rfl⟩
  · exact ⟨⟨if s.mem.hist.length = Config.dictionarySize then s.copy.idx else s.copy.idx + 1, s.copy.rem - 1⟩,
      (s.mem.push b).hist, ⟨s.snk.out ++ [b], s.snk.failAfter.map (· - 1)⟩, rfl⟩

/-- The frame of one operation after another. -/
theorem CopyFrame.trans {s t u : State} (h : CopyFrame s t) (h' : CopyFrame t u) : CopyFrame s u := by
  obtain ⟨c, m, k, rfl⟩ := h
  obtain ⟨c', m', k', rfl⟩ := h'
  exact ⟨c', m', k', rfl⟩

/-- The copy engine changes `C`, the history and the sink only, and raises IO_SNK only. -/
theorem copyLoop_post (n : Nat) (s : State) :
    (copyLoop n s).Post (fun _ t => CopyFrame s t) (fun t => ∃ u, CopyFrame s u ∧ t = faultEntry .ioSnk u) := by
  induction n generalizing s with
  | zero => exact ⟨s.copy, s.mem.hist, s.snk, rfl⟩
  | succ k ih =>
    unfold copyLoop
    refine Res.Post.bind (copyByte_frame s) fun _ s1 h1 => ?_
    exact (ih s1).mono (fun _ t ht => h1.trans ht) (fun t ⟨u, hu, ht⟩ => ⟨u, h1.trans hu, ht⟩)

/-- The copy engine keeps the canonical form of memory. -/
theorem copyLoop_wf (n : Nat) (s : State) (hs : s.mem.wf) :
    (copyLoop n s).Post (fun _ t => t.mem.wf) (fun t => t.mem.wf) := by
  induction n generalizing s with
  | zero => exact hs
  | succ k ih =>
    unfold copyLoop
    rcases copyByte_cases s with ⟨_, h⟩ | ⟨b, _, _, h⟩ | ⟨b, _, _, h⟩ <;> rw [h]
    · trivial
    · simpa [Res.Post] using Memory.push_wf b hs
    · exact ih _ (Memory.push_wf b hs)

/-! ### Session start and `rst` -/

@[simp] theorem startSession_phase (m : Mode) (p : Phase) (s : State) : (startSession m p s).phase = p := rfl
@[simp] theorem startSession_mode (m : Mode) (p : Phase) (s : State) : (startSession m p s).mode = m := rfl
@[simp] theorem startSession_err (m : Mode) (p : Phase) (s : State) :
    (startSession m p s).err = ⟨.none, 0, 0, 0⟩ := rfl
@[simp] theorem startSession_wr (m : Mode) (p : Phase) (s : State) : (startSession m p s).wr = ⟨0, 0⟩ := rfl
@[simp] theorem startSession_rd (m : Mode) (p : Phase) (s : State) :
    (startSession m p s).rd = ⟨0, 0, false, 0⟩ := rfl
@[simp] theorem startSession_enc (m : Mode) (p : Phase) (s : State) :
    (startSession m p s).enc = ⟨false, false⟩ := rfl
@[simp] theorem startSession_mem (m : Mode) (p : Phase) (s : State) : (startSession m p s).mem = ⟨[], []⟩ := rfl
@[simp] theorem startSession_src (m : Mode) (p : Phase) (s : State) :
    (startSession m p s).src = s.nextJob.src := rfl
@[simp] theorem startSession_snk (m : Mode) (p : Phase) (s : State) :
    (startSession m p s).snk = ⟨[], s.nextJob.sinkFailAfter⟩ := rfl
@[simp] theorem startSession_jobs (m : Mode) (p : Phase) (s : State) :
    (startSession m p s).jobs = s.jobs.tail := rfl
@[simp] theorem startSession_host (m : Mode) (p : Phase) (s : State) : (startSession m p s).host = s.host := rfl
@[simp] theorem startSession_draws (m : Mode) (p : Phase) (s : State) :
    (startSession m p s).draws = s.draws + 1 := rfl

@[simp] theorem applyRst_phase (a : List Byte) (s : State) : (applyRst a s).phase = .idle := rfl
@[simp] theorem applyRst_mode (a : List Byte) (s : State) : (applyRst a s).mode = .encode := rfl
@[simp] theorem applyRst_err (a : List Byte) (s : State) : (applyRst a s).err = ⟨.none, 0, 0, 0⟩ := rfl
@[simp] theorem applyRst_wr (a : List Byte) (s : State) : (applyRst a s).wr = ⟨0, 0⟩ := rfl
@[simp] theorem applyRst_rd (a : List Byte) (s : State) : (applyRst a s).rd = ⟨0, 0, false, 0⟩ := rfl
@[simp] theorem applyRst_enc (a : List Byte) (s : State) : (applyRst a s).enc = ⟨false, false⟩ := rfl
@[simp] theorem applyRst_mem (a : List Byte) (s : State) : (applyRst a s).mem = ⟨[], []⟩ := rfl
@[simp] theorem applyRst_src (a : List Byte) (s : State) : (applyRst a s).src = s.src := rfl
@[simp] theorem applyRst_out (a : List Byte) (s : State) : (applyRst a s).snk.out = s.snk.out ++ a := rfl
@[simp] theorem applyRst_failAfter (a : List Byte) (s : State) :
    (applyRst a s).snk.failAfter = s.snk.failAfter := rfl
@[simp] theorem applyRst_jobs (a : List Byte) (s : State) : (applyRst a s).jobs = s.jobs := rfl
@[simp] theorem applyRst_host (a : List Byte) (s : State) : (applyRst a s).host = s.host := rfl
@[simp] theorem applyRst_draws (a : List Byte) (s : State) : (applyRst a s).draws = s.draws + 1 := rfl

end Sys2Proof.Machine
end

