-- ==== Sys2Proof/Laws/Decoder.lean ====
section
/-! SUPPORT. What the fetch of a token and the meanings of the instructions can do. -/

namespace Sys2Proof.Machine

/-- What the fetch of a token may change: the reader, the source and `REF`. -/
abbrev FetchFrame (s t : State) : Prop := ∃ r q f, t = ((s.setRd r).setSrc q).setRef f

theorem FetchFrame.trans {s t u : State} (h : FetchFrame s t) (h' : FetchFrame t u) : FetchFrame s u := by
  obtain ⟨r, q, f, rfl⟩ := h
  obtain ⟨r', q', f', rfl⟩ := h'
  exact ⟨r', q', f', rfl⟩

theorem FetchFrame.of_reader {s : State} (r : Reader) (q : Source) : FetchFrame s ((s.setRd r).setSrc q) :=
  ⟨r, q, s.ref, rfl⟩

/-- An operation of the reader alone stays inside the frame of the fetch. -/
theorem readBits_fetchFrame (n : Nat) (s : State) :
    (readBits n s).Ends (fun _ t => FetchFrame s t) (fun t => ∃ u, FetchFrame s u ∧ t = faultEntry .ioSrc u) :=
  (readBits_post n s).mono (fun _ _ ⟨r, q, ht⟩ => ht ▸ .of_reader r q) (fun _ ⟨r, q, ht⟩ => ⟨_, .of_reader r q, ht⟩)

theorem readFlag_post (s : State) :
    (readFlag s).Ends (fun _ t => FetchFrame s t) (fun t => ∃ u, FetchFrame s u ∧ t = faultEntry .ioSrc u) :=
  Res.Ends.bind (readBits_fetchFrame 1 s) fun _ _ h => h

theorem readData_post (s : State) :
    (readData s).Ends (fun _ t => FetchFrame s t) (fun t => ∃ u, FetchFrame s u ∧ t = faultEntry .ioSrc u) :=
  Res.Ends.bind (readBits_fetchFrame 8 s) fun _ _ h => h

theorem readPos_post (s : State) :
    (readPos s).Ends (fun p t => FetchFrame s t ∧ t.ref.pos = p)
      (fun t => ∃ u, FetchFrame s u ∧ t = faultEntry .ioSrc u) := by
  refine Res.Ends.bind (readBits_fetchFrame 12 s) fun v s1 h => ⟨h.trans ?_, rfl⟩
  exact ⟨s1.rd, s1.src, _, rfl⟩

theorem readLen_post (s : State) :
    (readLen s).Ends (fun l t => FetchFrame s t ∧ t.ref = ⟨s.ref.pos, l⟩)
      (fun t => ∃ u, FetchFrame s u ∧ t = faultEntry .ioSrc u) := by
  refine Res.Ends.bind (readBits_post 4 s) ?_ |>.mono (fun _ _ h => h) (fun t ⟨r, q, ht⟩ => ⟨_, .of_reader r q, ht⟩)
  rintro v s1 ⟨r, q, rfl⟩
  exact ⟨⟨r, q, ⟨s.ref.pos, v.setWidth 4⟩, rfl⟩, rfl⟩

/-- The fetch of a token never stops; it changes the reader, the source and `REF` only, and raises IO_SRC only. -/
theorem fetchToken_post (s : State) :
    (fetchToken s).Ends (fun i t => FetchFrame s t ∧ i.isToken = true ∧ i.wf = true)
      (fun t => ∃ u, FetchFrame s u ∧ t = faultEntry .ioSrc u) := by
  refine Res.Ends.bind (readFlag_post s) fun flag s1 h1 => ?_
  have raised {t : State} (h : ∃ u, FetchFrame s1 u ∧ t = faultEntry .ioSrc u) :
      ∃ u, FetchFrame s u ∧ t = faultEntry .ioSrc u := by
    obtain ⟨u, hu, ht⟩ := h
    exact ⟨u, h1.trans hu, ht⟩
  cases flag with
  | true =>
    refine Res.Ends.bind ((readPos_post s1).mono (fun _ _ h => h) fun _ => raised) fun p s2 h2 => ?_
    refine Res.Ends.bind ((readLen_post s2).mono (fun _ _ h => h) ?_) fun l s3 h3 => ?_
    · rintro t ⟨u, hu, ht⟩
      exact raised ⟨u, h2.1.trans hu, ht⟩
    · refine ⟨h1.trans (h2.1.trans h3.1), ?_, ?_⟩
      · unfold decodeRef
        split_ifs <;> rfl
      · unfold decodeRef
        split_ifs with h0 h1 h2 <;> try rfl
        have : l.toNat ≠ 0 ∧ l.toNat ≠ 1 ∧ l.toNat ≠ 2 :=
          ⟨fun h => h0 (BitVec.eq_of_toNat_eq h), fun h => h1 (BitVec.eq_of_toNat_eq h),
            fun h => h2 (BitVec.eq_of_toNat_eq h)⟩
        simp [Instr.wf, Config.minMatchSize]
        omega
  | false =>
    exact Res.Ends.bind ((readData_post s1).mono (fun _ _ h => h) fun _ => raised) fun d s2 h2 =>
      ⟨h1.trans h2, rfl, rfl⟩

/-- Everything `LIT` can do (44_decoder.md R152). -/
theorem execLit_cases (data : BitVec 8) (s : State) :
    (s.rd.exh = true ∧ execLit data s = .next (s.setPhase .done)) ∨
    (s.rd.exh = false ∧ s.snk.failAfter = some 0 ∧
      execLit data s = .next (faultEntry .ioSnk (s.setMem (s.mem.push data)))) ∨
    (s.rd.exh = false ∧ s.snk.failAfter ≠ some 0 ∧
      execLit data s =
        .next ((s.setMem (s.mem.push data)).setSnk ⟨s.snk.out ++ [data], s.snk.failAfter.map (· - 1)⟩)) := by
  cases hx : s.rd.exh with
  | true => exact .inl ⟨rfl, by simp [execLit, hx]⟩
  | false =>
    rcases emitByte_cases data (s.setMem (s.mem.push data)) with ⟨he, h⟩ | ⟨he, h⟩
    · exact .inr (.inl ⟨rfl, he, by simp [execLit, hx, histPush, h]⟩)
    · exact .inr (.inr ⟨rfl, he, by simp [execLit, hx, histPush, h]⟩)

/-- Everything a match token can do before its copy, and what the copy is (44_decoder.md R153). -/
theorem execRef_cases (pos : BitVec 12) (len : BitVec 4) (s : State) :
    (len.toNat ≤ Config.minMatchSize ∧
      execRef pos len s = .next (faultEntry .formatLen (s.setRef ⟨pos, len⟩))) ∨
    (Config.minMatchSize < len.toNat ∧ s.mem.hist.length ≤ pos.toNat ∧
      execRef pos len s = .next (faultEntry .formatPos (s.setRef ⟨pos, len⟩))) ∨
    (Config.minMatchSize < len.toNat ∧ pos.toNat < s.mem.hist.length ∧
      execRef pos len s =
        ((copyRange pos.toNat len.toNat (s.setRef ⟨pos, len⟩)).bind fun _ t =>
          .ok () (if t.rd.exh then t.setPhase .done else t)).outcome) := by
  by_cases hl : len.toNat ≤ Config.minMatchSize
  · refine .inl ⟨hl, ?_⟩
    simp only [execRef, hl, if_true, raise, Res.outcome_raised]
  · by_cases hp : s.mem.hist.length ≤ pos.toNat
    · refine .inr (.inl ⟨Nat.lt_of_not_le hl, hp, ?_⟩)
      simp only [execRef, hl, if_false, State.setRef_mem, hp, if_true, raise, Res.outcome_raised]
    · refine .inr (.inr ⟨Nat.lt_of_not_le hl, Nat.lt_of_not_le hp, ?_⟩)
      simp only [execRef, hl, if_false, State.setRef_mem, hp]

/-- Everything `CMD.ENCODE` can do (43_encoder.md R130, 30_encoding.md R81). -/
theorem execCmdEncode_cases (s : State) :
    (s.busy = true ∧ execCmdEncode s = .next s) ∨
    (s.busy = false ∧ execCmdEncode s = .next (startSession .encode .encPrime s)) := by
  cases h : s.busy <;> simp [execCmdEncode, h]

/-- Everything `CMD.DECODE` can do (44_decoder.md R150, 30_encoding.md R81). -/
theorem execCmdDecode_cases (s : State) :
    (s.busy = true ∧ execCmdDecode s = .next s) ∨
    (s.busy = false ∧ execCmdDecode s = .next (startSession .decode .decLoop s)) := by
  cases h : s.busy <;> simp [execCmdDecode, h]

end Sys2Proof.Machine
end

