-- ==== Sys2Proof/Laws/Encoder.lean ====
section
/-! SUPPORT. What the operations of the encoder can do. -/

namespace Sys2Proof.Machine

/-- Everything ENC.FINISH can do (R136). -/
theorem encFinish_cases (s : State) :
    (s.wr.n = 0 ∧ encFinish s = .ok () (s.setPhase .done)) ∨
    (0 < s.wr.n ∧ s.snk.failAfter = some 0 ∧ encFinish s = .raised (faultEntry .ioSnk s)) ∨
    (0 < s.wr.n ∧ s.snk.failAfter ≠ some 0 ∧
      encFinish s =
        .ok () (((s.setSnk ⟨s.snk.out ++ [s.wr.acc], s.snk.failAfter.map (· - 1)⟩).setWr ⟨0, 0⟩).setPhase .done)) := by
  rcases flushWriter_cases s with ⟨hn, h⟩ | ⟨hn, he, h⟩ | ⟨hn, he, h⟩
  · exact .inl ⟨hn, by simp [encFinish, h]⟩
  · exact .inr (.inl ⟨hn, he, by simp [encFinish, h]⟩)
  · exact .inr (.inr ⟨hn, he, by simp [encFinish, h]⟩)

/-- Everything the end of an advance without a byte can do (R135). -/
theorem advancePop_cons {s : State} {b : Byte} {l : List Byte} (h : s.mem.look = b :: l) :
    advancePop s = .ok () ((s.setMem ⟨s.mem.hist, l⟩).setEnc ⟨s.enc.eof, decide (0 < l.length)⟩) := by
  simp [advancePop, laPop, h, Memory.moreData]
  rfl

/-- Everything ENC.ADVANCE can do (R135). -/
theorem encAdvance_cases (s : State) :
    (s.mem.look = [] ∧ encAdvance s = .refused (.lookaheadIndex 0)) ∨
    (∃ b l, s.mem.look = b :: l ∧ s.enc.eof = false ∧ s.src.errAt = some 0 ∧
      encAdvance s = .raised (faultEntry .ioSrc (s.setMem (s.mem.push b)))) ∨
    (∃ b l, s.mem.look = b :: l ∧ (s.enc.eof = false → s.src.errAt ≠ some 0 ∧ s.src.bytes = []) ∧
      encAdvance s =
        .ok () ((s.setMem ⟨(s.mem.push b).hist, l⟩).setEnc ⟨true, decide (0 < l.length)⟩)) ∨
    (∃ b l c cs, s.mem.look = b :: l ∧ s.enc.eof = false ∧ s.src.errAt ≠ some 0 ∧ s.src.bytes = c :: cs ∧
      encAdvance s =
        .ok () (((s.setSrc ⟨cs, s.src.errAt.map (· - 1)⟩).setMem ((s.mem.push b).append c)).setEnc ⟨false, true⟩)) := by
  rcases laByteAt_cases 0 s with ⟨b, hb, h⟩ | ⟨hl, h⟩
  · obtain ⟨l, hl⟩ : ∃ l, s.mem.look = b :: l := by
      cases hm : s.mem.look with
      | nil => simp [hm] at hb
      | cons a l => exact ⟨l, by simpa [hm] using hb⟩
    refine .inr ?_
    cases he : s.enc.eof with
    | true =>
      refine .inr (.inl ⟨b, l, hl, nofun, ?_⟩)
      have hp := advancePop_cons (s := histPush b s) (b := b) (l := l) (by simpa [histPush] using hl)
      simp [encAdvance, h, histPush, he] at hp ⊢
      exact hp
    | false =>
      rcases srcFetch_cases (histPush b s) with ⟨hs, h'⟩ | ⟨hs, hbs, h'⟩ | ⟨c, cs, hs, hbs, h'⟩
      · refine .inl ⟨b, l, hl, rfl, hs, ?_⟩
        simp [encAdvance, h, histPush, he] at h' ⊢
        simp [h', raise]
      · refine .inr (.inl ⟨b, l, hl, fun _ => ⟨hs, hbs⟩, ?_⟩)
        have hp := advancePop_cons (s := (histPush b s).setEnc ⟨true, s.enc.more⟩) (b := b) (l := l)
          (by simpa [histPush] using hl)
        simp [encAdvance, h, histPush, he] at h' hp ⊢
        simp [h', hp]
        rfl
      · refine .inr (.inr ⟨b, l, c, cs, hl, rfl, hs, hbs, ?_⟩)
        simp [encAdvance, h, histPush, he] at h' ⊢
        simp [h', laAppend, he]
        rfl
  · exact .inl ⟨List.length_eq_zero_iff.mp (Nat.le_zero.mp hl), by simp [encAdvance, h]⟩

/-- What the sequencer's operations on the plaintext side may change: the memories, the source and the flags `E`. -/
abbrev IntakeFrame (s t : State) : Prop := ∃ m q e, t = ((s.setMem m).setSrc q).setEnc e

theorem IntakeFrame.trans {s t u : State} (h : IntakeFrame s t) (h' : IntakeFrame t u) : IntakeFrame s u := by
  obtain ⟨m, q, e, rfl⟩ := h
  obtain ⟨m', q', e', rfl⟩ := h'
  exact ⟨m', q', e', rfl⟩

/-- ENC.ADVANCE changes the memories, the source and `E` only, and raises IO_SRC only. -/
theorem encAdvance_post (s : State) :
    (encAdvance s).Post (fun _ t => IntakeFrame s t) (fun t => ∃ u, IntakeFrame s u ∧ t = faultEntry .ioSrc u) := by
  rcases encAdvance_cases s with ⟨_, h⟩ | ⟨b, l, _, _, _, h⟩ | ⟨b, l, _, _, h⟩ | ⟨b, l, c, cs, _, _, _, _, h⟩ <;> rw [h]
  · trivial
  · exact ⟨s.setMem (s.mem.push b), ⟨s.mem.push b, s.src, s.enc, rfl⟩, rfl⟩
  · exact ⟨⟨(s.mem.push b).hist, l⟩, s.src, ⟨true, decide (0 < l.length)⟩, rfl⟩
  · exact ⟨(s.mem.push b).append c, ⟨cs, s.src.errAt.map (· - 1)⟩, ⟨false, true⟩, rfl⟩

/-- Repeated advances stay inside the same frame. -/
theorem advanceTimes_post (n : Nat) (s : State) :
    (advanceTimes n s).Post (fun _ t => IntakeFrame s t) (fun t => ∃ u, IntakeFrame s u ∧ t = faultEntry .ioSrc u) := by
  induction n generalizing s with
  | zero => exact ⟨s.mem, s.src, s.enc, rfl⟩
  | succ k ih =>
    unfold advanceTimes
    refine Res.Post.bind (encAdvance_post s) fun _ s1 h1 => ?_
    exact (ih s1).mono (fun _ t ht => h1.trans ht) (fun t ⟨u, hu, ht⟩ => ⟨u, h1.trans hu, ht⟩)

/-- ENC.ADVANCE keeps the canonical form of memory. -/
theorem encAdvance_wf (s : State) (hs : s.mem.wf) : (encAdvance s).Post (fun _ t => t.mem.wf) (fun t => t.mem.wf) := by
  rcases encAdvance_cases s with ⟨_, h⟩ | ⟨b, l, hl, _, _, h⟩ | ⟨b, l, hl, _, h⟩ | ⟨b, l, c, cs, _, _, _, _, h⟩ <;> rw [h]
  · trivial
  · simpa [Res.Post] using Memory.push_wf b hs
  · have h2 := hs.2
    rw [hl] at h2
    exact ⟨(Memory.push_wf b hs).1, Nat.le_of_succ_le h2⟩
  · exact Memory.append_wf c (Memory.push_wf b hs)

/-- One turn of the loop of ENC.PRIME (R131). -/
theorem primeLoop_succ (n : Nat) (s : State) :
    (¬(s.mem.look.length < Config.maxMatchSize ∧ s.enc.eof = false) ∧ primeLoop (n + 1) s = .ok () s) ∨
    (s.mem.look.length < Config.maxMatchSize ∧ s.enc.eof = false ∧
      ((s.src.errAt = some 0 ∧ primeLoop (n + 1) s = .raised (faultEntry .ioSrc s)) ∨
       (s.src.errAt ≠ some 0 ∧ s.src.bytes = [] ∧
          primeLoop (n + 1) s = primeLoop n (s.setEnc ⟨true, s.enc.more⟩)) ∨
       (∃ b bs, s.src.errAt ≠ some 0 ∧ s.src.bytes = b :: bs ∧
          primeLoop (n + 1) s = primeLoop n (laAppend b (s.setSrc ⟨bs, s.src.errAt.map (· - 1)⟩))))) := by
  by_cases hc : s.mem.look.length < Config.maxMatchSize ∧ s.enc.eof = false
  · refine .inr ⟨hc.1, hc.2, ?_⟩
    rcases srcFetch_cases s with ⟨he, h⟩ | ⟨he, hb, h⟩ | ⟨b, bs, he, hb, h⟩
    · exact .inl ⟨he, by simp only [primeLoop, hc, h, raise, and_self, if_true]⟩
    · exact .inr (.inl ⟨he, hb, by simp only [primeLoop, hc, h, and_self, if_true]⟩)
    · exact .inr (.inr ⟨b, bs, he, hb, by simp only [primeLoop, hc, h, and_self, if_true]⟩)
  · exact .inl ⟨hc, by simp only [primeLoop, hc, if_false]⟩

/-- The loop of ENC.PRIME stays inside the frame and keeps the canonical form of memory. -/
theorem primeLoop_post (n : Nat) (s : State) (hs : s.mem.wf) :
    (primeLoop n s).Ends (fun _ t => IntakeFrame s t ∧ t.mem.wf)
      (fun t => ∃ u, IntakeFrame s u ∧ u.mem.wf ∧ t = faultEntry .ioSrc u) := by
  induction n generalizing s with
  | zero => exact ⟨⟨s.mem, s.src, s.enc, rfl⟩, hs⟩
  | succ k ih =>
    rcases primeLoop_succ k s with ⟨_, h⟩ | ⟨_, _, ⟨_, h⟩ | ⟨_, _, h⟩ | ⟨b, bs, _, _, h⟩⟩ <;> rw [h]
    · exact ⟨⟨s.mem, s.src, s.enc, rfl⟩, hs⟩
    · exact ⟨s, ⟨s.mem, s.src, s.enc, rfl⟩, hs, rfl⟩
    · have hf : IntakeFrame s (s.setEnc ⟨true, s.enc.more⟩) := ⟨s.mem, s.src, ⟨true, s.enc.more⟩, rfl⟩
      exact (ih (s.setEnc ⟨true, s.enc.more⟩) hs).mono (fun _ t ht => ⟨hf.trans ht.1, ht.2⟩) (fun t ⟨u, hu, hw, ht⟩ => ⟨u, hf.trans hu, hw, ht⟩)
    · have hf : IntakeFrame s (laAppend b (s.setSrc ⟨bs, s.src.errAt.map (· - 1)⟩)) :=
        ⟨s.mem.append b, ⟨bs, s.src.errAt.map (· - 1)⟩, s.enc, rfl⟩
      exact (ih (laAppend b (s.setSrc ⟨bs, s.src.errAt.map (· - 1)⟩)) (Memory.append_wf b hs)).mono (fun _ t ht => ⟨hf.trans ht.1, ht.2⟩)
        (fun t ⟨u, hu, hw, ht⟩ => ⟨u, hf.trans hu, hw, ht⟩)

/-- The token encoder changes the writer and the sink only (R133, R134). -/
theorem emitMatch_post (s : State) :
    (emitMatch s).Ends (fun _ t => ∃ w k, t = (s.setWr w).setSnk k)
      (fun t => ∃ w k, t = faultEntry .ioSnk ((s.setWr w).setSnk k)) := by
  refine Res.Ends.bind (writeBits_post 1#16 1 s) ?_
  rintro _ s1 ⟨w, k, rfl⟩
  exact (writeBits_post _ 16 _).mono (fun _ t ⟨w', k', ht⟩ => ⟨w', k', ht⟩) (fun t ⟨w', k', ht⟩ => ⟨w', k', ht⟩)

/-- ENC.EMITLIT changes the writer and the sink only (R133). -/
theorem emitLit_post (s : State) :
    (emitLit s).Post (fun _ t => ∃ w k, t = (s.setWr w).setSnk k)
      (fun t => ∃ w k, t = faultEntry .ioSnk ((s.setWr w).setSnk k)) := by
  refine Res.Post.bind (writeBits_post 0#16 1 s).post ?_
  rintro _ s1 ⟨w, k, rfl⟩
  rcases laByteAt_cases 0 ((s.setWr w).setSnk k) with ⟨b, _, h⟩ | ⟨_, h⟩ <;> rw [h]
  · exact ((writeBits_post _ 8 _).mono (fun _ t ⟨w', k', ht⟩ => ⟨w', k', ht⟩)
      (fun t ⟨w', k', ht⟩ => ⟨w', k', ht⟩)).post
  · trivial

end Sys2Proof.Machine
end

