-- ==== Sys2Proof/Laws/MatchFinder.lean ====
section
/-! SUPPORT. Small lemmas of the match finder's loops (42_history_matchfinder.md R114). -/

namespace Sys2Proof.Machine

@[simp] theorem runFrom_zero (cand look : List Byte) : runFrom 0 cand look = 0 := by unfold runFrom; rfl

@[simp] theorem runFrom_nil (fuel : Nat) (look : List Byte) : runFrom fuel [] look = 0 := by
  cases fuel <;> unfold runFrom <;> rfl

@[simp] theorem runFrom_look_nil (fuel : Nat) (cand : List Byte) : runFrom fuel cand [] = 0 := by
  cases fuel <;> cases cand <;> unfold runFrom <;> rfl

theorem runFrom_cons (fuel : Nat) (c l : Byte) (cand look : List Byte) :
    runFrom (fuel + 1) (c :: cand) (l :: look) = if c = l then runFrom fuel cand look + 1 else 0 := by
  conv_lhs => unfold runFrom

/-- A run ends with the history at the latest. -/
theorem runFrom_le_cand (fuel : Nat) (cand look : List Byte) : runFrom fuel cand look ≤ cand.length := by
  induction fuel generalizing cand look with
  | zero => simp
  | succ n ih =>
    cases cand with
    | nil => simp
    | cons c cand =>
      cases look with
      | nil => simp
      | cons l look =>
        rw [runFrom_cons]
        split
        · exact Nat.succ_le_succ (ih cand look)
        · exact Nat.zero_le _

/-- A run ends with the lookahead at the latest. -/
theorem runFrom_le_look (fuel : Nat) (cand look : List Byte) : runFrom fuel cand look ≤ look.length := by
  induction fuel generalizing cand look with
  | zero => simp
  | succ n ih =>
    cases cand with
    | nil => simp
    | cons c cand =>
      cases look with
      | nil => simp
      | cons l look =>
        rw [runFrom_cons]
        split
        · exact Nat.succ_le_succ (ih cand look)
        · exact Nat.zero_le _

/-- The bytes of a run agree. -/
theorem runFrom_agree (fuel : Nat) (cand look : List Byte) (k : Nat) (hk : k < runFrom fuel cand look) :
    cand[k]? = look[k]? := by
  induction fuel generalizing cand look k with
  | zero => simp at hk
  | succ n ih =>
    cases cand with
    | nil => simp at hk
    | cons c cand =>
      cases look with
      | nil => simp at hk
      | cons l look =>
        rw [runFrom_cons] at hk
        split at hk
        · rename_i h
          cases k with
          | zero => simp [h]
          | succ k => simpa using ih cand look k (by omega)
        · omega

end Sys2Proof.Machine
end

