-- ==== Sys2Proof/Laws/PerInstr.lean ====
section
/-! SUPPORT. Statements for all instructions, one lemma per constructor. The family `TableRow`: the word of a well-formed
instruction has the width of its row of the opcode table and the row's fixed bits (30_encoding.md R85). -/

namespace Sys2Proof.Laws.TableRow

/-- The word of `i` is of `i`'s row. -/
def Statement (i : Instr) : Prop :=
  i.wf = true →
    (encode i).width = i.row.width ∧ (encode i).toNat < 2 ^ i.row.width ∧
      (encode i).toNat &&& i.row.mask = i.row.pattern

theorem lit (data : BitVec 8) : Statement (.lit data) := by
  intro _
  refine ⟨rfl, (0#1 ++ data).isLt, ?_⟩
  have h : (0#1 ++ data) &&& 0x100#9 = 0x000#9 := by
    refine BitVec.eq_of_getLsbD_eq fun k hk => ?_
    rw [BitVec.getLsbD_and, BitVec.getLsbD_append]
    interval_cases k <;> simp
  exact congrArg BitVec.toNat h

/-- The fixed bits of a match word whose length field is `len`. -/
theorem match_word (pos : BitVec 12) (len : BitVec 4) :
    (1#1 ++ packRef pos len) &&& 0x1000F#17 = 0x10000#17 ||| len.setWidth 17 := by
  refine BitVec.eq_of_getLsbD_eq fun k hk => ?_
  rw [BitVec.getLsbD_and, BitVec.getLsbD_or, BitVec.getLsbD_append]
  interval_cases k <;> simp [packRef]

/-- The flag of a match word. -/
theorem match_flag (pos : BitVec 12) (len : BitVec 4) : (1#1 ++ packRef pos len) &&& 0x10000#17 = 0x10000#17 := by
  refine BitVec.eq_of_getLsbD_eq fun k hk => ?_
  rw [BitVec.getLsbD_and, BitVec.getLsbD_append]
  interval_cases k <;> simp

theorem matchRef (pos : BitVec 12) (len : BitVec 4) : Statement (.matchRef pos len) := fun _ =>
  ⟨rfl, (1#1 ++ packRef pos len).isLt, congrArg BitVec.toNat (match_flag pos len)⟩

theorem matchLen0 (pos : BitVec 12) : Statement (.matchLen0 pos) := fun _ =>
  ⟨rfl, (1#1 ++ packRef pos 0#4).isLt, congrArg BitVec.toNat (match_word pos 0#4)⟩

theorem matchLen1 (pos : BitVec 12) : Statement (.matchLen1 pos) := fun _ =>
  ⟨rfl, (1#1 ++ packRef pos 1#4).isLt, congrArg BitVec.toNat (match_word pos 1#4)⟩

theorem matchLen2 (pos : BitVec 12) : Statement (.matchLen2 pos) := fun _ =>
  ⟨rfl, (1#1 ++ packRef pos 2#4).isLt, congrArg BitVec.toNat (match_word pos 2#4)⟩

theorem cmdEncode : Statement .cmdEncode := fun _ => ⟨rfl, by decide, by decide⟩

theorem cmdDecode : Statement .cmdDecode := fun _ => ⟨rfl, by decide, by decide⟩

end Sys2Proof.Laws.TableRow
end

