-- ==== Sys2Proof/Laws/Step.lean ====
section
/-! SUPPORT. What a step can do. -/

namespace Sys2Proof.Machine

/-- Everything a step can do: `rst`, an ignored START, an accepted START of either mode, or the sequencer. -/
theorem step_cases (s : State) :
    (∃ k, s.pins.rst = some k ∧ step s = .next (applyRst ((bytesWritten s.popHost).take k) s.popHost)) ∨
    (s.pins.rst = none ∧ s.pins.start = true ∧ s.busy = true ∧ step s = .next s.popHost) ∨
    (s.pins.rst = none ∧ s.pins.start = true ∧ s.busy = false ∧ s.pins.cmdMode = 0#1 ∧
      step s = .next (startSession .encode .encPrime s.popHost)) ∨
    (s.pins.rst = none ∧ s.pins.start = true ∧ s.busy = false ∧ s.pins.cmdMode ≠ 0#1 ∧
      step s = .next (startSession .decode .decLoop s.popHost)) ∨
    (s.pins.rst = none ∧ s.pins.start = false ∧ step s = sequencerStep s.popHost) := by
  cases hr : s.pins.rst with
  | some k => exact .inl ⟨k, rfl, by simp only [step, hr]⟩
  | none =>
    refine .inr ?_
    cases hs : s.pins.start with
    | false => exact .inr (.inr (.inr ⟨rfl, rfl, by simp only [step, hr, hs]; rfl⟩))
    | true =>
      have hb : s.popHost.busy = s.busy := rfl
      by_cases hm : s.pins.cmdMode = 0#1
      · rcases execCmdEncode_cases s.popHost with ⟨hbusy, h⟩ | ⟨hbusy, h⟩
        · exact .inl ⟨rfl, rfl, hb ▸ hbusy, by simp only [step, hr, hs, hm, decodeCmd, if_true]; exact h⟩
        · exact .inr (.inl ⟨rfl, rfl, hb ▸ hbusy, hm, by simp only [step, hr, hs, hm, decodeCmd, if_true]; exact h⟩)
      · rcases execCmdDecode_cases s.popHost with ⟨hbusy, h⟩ | ⟨hbusy, h⟩
        · exact .inl ⟨rfl, rfl, hb ▸ hbusy, by simp only [step, hr, hs, hm, decodeCmd, if_true, if_false]; exact h⟩
        · exact .inr (.inr (.inl ⟨rfl, rfl, hb ▸ hbusy, hm, by
            simp only [step, hr, hs, hm, decodeCmd, if_true, if_false]; exact h⟩))

/-- DEC.TOKEN is the fetch of a token and its execution (44_decoder.md R151). -/
theorem decToken_cases (s : State) :
    (∃ i t, FetchFrame s t ∧ i.isToken = true ∧ i.wf = true ∧ fetchToken s = .ok i t ∧ decToken s = exec i t) ∨
    (∃ u, FetchFrame s u ∧ decToken s = .next (faultEntry .ioSrc u)) := by
  have h := fetchToken_post s
  unfold decToken
  cases hf : fetchToken s with
  | ok i t =>
    rw [hf] at h
    exact .inl ⟨i, t, h.1, h.2.1, h.2.2, rfl, rfl⟩
  | raised t =>
    rw [hf] at h
    obtain ⟨u, hu, ht⟩ := h
    exact .inr ⟨u, hu, by rw [ht]⟩
  | fault r =>
    rw [hf] at h
    exact h.elim
  | refused r =>
    rw [hf] at h
    exact h.elim

end Sys2Proof.Machine
end

