-- ==== Sys2Proof/Tests/Slice0.lean ====
section
/-! SUPPORT. Tests. Expected results are the spec's: the formats of 30_encoding.md for the words, the vectors V-… of
spec/95_test_vectors.md for the rest, as each test says. Witnesses show states that meet the hypotheses of the statements
of Certificates/Slice0/Obligations.lean, one for each clause. -/

open Sys2Proof Sys2Proof.Machine

namespace Sys2Proof.Tests

/-! ### Helpers -/

/-- A field of the next state, if there is one. -/
def after {α : Type} (f : State → α) : Host.Outcome State Fault Refusal → Option α
  | .next t => some (f t)
  | .fault _ => none
  | .refused _ => none

/-- A field of the state an operation completes in. -/
def done? {α β : Type} (f : α → State → β) : Res α → Option β
  | .ok a t => some (f a t)
  | .raised _ => none
  | .fault _ => none
  | .refused _ => none

/-- A field of the state an operation that raised a fault leaves. -/
def raised? {α β : Type} (f : State → β) : Res α → Option β
  | .ok _ _ => none
  | .raised t => some (f t)
  | .fault _ => none
  | .refused _ => none

/-- A DECODE session between tokens, its reader empty. -/
def decoding (bytes hist out : List Byte) : State :=
  { State.reset with
    phase := .decLoop, mode := .decode, src := ⟨bytes, none⟩, mem := ⟨hist, []⟩, snk := ⟨out, none⟩ }

/-- An ENCODE session between steps whose input is exhausted. -/
def draining (hist look : List Byte) (w : Writer) : State :=
  { State.reset with
    phase := .encLoop, mem := ⟨hist, look⟩, wr := w, enc := ⟨true, true⟩ }

/-- An ENCODE session after an accepted START. -/
def priming (bytes : List Byte) (errAt : Option Nat) : State :=
  { State.reset with
    phase := .encPrime, src := ⟨bytes, errAt⟩ }

/-- The lookahead of V-E5: 30, 31, …, 3E. -/
def fifteen : List Byte := (List.range 15).map fun k => BitVec.ofNat 8 (0x30 + k)

/-- V-F15 before its first step: a full lookahead and a source that fails at the next fetch. -/
def fifteenThenError : State :=
  { State.reset with
    phase := .encLoop, mem := ⟨[], fifteen⟩, enc := ⟨false, true⟩, src := ⟨[], some 0⟩ }

/-! ### Well-formedness: the check refuses the terms of the more specific rows (R76, R85) -/

theorem test_wf_refuses_match_of_length_0 : (Instr.matchRef 7#12 0#4).wf = false := by decide
theorem test_wf_refuses_match_of_length_1 : (Instr.matchRef 7#12 1#4).wf = false := by decide
theorem test_wf_refuses_match_of_length_2 : (Instr.matchRef 7#12 2#4).wf = false := by decide
theorem test_wf_accepts_match_of_length_3 : (Instr.matchRef 4095#12 3#4).wf = true := by decide

/-! ### Decoding: words written out from R71, R72, R76, R81 -/

/-- 0 then 01100001: LIT 0x61. -/
theorem test_decode_lit : decode (.t9 0b001100001#9) = .ok (.lit 0x61#8) := by decide
/-- 1 then 000000000001 then 0111: MATCH 1, 7. -/
theorem test_decode_match : decode (.t17 0b10000000000010111#17) = .ok (.matchRef 1#12 7#4) := by decide
/-- 1 then 000000000101 then 0000. -/
theorem test_decode_match_len0 : decode (.t17 0b10000000001010000#17) = .ok (.matchLen0 5#12) := by decide
/-- 1 then 111111111111 then 0001. -/
theorem test_decode_match_len1 : decode (.t17 0b11111111111110001#17) = .ok (.matchLen1 4095#12) := by decide
/-- 1 then 000000001001 then 0010. -/
theorem test_decode_match_len2 : decode (.t17 0b10000000010010010#17) = .ok (.matchLen2 9#12) := by decide
theorem test_decode_cmd_encode : decode (.cmd1 0#1) = .ok .cmdEncode := by decide
theorem test_decode_cmd_decode : decode (.cmd1 1#1) = .ok .cmdDecode := by decide
/-- V-W2: 30 80 begins with LIT 0x61, and seven zero bits are left. -/
theorem test_decode_bytes_lit : decodeBytes [0x30, 0x80] = .ok (.lit 0x61#8, List.replicate 7 false) := by decide
/-- V-F7: 80 01 80 begins with MATCH 0, 3. -/
theorem test_decode_bytes_match :
    decodeBytes [0x80, 0x01, 0x80] = .ok (.matchRef 0#12 3#4, List.replicate 7 false) := by decide
/-- A stream cut short inside a literal (V-D7) is no whole token. -/
theorem test_decode_bytes_truncated : decodeBytes [0x30] = .error .truncatedLiteral := by decide
theorem test_decode_bytes_truncated_match : decodeBytes [0xFF, 0xF8] = .error .truncatedMatch := by decide
theorem test_decode_bytes_empty : decodeBytes [] = .error .noFlag := by decide
/-- R73: position 4094, length 15 packs to 0xFFEF. -/
theorem test_pack_reference : packRef 4094#12 15#4 = 0xFFEF#16 := by decide
/-- V-D2: LIT 61, LIT 62, MATCH 0, 7 assemble to 30 98 A0 00 E0. -/
theorem test_assemble : assemble [.lit 0x61, .lit 0x62, .matchRef 0 7] = [0x30, 0x98, 0xA0, 0x00, 0xE0] := by decide
/-- V-D11: 20 C0 03 is LIT 41 and a match cut short, zero-filled to MATCH 0, 12. -/
theorem test_disassemble_truncated : disassemble [0x20, 0xC0, 0x03] = [.lit 0x41, .matchRef 0 12] := by decide
theorem test_table_word_lit : decodeTableWord 16 0x61 = some (.lit 0x61) := by decide
theorem test_table_word_match : decodeTableWord 24 0x10017 = some (.matchRef 1 7) := by decide
theorem test_table_word_command : decodeTableWord 8 1 = some .cmdDecode := by decide

/-! ### The tokens -/

/-- V-D8: the first token of 30 80 outputs 61. -/
theorem test_step_lit :
    after (fun t => (t.snk.out, t.mem.hist, t.rd)) (step (decoding [0x30, 0x80] [] [])) =
      some ([0x61], [0x61], ⟨0x00, 7, false, 2⟩) := by decide
/-- V-D5: on an empty source the session ends without output. -/
theorem test_step_lit_at_end :
    after (fun t => (t.phase, t.snk.out, t.rd.exh)) (step (decoding [] [] [])) = some (.done, [], true) := by decide
/-- V-H7: a self-overlapping copy of period 2. -/
theorem test_match_overlap :
    after (fun t => t.snk.out) (exec (.matchRef 0 7) (decoding [] [0x61, 0x62] [])) =
      some [0x61, 0x62, 0x61, 0x62, 0x61, 0x62, 0x61] := by decide
/-- V-F8: position 1 with one byte of history. -/
theorem test_match_position_fault :
    after (fun t => (t.phase, t.err, t.snk.out)) (step (decoding [0x80, 0x09, 0x80] [0x41] [0x41])) =
      some (.fault, ⟨.formatPos, 1, 3, 3⟩, [0x41]) := by decide
/-- V-F5: 80 alone is MATCH 0, 0 by zero fill. -/
theorem test_match_len0 :
    after (fun t => (t.phase, t.err)) (step (decoding [0x80] [] [])) = some (.fault, ⟨.formatLen, 0, 0, 1⟩) := by decide
/-- V-F3: MATCH 4095, 1, where the length check comes first. -/
theorem test_match_len1 :
    after (fun t => (t.phase, t.err)) (step (decoding [0xFF, 0xF8, 0x80] [] [])) =
      some (.fault, ⟨.formatLen, 4095, 1, 3⟩) := by decide
/-- V-F11: MATCH 9, 2 with one byte of history. -/
theorem test_match_len2 :
    after (fun t => (t.phase, t.err)) (exec (.matchLen2 9) (decoding [] [0x41] [])) =
      some (.fault, ⟨.formatLen, 9, 2, 0⟩) := by decide
/-- V-F13: the sink refuses the first byte; it has been pushed already. -/
theorem test_lit_sink_failure :
    after (fun t => (t.phase, t.err.code, t.snk.out, t.mem.hist))
      (exec (.lit 0x61) ((decoding [] [] []).setSnk ⟨[], some 0⟩)) = some (.fault, .ioSnk, [], [0x61]) := by decide

/-! ### The commands and the encoder -/

/-- R130: the source of the session is the host's next one. -/
theorem test_cmd_encode :
    after (fun t => (t.phase, t.src.bytes)) (exec .cmdEncode (State.reset.setJobs [⟨⟨[0x61], none⟩, none⟩])) =
      some (.encPrime, [0x61]) := by decide
/-- V-F17: START while busy is ignored. -/
theorem test_cmd_encode_while_busy : after id (exec .cmdEncode (draining [] [0x61] ⟨0, 0⟩)) =
    some (draining [] [0x61] ⟨0, 0⟩) := by decide
/-- P6 step 4: a new session starts from an empty history. -/
theorem test_cmd_decode :
    after (fun t => (t.phase, t.mode, t.mem.hist)) (exec .cmdDecode ((decoding [] [0x61] []).setPhase .done)) =
      some (.decLoop, .decode, []) := by decide
/-- R190: `rst` overrides a START and drops the session, one byte of which the sink had accepted. -/
theorem test_rst_mid_session :
    after (fun t => (t.phase, t.mem.hist, t.snk.out))
      (step ((decoding [0x30, 0x80] [] []).setHost [⟨some 1, true, 0⟩])) = some (.idle, [], [0x61]) := by decide
/-- V-E2: ENC.PRIME of one byte. -/
theorem test_prime :
    done? (fun _ t => (t.mem.look, t.enc, t.phase)) (encPrime (priming [0x61] none)) =
      some ([0x61], ⟨true, true⟩, .encLoop) := by decide
/-- V-E1: empty plaintext. -/
theorem test_prime_empty :
    done? (fun _ t => (t.snk.out, t.phase)) (encPrime (priming [] none)) = some ([], .done) := by decide
/-- P1 step 5 and finish: MATCH 0, 6 and the flush of 30. -/
theorem test_enc_step_match :
    done? (fun _ t => (t.phase, t.snk.out, t.ref, t.mem.look))
      (encStep (draining [0x61, 0x62, 0x63, 0x61, 0x62, 0x63] [0x61, 0x62, 0x63, 0x61, 0x62, 0x63] ⟨0x30, 4⟩)) =
      some (.done, [0x38, 0x00, 0x30], ⟨0, 6⟩, []) := by decide
/-- V-M9: a longest match of exactly 2 is a literal. -/
theorem test_enc_step_literal :
    done? (fun _ t => (t.mem.hist, t.snk.out, t.wr)) (encStep (draining [0x61, 0x61] [0x61, 0x61] ⟨0, 0⟩)) =
      some ([0x61, 0x61, 0x61], [0x30], ⟨0x80, 1⟩) := by decide
/-- V-F15: the pending bit is flushed when the source fails. -/
theorem test_enc_step_source_failure :
    raised? (fun t => (t.phase, t.err.code, t.snk.out)) (encStep fifteenThenError) =
      some (.fault, .ioSrc, [0x18, 0x00]) := by decide
/-- V-M1: of two runs of 3 the older wins. -/
theorem test_longest_match_oldest :
    longestMatch ⟨[0x61, 0x62, 0x63, 0x58, 0x61, 0x62, 0x63, 0x59], [0x61, 0x62, 0x63, 0x5A]⟩ = (0, 3) := by decide
/-- V-M2: a longer run to the right wins. -/
theorem test_longest_match_longest :
    longestMatch ⟨[0x61, 0x62, 0x58, 0x61, 0x62, 0x63, 0x64, 0x59], [0x61, 0x62, 0x63, 0x64, 0x45]⟩ = (3, 4) := by
  decide

/-! ### Writer and reader -/

/-- V-W8, its first two calls. -/
theorem test_write_bits :
    done? (fun _ t => (t.snk.out, t.wr))
      ((writeBits 1 1 State.reset).bind fun _ s => writeBits 0xFFEF 16 s) = some ([0xFF, 0xF7], ⟨0x80, 1⟩) := by decide
/-- V-W9: seven pending bits get one padding bit. -/
theorem test_flush :
    done? (fun _ t => (t.snk.out, t.wr)) (flushWriter (State.reset.setWr ⟨0xFE, 7⟩)) = some ([0xFE], ⟨0, 0⟩) := by decide
/-- V-R2, second call: a read that touches three bytes. -/
theorem test_read_bits :
    done? (fun v t => (v, t.rd)) (readBits 12 ((State.reset.setRd ⟨0x80, 1, false, 1⟩).setSrc ⟨[0xFF, 0xE0], none⟩)) =
      some (0xFFF, ⟨0x00, 5, false, 3⟩) := by decide
/-- V-R7: real bits in the high positions, zeros below. -/
theorem test_read_bits_past_end :
    done? (fun v t => (v, t.rd)) (readBits 8 (State.reset.setRd ⟨0xF0, 4, false, 1⟩)) =
      some (0xF0, ⟨0x00, 0, true, 1⟩) := by decide

/-! ### Witnesses: the hypotheses of the statements can be met -/

theorem witness_TokenBitsDecode : (Instr.matchRef 4094 15).isToken = true ∧ (Instr.matchRef 4094 15).wf = true := by decide
theorem witness_DisassembleInvertsAssemble :
    ∀ i ∈ [Instr.lit 0x61, .matchRef 0 3, .matchLen2 4095], i.isToken = true ∧ i.wf = true := by decide
theorem witness_DecodeAndEncodeAgree : decode (.t17 0b11111111111101111#17) = .ok (.matchRef 4094 15) := by decide
theorem witness_RstResetsTheBlock : (State.reset.setHost [⟨some 0, false, 0⟩]).pins.rst = some 0 := by decide
theorem witness_CommandStartsASession : State.reset.busy = false := by decide
theorem witness_StartIsAccepted :
    ((State.reset.setHost [.startEncode]).pins.rst = none ∧ (State.reset.setHost [.startEncode]).pins.start = true ∧
      (State.reset.setHost [.startEncode]).busy = false ∧ (State.reset.setHost [.startEncode]).pins.cmdMode = 0#1) ∧
    ((State.reset.setHost [.startDecode]).pins.cmdMode = 1#1 ∧ (State.reset.setHost [.startDecode]).accepts) := by decide
theorem witness_StartIsIgnored :
    ((draining [] [0x61] ⟨0, 0⟩).setHost [.startEncode]).pins.rst = none ∧
    ((draining [] [0x61] ⟨0, 0⟩).setHost [.startEncode]).pins.start = true ∧
    ((draining [] [0x61] ⟨0, 0⟩).setHost [.startEncode]).busy = true := by decide
theorem witness_SessionsAreIndependent :
    (State.reset.setMem ⟨[0x61], []⟩).busy = false ∧ State.reset.busy = false ∧
    (State.reset.setMem ⟨[0x61], []⟩).jobs = State.reset.jobs ∧
    (State.reset.setMem ⟨[0x61], []⟩).host = State.reset.host ∧
    (State.reset.setMem ⟨[0x61], []⟩).draws = State.reset.draws := by decide
theorem witness_ErrorAnswersWin :
    (SrcPins.closes ⟨true, 0x61, true, true⟩ = true) ∧ (SrcPins.closes ⟨true, 0x61, false, false⟩ = true) ∧
    (SrcPins.closes ⟨false, 0, true, false⟩ = true) ∧ (SnkPins.closes ⟨true, true⟩ = true) ∧
    (SnkPins.closes ⟨true, false⟩ = true) := by decide
theorem witness_StreamPrimitives :
    (State.reset.setSrc ⟨[], some 0⟩).src.errAt = some 0 ∧
    (State.reset.src.errAt ≠ some 0 ∧ State.reset.src.bytes = []) ∧
    ((State.reset.setSrc ⟨[0x61], some 1⟩).src.errAt ≠ some 0 ∧ (State.reset.setSrc ⟨[0x61], some 1⟩).src.bytes = [0x61]) ∧
    (State.reset.setSnk ⟨[], some 0⟩).snk.failAfter = some 0 ∧ State.reset.snk.failAfter ≠ some 0 := by decide
/-- Each case of the flush: bits pending with a working sink, with a failing one, none pending, a DECODE session, and the
sink's own fault. -/
theorem witness_FaultEntryEffect :
    ((draining [] [] ⟨0x80, 1⟩).mode = .encode ∧ ErrCode.ioSrc ≠ .ioSnk ∧ 0 < (draining [] [] ⟨0x80, 1⟩).wr.n ∧
      (draining [] [] ⟨0x80, 1⟩).snk.failAfter ≠ some 0) ∧
    ((draining [] [] ⟨0x80, 1⟩).setSnk ⟨[], some 0⟩).snk.failAfter = some 0 ∧
    State.reset.wr.n = 0 ∧ (decoding [] [] []).mode ≠ .encode := by decide
theorem witness_LiteralExecution :
    (State.reset.setRd ⟨0, 0, true, 0⟩).rd.exh = true ∧
    (State.reset.rd.exh = false ∧ State.reset.snk.failAfter ≠ some 0) ∧
    ((State.reset.setSnk ⟨[], some 0⟩).rd.exh = false ∧ (State.reset.setSnk ⟨[], some 0⟩).snk.failAfter = some 0) := by
  decide
/-- The shortest match of the newest byte, with a sink that takes exactly its bytes, and the longest. -/
theorem witness_MatchCopiesBytes :
    (2 < (3#4).toNat ∧ (0#12).toNat < ((decoding [] [0x41] []).setSnk ⟨[], some 3⟩).mem.hist.length ∧
      ((decoding [] [0x41] []).setSnk ⟨[], some 3⟩).mem.hist.length ≤ 4095 ∧
      ∀ k, ((decoding [] [0x41] []).setSnk ⟨[], some 3⟩).snk.failAfter = some k → (3#4).toNat ≤ k) ∧
    (2 < (15#4).toNat ∧ (0#12).toNat < (decoding [] [0x41] []).mem.hist.length ∧
      ∀ k, (decoding [] [0x41] []).snk.failAfter = some k → (15#4).toNat ≤ k) := by
  refine ⟨⟨by decide, by decide, by decide, ?_⟩, by decide, by decide, ?_⟩
  · rintro k h
    cases h
    decide
  · rintro k h
    cases h
theorem witness_MatchStopsAtSinkFailure :
    2 < (3#4).toNat ∧ (0#12).toNat < ((decoding [] [0x41] []).setSnk ⟨[], some 2⟩).mem.hist.length ∧
    ((decoding [] [0x41] []).setSnk ⟨[], some 2⟩).mem.hist.length ≤ 4095 ∧
    ((decoding [] [0x41] []).setSnk ⟨[], some 2⟩).snk.failAfter = some 2 ∧ 2 < (3#4).toNat := by decide
theorem witness_MatchOutsideHistoryFaults :
    2 < (3#4).toNat ∧ (decoding [] [0x41] []).mem.hist.length ≤ (1#12).toNat ∧
    (decoding [] [] []).mem.hist.length ≤ (0#12).toNat := by decide
theorem witness_ShortMatchesFault : (0#4).toNat ≤ 2 ∧ (1#4).toNat ≤ 2 ∧ (2#4).toNat ≤ 2 := by decide
theorem witness_FormatFaultsArePrecise :
    (Instr.matchLen0 5).isToken = true ∧ (decoding [] [0x41] []).mode = .decode ∧
    after (fun t => (t.err.code, decide (t.err ≠ (decoding [] [0x41] []).err)))
      (exec (.matchLen0 5) (decoding [] [0x41] [])) = some (.formatLen, true) ∧
    after (fun t => (t.err.code, decide (t.err ≠ (decoding [] [0x41] []).err)))
      (exec (.matchRef 1 3) (decoding [] [0x41] [])) = some (.formatPos, true) := by decide
theorem witness_WriteBitsAppendsBits :
    16 ≤ 16 ∧ (State.reset.setWr ⟨0xFE, 7⟩).wr.wf ∧ (State.reset.setWr ⟨0xFE, 7⟩).snk.failAfter = none := by decide
theorem witness_WriteBitsStopsAtSinkFailure :
    16 ≤ 16 ∧ ((State.reset.setWr ⟨0xFE, 7⟩).setSnk ⟨[], some 1⟩).wr.wf ∧
    ((State.reset.setWr ⟨0xFE, 7⟩).setSnk ⟨[], some 1⟩).snk.failAfter = some 1 ∧ 1 < (7 + 16) / 8 := by decide
theorem witness_FlushPadsWithZeros :
    ((State.reset.setWr ⟨0x80, 1⟩).wr.wf ∧ (State.reset.setWr ⟨0x80, 1⟩).snk.failAfter = none) ∧
    (State.reset.wr.wf ∧ State.reset.wr.n = 0) := by decide
/-- A reader with one bit held, and an exhausted one. -/
theorem witness_ReadBitsDeliversTheStream :
    (16 ≤ 16 ∧ ((State.reset.setRd ⟨0x80, 1, false, 1⟩).setSrc ⟨[0xFF, 0xE0], none⟩).rd.wf ∧
      ((State.reset.setRd ⟨0x80, 1, false, 1⟩).setSrc ⟨[0xFF, 0xE0], none⟩).src.errAt = none ∧
      (((State.reset.setRd ⟨0x80, 1, false, 1⟩).setSrc ⟨[0xFF, 0xE0], none⟩).rd.exh = true →
        ((State.reset.setRd ⟨0x80, 1, false, 1⟩).setSrc ⟨[0xFF, 0xE0], none⟩).src.bytes = [])) ∧
    ((State.reset.setRd ⟨0, 0, true, 1⟩).rd.wf ∧ (State.reset.setRd ⟨0, 0, true, 1⟩).src.errAt = none ∧
      ((State.reset.setRd ⟨0, 0, true, 1⟩).rd.exh = true → (State.reset.setRd ⟨0, 0, true, 1⟩).src.bytes = [])) := by
  decide
theorem witness_ReadBitsStopsAtSourceFailure :
    12 ≤ 16 ∧ (State.reset.setSrc ⟨[0xFF], some 1⟩).rd.wf ∧ (State.reset.setSrc ⟨[0xFF], some 1⟩).rd.exh = false ∧
    (State.reset.setSrc ⟨[0xFF], some 1⟩).src.errAt = some 1 ∧
    1 ≤ (State.reset.setSrc ⟨[0xFF], some 1⟩).src.bytes.length ∧
    (State.reset.setSrc ⟨[0xFF], some 1⟩).rd.n + 8 * 1 < 12 := by decide
/-- A match and a literal at the cursor. -/
theorem witness_FetchReadsTheNextToken :
    ((decoding [0x80, 0x01, 0x80] [] []).rd.wf ∧ (decoding [0x80, 0x01, 0x80] [] []).rd.exh = false ∧
      (decoding [0x80, 0x01, 0x80] [] []).src.errAt = none ∧
      flagOf (decoding [0x80, 0x01, 0x80] [] []).unread = true) ∧
    ((decoding [] [] []).rd.wf ∧ flagOf (decoding [] [] []).unread = false) := by decide
theorem witness_FetchStopsAtSourceFailure :
    ((decoding [0x80] [] []).setSrc ⟨[0x80], some 1⟩).rd.wf ∧
    ((decoding [0x80] [] []).setSrc ⟨[0x80], some 1⟩).rd.exh = false ∧
    ((decoding [0x80] [] []).setSrc ⟨[0x80], some 1⟩).src.errAt = some 1 ∧
    1 ≤ ((decoding [0x80] [] []).setSrc ⟨[0x80], some 1⟩).src.bytes.length ∧
    (bitsOfBytes [0x80]).length < tokenLength (flagOf (bitsOfBytes [0x80])) := by decide
theorem witness_StepRunsTheDecodedToken :
    (decoding [0x80, 0x01, 0x80] [0x41] [0x41]).quiet ∧ (decoding [0x80, 0x01, 0x80] [0x41] [0x41]).phase = .decLoop ∧
    (decoding [0x80, 0x01, 0x80] [0x41] [0x41]).rd.wf ∧ (decoding [0x80, 0x01, 0x80] [0x41] [0x41]).rd.exh = false ∧
    (decoding [0x80, 0x01, 0x80] [0x41] [0x41]).src.errAt = none ∧
    decodeBits (decoding [0x80, 0x01, 0x80] [0x41] [0x41]).unread =
      .ok (.matchRef 0 3, List.replicate 7 false) := by decide
theorem witness_StepFollowsThePhase :
    ((State.reset.setHost [.startDecode]).pins.rst = none ∧ (State.reset.setHost [.startDecode]).pins.start = true) ∧
    ((priming [] none).quiet ∧ (priming [] none).phase = .encPrime) ∧
    ((draining [] [0x61] ⟨0, 0⟩).quiet ∧ (draining [] [0x61] ⟨0, 0⟩).phase = .encLoop) ∧
    (State.reset.quiet ∧ State.reset.busy = false) := by decide
theorem witness_FetchWordRunsNext :
    decodeTableWord 16 0x61 = some (.lit 0x61) ∧ decodeTableWord 24 0x1FFEF = some (.matchRef 4094 15) ∧
    decodeTableWord 8 0 = some .cmdEncode := by decide
theorem witness_HistoryKeepsTheNewestBytes : (⟨[], []⟩ : Memory).hist.length ≤ 4095 := by decide
theorem witness_LookaheadAppendAndPop :
    (⟨[], [0x61]⟩ : Memory).look.length < 15 ∧ (⟨[], fifteen⟩ : Memory).look.length = 15 ∧
    0 < (draining [] [0x61] ⟨0, 0⟩).mem.look.length := by decide
theorem witness_BoundsCheckedReads :
    0 < (draining [0x61] [0x62] ⟨0, 0⟩).mem.hist.length ∧ (draining [0x61] [0x62] ⟨0, 0⟩).mem.hist.length ≤ 1 ∧
    0 < (draining [0x61] [0x62] ⟨0, 0⟩).mem.look.length ∧ (draining [0x61] [0x62] ⟨0, 0⟩).mem.look.length ≤ 1 ∧
    State.reset.mem.look = [] := by decide
theorem witness_LongestMatchIsLongestAndOldest :
    (⟨[0x61, 0x61, 0x61], [0x61, 0x61]⟩ : Memory).look.length ≤ 15 ∧
    0 < (longestMatch ⟨[0x61, 0x61, 0x61], [0x61, 0x61]⟩).2 ∧
    (longestMatch ⟨[0x61], [0x62]⟩).2 = 0 := by decide

/-- A DECODE session between tokens is a good state. -/
theorem decoding_is_good : (decoding [0x80, 0x01, 0x80] [0x41] [0x41]).Inv := by constructor <;> decide
/-- An ENCODE session before priming is a good state. -/
theorem priming_is_good : (priming [0x61] none).Inv ∧ (priming [0x61] (some 1)).Inv ∧ (priming [] none).Inv := by
  refine ⟨?_, ?_, ?_⟩ <;> constructor <;> decide
/-- An ENCODE session that drains its lookahead is a good state. -/
theorem draining_is_good : (draining [0x61, 0x62, 0x63] [0x61, 0x62, 0x63, 0x64] ⟨0x60, 3⟩).Inv := by
  constructor <;> decide
/-- V-F15 before its first step is a good state. -/
theorem fifteenThenError_is_good : fifteenThenError.Inv := by constructor <;> decide

theorem witness_PrimeFillsTheLookahead :
    ((priming [0x61] none).Inv ∧ (priming [0x61] none).phase = .encPrime ∧ (priming [0x61] none).src.errAt = none) ∧
    ((priming [] none).Inv ∧ (priming [] none).phase = .encPrime ∧ (priming [] none).src.errAt = none) :=
  ⟨⟨priming_is_good.1, rfl, rfl⟩, priming_is_good.2.2, rfl, rfl⟩
theorem witness_PrimeStopsAtSourceFailure :
    (priming [0x61] (some 1)).Inv ∧ (priming [0x61] (some 1)).phase = .encPrime ∧
    (priming [0x61] (some 1)).src.errAt = some 1 ∧ 1 ≤ (priming [0x61] (some 1)).src.bytes.length ∧ 1 < 15 :=
  ⟨priming_is_good.2.1, rfl, rfl, by decide, by decide⟩
theorem witness_AdvanceMovesOneByte :
    (draining [] [0x61] ⟨0, 0⟩).mem.wf ∧ (draining [] [0x61] ⟨0, 0⟩).mem.look ≠ [] ∧
    ((draining [] [0x61] ⟨0, 0⟩).enc.eof = false → (draining [] [0x61] ⟨0, 0⟩).mem.look.length = 15) ∧
    ((draining [] [0x61] ⟨0, 0⟩).enc.eof = true → (draining [] [0x61] ⟨0, 0⟩).src.bytes = []) ∧
    (draining [] [0x61] ⟨0, 0⟩).src.errAt = none := by decide
/-- A step that emits a match (and goes on), in a good state without port failures. -/
theorem witness_EncoderStepEmitsOneToken :
    (draining [0x61, 0x62, 0x63] [0x61, 0x62, 0x63, 0x64] ⟨0x60, 3⟩).Inv ∧
    (draining [0x61, 0x62, 0x63] [0x61, 0x62, 0x63, 0x64] ⟨0x60, 3⟩).phase = .encLoop ∧
    (draining [0x61, 0x62, 0x63] [0x61, 0x62, 0x63, 0x64] ⟨0x60, 3⟩).noIoErrors ∧
    encodedToken (draining [0x61, 0x62, 0x63] [0x61, 0x62, 0x63, 0x64] ⟨0x60, 3⟩).mem = .matchRef 0 3 :=
  ⟨draining_is_good, rfl, by decide, by decide⟩
theorem witness_EncoderFlushesAtSourceFailure :
    fifteenThenError.Inv ∧ fifteenThenError.phase = .encLoop ∧ fifteenThenError.enc.eof = false ∧
    fifteenThenError.snk.failAfter = none ∧ fifteenThenError.src.errAt = some 0 ∧
    0 ≤ fifteenThenError.src.bytes.length ∧ 0 < encodedCount fifteenThenError.mem :=
  ⟨fifteenThenError_is_good, rfl, rfl, rfl, rfl, by decide, by decide⟩
/-- A good state and a step from it. -/
theorem witness_StepKeepsTheInvariant :
    (decoding [0x80, 0x01, 0x80] [0x41] [0x41]).Inv ∧
    after (fun t => t.snk.out) (step (decoding [0x80, 0x01, 0x80] [0x41] [0x41])) = some [0x41, 0x41, 0x41, 0x41] :=
  ⟨decoding_is_good, by decide⟩
theorem witness_StepKeepsMemoryForm :
    (decoding [0x80, 0x01, 0x80] [0x41] [0x41]).mem.wf ∧
    after (fun t => t.mem.hist) (step (decoding [0x80, 0x01, 0x80] [0x41] [0x41])) = some [0x41, 0x41, 0x41, 0x41] := by
  decide
/-- A quiet step of each busy phase, and of a phase that is not busy, gives a next state. -/
theorem witness_quiet_steps :
    ((priming [0x61] none).quiet ∧ after (fun t => t.phase) (step (priming [0x61] none)) = some .encLoop) ∧
    ((draining [] [0x61] ⟨0, 0⟩).quiet ∧
      after (fun t => t.phase) (step (draining [] [0x61] ⟨0, 0⟩)) = some .done) ∧
    ((decoding [0x30, 0x80] [] []).quiet ∧
      after (fun t => t.phase) (step (decoding [0x30, 0x80] [] [])) = some .decLoop) ∧
    ((State.reset.quiet ∧ State.reset.busy = false) ∧ after (fun t => t.phase) (step State.reset) = some .idle) := by
  decide
/-- A step that resets, one that accepts each command, and one that ignores a START, each gives a next state. -/
theorem witness_driven_steps :
    after (fun t => t.phase) (step (State.reset.setHost [⟨some 0, true, 1⟩])) = some .idle ∧
    ((State.reset.setHost [.startEncode]).accepts ∧
      after (fun t => t.phase) (step (State.reset.setHost [.startEncode])) = some .encPrime) ∧
    ((State.reset.setHost [.startDecode]).accepts ∧
      after (fun t => t.phase) (step (State.reset.setHost [.startDecode])) = some .decLoop) ∧
    (¬((draining [] [0x61] ⟨0, 0⟩).setHost [.startDecode]).accepts ∧
      after (fun t => t.phase) (step ((draining [] [0x61] ⟨0, 0⟩).setHost [.startDecode])) = some .encLoop) := by decide
/-- An exhausted input in a busy phase, on either side. -/
theorem witness_EndOfSourceIsSticky :
    ((draining [] [0x61] ⟨0, 0⟩).pins.rst = none ∧ ¬(draining [] [0x61] ⟨0, 0⟩).accepts ∧
      (draining [] [0x61] ⟨0, 0⟩).enc.eof = true ∧ (draining [] [0x61] ⟨0, 0⟩).phase = .encLoop) ∧
    (((decoding [] [] []).setRd ⟨0, 0, true, 0⟩).pins.rst = none ∧
      ¬((decoding [] [] []).setRd ⟨0, 0, true, 0⟩).accepts ∧
      ((decoding [] [] []).setRd ⟨0, 0, true, 0⟩).rd.exh = true ∧
      after (fun t => t.rd.exh) (step ((decoding [] [] []).setRd ⟨0, 0, true, 0⟩)) = some true) := by decide
/-- A good state of each busy phase whose host drives nothing more. -/
theorem witness_EverySessionEnds :
    ((decoding [0x80, 0x01, 0x80] [0x41] [0x41]).Inv ∧ (decoding [0x80, 0x01, 0x80] [0x41] [0x41]).host = [] ∧
      (decoding [0x80, 0x01, 0x80] [0x41] [0x41]).phase = .decLoop) ∧
    ((priming [0x61] none).Inv ∧ (priming [0x61] none).host = [] ∧ (priming [0x61] none).phase = .encPrime) :=
  ⟨⟨decoding_is_good, rfl, rfl⟩, priming_is_good.1, rfl, rfl⟩
theorem witness_DecodeSession :
    ((State.reset.setHost [.startDecode]).setJobs [⟨⟨[0x30, 0x80], none⟩, none⟩]).busy = false ∧
    ((State.reset.setHost [.startDecode]).setJobs [⟨⟨[0x30, 0x80], none⟩, none⟩]).host = [HostPins.startDecode] ∧
    ((State.reset.setHost [.startDecode]).setJobs [⟨⟨[0x30, 0x80], none⟩, none⟩]).jobs =
      [⟨⟨[0x30, 0x80], none⟩, none⟩] := by decide
theorem witness_EncodeSession :
    ((State.reset.setHost [.startEncode]).setJobs [⟨⟨[0x61], none⟩, none⟩]).busy = false ∧
    ((State.reset.setHost [.startEncode]).setJobs [⟨⟨[0x61], none⟩, none⟩]).host = [HostPins.startEncode] ∧
    ((State.reset.setHost [.startEncode]).setJobs [⟨⟨[0x61], none⟩, none⟩]).jobs = [⟨⟨[0x61], none⟩, none⟩] := by decide
/-- A ring of one occupied cell, at the wrap of the RAM. -/
theorem witness_RingPushIsHistoryPush : (⟨List.replicate 4096 0x61, 4095#12, 1⟩ : Ring).wf :=
  ⟨List.length_replicate, by decide⟩
theorem witness_RingCopyIsCopyRange :
    (⟨List.replicate 4096 0x61, 4095#12, 1⟩ : Ring).wf ∧ 0 < (⟨List.replicate 4096 0x61, 4095#12, 1⟩ : Ring).cnt ∧
    (decoding [] (⟨List.replicate 4096 0x61, 4095#12, 1⟩ : Ring).history []).mem.hist =
      (⟨List.replicate 4096 0x61, 4095#12, 1⟩ : Ring).history ∧
    (decoding [] (⟨List.replicate 4096 0x61, 4095#12, 1⟩ : Ring).history []).snk.failAfter = none :=
  ⟨⟨List.length_replicate, by decide⟩, by decide, rfl, rfl⟩

end Sys2Proof.Tests
end

section
/-! Session start as a function of the environment: the registers it draws anew, and the non-interference of sessions
(00_scope.md R8, 10_state.md R21, R43, 70_reset_and_hazards.md R191). -/

namespace Sys2Proof.Machine

@[simp] theorem startSession_ref (m : Mode) (p : Phase) (s : State) :
    (startSession m p s).ref = ⟨Config.freeRefPos s.draws, Config.freeRefLen s.draws⟩ := rfl
@[simp] theorem startSession_copy (m : Mode) (p : Phase) (s : State) :
    (startSession m p s).copy = ⟨(Config.freeCopyIdx s.draws).val, (Config.freeCopyRem s.draws).val⟩ := rfl

theorem State.nextJob_congr {s s' : State} (hjobs : s.jobs = s'.jobs) : s.nextJob = s'.nextJob := by
  simp only [State.nextJob, hjobs]

/-- START overwrites every field except those named here: the block's registers by constants, `REF` and `C` by free values
that `draws` selects, the source and the sink by those of the next job. -/
theorem startSession_congr (m : Mode) (p : Phase) {s s' : State} (hjobs : s.jobs = s'.jobs) (hhost : s.host = s'.host)
    (hdraws : s.draws = s'.draws) : startSession m p s = startSession m p s' := by
  have hjob : s.nextJob = s'.nextJob := State.nextJob_congr hjobs
  apply State.ext_fields
  case h_jobs => simp only [startSession_jobs, hjobs]
  case h_host => simpa only [startSession_host] using hhost
  case h_draws => simp only [startSession_draws, hdraws]
  case h_ref => simp only [startSession_ref, hdraws]
  case h_copy => simp only [startSession_copy, hdraws]
  case h_src => simp only [startSession_src, hjob]
  case h_snk => simp only [startSession_snk, hjob]
  all_goals rfl

theorem exec_cmdEncode_of_not_busy {s : State} (hbusy : s.busy = false) :
    exec .cmdEncode s = .next (startSession .encode .encPrime s) := by
  rcases execCmdEncode_cases s with ⟨h, _⟩ | ⟨_, h⟩
  · simp [hbusy] at h
  · exact h

theorem exec_cmdDecode_of_not_busy {s : State} (hbusy : s.busy = false) :
    exec .cmdDecode s = .next (startSession .decode .decLoop s) := by
  rcases execCmdDecode_cases s with ⟨h, _⟩ | ⟨_, h⟩
  · simp [hbusy] at h
  · exact h

/-- Settles O12: both commands are accepted in either state, and an accepted START depends on the environment and the
count of free values alone. -/
theorem sessionsAreIndependent : Obligations.SessionsAreIndependent := by
  intro s s' hbusy hbusy' hjobs hhost hdraws
  constructor
  · rw [exec_cmdEncode_of_not_busy hbusy, exec_cmdEncode_of_not_busy hbusy',
      startSession_congr _ _ hjobs hhost hdraws]
  · rw [exec_cmdDecode_of_not_busy hbusy, exec_cmdDecode_of_not_busy hbusy',
      startSession_congr _ _ hjobs hhost hdraws]

end Sys2Proof.Machine
end

section
/-! The status ports, the reset state, and which equation of the model a step follows for what the host drives
(10_state.md R22, R24, R43; 30_encoding.md R81; 70_reset_and_hazards.md R190). -/

namespace Sys2Proof.Machine

theorem State.busy_iff (s : State) :
    s.busy = true ↔ s.phase = .encPrime ∨ s.phase = .encLoop ∨ s.phase = .decLoop := by
  unfold State.busy
  cases s.phase <;> simp [Phase.busy]

theorem State.done_iff (s : State) : s.done = true ↔ s.phase = .done := decide_eq_true_iff

theorem State.faulted_iff (s : State) : s.faulted = true ↔ s.phase = .fault := decide_eq_true_iff

/-- Settles O6: each status bit names its phases, and no phase is named twice. -/
theorem statusFollowsPhase : Obligations.StatusFollowsPhase := by
  intro s
  simp only [State.ports, ← Bool.not_eq_true, s.busy_iff, s.done_iff, s.faulted_iff]
  cases s.phase <;> decide

/-- Settles O7: the fields of `State.reset` are these values. -/
theorem resetStateHasSpecValues : Obligations.ResetStateHasSpecValues := ⟨rfl, rfl, rfl, rfl, rfl, rfl, rfl⟩

/-- Settles O43: at reset every clause of the invariant is about a closed state. -/
theorem resetIsGood : Obligations.ResetIsGood := by
  unfold Obligations.ResetIsGood
  constructor <;> decide

/-! ### The equations of a step -/

theorem step_of_rst {s : State} {k : Nat} (hr : s.pins.rst = some k) :
    step s = .next (applyRst ((bytesWritten s.popHost).take k) s.popHost) := by
  simp only [step, hr]

theorem step_of_start {s : State} (hr : s.pins.rst = none) (hs : s.pins.start = true) :
    step s = exec (decodeCmd s.pins.cmdMode) s.popHost := by
  simp only [step, hr, hs, if_true]

theorem step_of_quiet {s : State} (hq : s.quiet) : step s = sequencerStep s.popHost := by
  obtain ⟨hr, hs⟩ := hq
  simp only [step, hr, hs]
  rfl

theorem step_of_accepts_encode {s : State} (ha : s.accepts) (hm : s.pins.cmdMode = 0#1) :
    step s = .next (startSession .encode .encPrime s.popHost) := by
  obtain ⟨hr, hs, hb⟩ := ha
  rw [step_of_start hr hs, hm]
  exact exec_cmdEncode_of_not_busy hb

theorem step_of_accepts_decode {s : State} (ha : s.accepts) (hm : s.pins.cmdMode = 1#1) :
    step s = .next (startSession .decode .decLoop s.popHost) := by
  obtain ⟨hr, hs, hb⟩ := ha
  rw [step_of_start hr hs, hm]
  exact exec_cmdDecode_of_not_busy hb

/-- A START while busy is ignored whichever command it selects (R81). -/
theorem step_of_ignored_start {s : State} (hr : s.pins.rst = none) (hs : s.pins.start = true) (hb : s.busy = true) :
    step s = .next s.popHost := by
  have hb' : s.popHost.busy = true := hb
  rw [step_of_start hr hs, decodeCmd]
  split
  · simp [exec, execCmdEncode, hb']
  · simp [exec, execCmdDecode, hb']

/-- `cmd_mode` has the two levels of R81 only. -/
theorem cmdMode_cases (m : BitVec 1) : m = 0#1 ∨ m = 1#1 := by
  revert m
  decide

/-- Without `rst`, a step that accepts no START either ignores one or belongs to the sequencer. -/
theorem ignored_or_quiet_of_not_accepts {s : State} (hr : s.pins.rst = none) (ha : ¬s.accepts) :
    (s.pins.start = true ∧ s.busy = true) ∨ s.quiet := by
  cases hs : s.pins.start with
  | false => exact .inr ⟨hr, hs⟩
  | true => exact .inl ⟨rfl, by simpa [hr, hs] using ha⟩

/-- A block that is not busy holds its state (60_exceptions.md R179, R183). -/
theorem sequencerStep_of_not_busy {s : State} (hb : s.busy = false) : sequencerStep s = .next s := by
  unfold State.busy at hb
  unfold sequencerStep
  cases hp : s.phase <;> simp [hp, Phase.busy] at hb ⊢

theorem sequencerStep_of_encPrime {s : State} (hp : s.phase = .encPrime) : sequencerStep s = (encPrime s).outcome := by
  simp only [sequencerStep, hp]

theorem sequencerStep_of_encLoop {s : State} (hp : s.phase = .encLoop) : sequencerStep s = (encStep s).outcome := by
  simp only [sequencerStep, hp]

theorem sequencerStep_of_decLoop {s : State} (hp : s.phase = .decLoop) : sequencerStep s = decToken s := by
  simp only [sequencerStep, hp]

/-- Settles O30: a START is dispatched before the sequencer, which is dispatched by the phase. -/
theorem stepFollowsThePhase : Obligations.StepFollowsThePhase := by
  refine ⟨fun s hr hs => step_of_start hr hs, fun s hq hp => ?_, fun s hq hp => ?_, fun s hq hb => ?_⟩
  · rw [step_of_quiet hq, sequencerStep_of_encPrime (s := s.popHost) hp]
  · rw [step_of_quiet hq, sequencerStep_of_encLoop (s := s.popHost) hp]
  · rw [step_of_quiet hq, sequencerStep_of_not_busy (s := s.popHost) hb]

end Sys2Proof.Machine
end

section
/-! What one operation of a sequencer may change and how it ends: each of the two stays inside a frame of its own and
then goes on, finishes or takes a fault (10_state.md R20, R22). -/

namespace Sys2Proof.Machine

/-- A step whose whole work is an operation has what every end of the operation has. -/
theorem Res.Post.of_outcome {r : Res Unit} {Q : State → Prop} {t : State} (h : r.Post (fun _ u => Q u) Q)
    (ht : r.outcome = .next t) : Q t := by
  cases r with
  | ok a s => cases ht; exact h
  | raised s => cases ht; exact h
  | fault r => cases ht
  | refused r => cases ht

/-! ### How an operation of a sequencer ends -/

/-- The operation has brought the session to `u` and ends in `t`: the session goes on in the phase `loop`, is over, or
takes a fault. -/
def EndsIn (loop : Phase) (u t : State) : Prop :=
  t = u.setPhase loop ∨ t = u.setPhase .done ∨ ∃ code, code ≠ .none ∧ t = faultEntry code u

/-- An operation that stays inside the frame `F` and then ends. -/
def RunsTo (F : State → State → Prop) (loop : Phase) (s t : State) : Prop := ∃ u, F s u ∧ EndsIn loop u t

theorem RunsTo.goesOn {F : State → State → Prop} {s u : State} (h : F s u) (loop : Phase) :
    RunsTo F loop s (u.setPhase loop) := ⟨u, h, .inl rfl⟩

theorem RunsTo.done {F : State → State → Prop} {s u : State} (h : F s u) (loop : Phase) :
    RunsTo F loop s (u.setPhase .done) := ⟨u, h, .inr (.inl rfl)⟩

theorem RunsTo.faults {F : State → State → Prop} {s u : State} (h : F s u) (loop : Phase) {code : ErrCode}
    (hc : code ≠ .none) : RunsTo F loop s (faultEntry code u) := ⟨u, h, .inr (.inr ⟨code, hc, rfl⟩)⟩

/-- What an operation reaches after another has stayed inside the frame. -/
theorem RunsTo.after {F : State → State → Prop} (hF : ∀ {a b c}, F a b → F b c → F a c) {loop : Phase}
    {s t u : State} (h : F s t) (h' : RunsTo F loop t u) : RunsTo F loop s u := by
  obtain ⟨v, hv, hend⟩ := h'
  exact ⟨v, hF h hv, hend⟩

theorem EndsIn.phase {loop : Phase} {u t : State} (h : EndsIn loop u t) :
    t.phase = loop ∨ t.phase = .done ∨ t.phase = .fault := by
  rcases h with rfl | rfl | ⟨code, _, rfl⟩
  · exact .inl rfl
  · exact .inr (.inl rfl)
  · exact .inr (.inr rfl)

/-- The error registers change at fault entry only, and then hold a cause (R25). -/
theorem EndsIn.err {loop : Phase} {u t : State} (h : EndsIn loop u t) :
    t.err = u.err ∨ (t.phase = .fault ∧ t.err.code ≠ .none) := by
  rcases h with rfl | rfl | ⟨code, hc, rfl⟩
  · exact .inl rfl
  · exact .inl rfl
  · refine .inr ⟨rfl, ?_⟩
    rw [faultEntry_err]
    split <;> exact hc

/-- No ending writes any of these. -/
theorem EndsIn.kept {loop : Phase} {u t : State} (h : EndsIn loop u t) :
    t.mode = u.mode ∧ t.rd = u.rd ∧ t.enc = u.enc ∧ t.copy = u.copy ∧ t.mem = u.mem ∧ t.jobs = u.jobs ∧
      t.host = u.host ∧ t.draws = u.draws := by
  rcases h with rfl | rfl | ⟨code, _, rfl⟩ <;> simp

/-- In a DECODE session no ending flushes the writer (60_exceptions.md R178). -/
theorem EndsIn.wr_of_decode {loop : Phase} {u t : State} (h : EndsIn loop u t) (hm : u.mode = .decode) :
    t.wr = u.wr := by
  rcases h with rfl | rfl | ⟨code, _, rfl⟩
  · rfl
  · rfl
  · exact (faultEntry_of_decode hm).1

/-! ### The encoder -/

/-- What an operation of the encoder leaves alone until it ends: all but the writer, its own flags, `REF`, the memories
and the ports (10_state.md R20). -/
structure EncFrame (s t : State) : Prop where
  phase : t.phase = s.phase
  mode : t.mode = s.mode
  err : t.err = s.err
  rd : t.rd = s.rd
  copy : t.copy = s.copy
  jobs : t.jobs = s.jobs
  host : t.host = s.host
  draws : t.draws = s.draws

theorem EncFrame.refl (s : State) : EncFrame s s := by
  constructor <;> rfl

theorem EncFrame.trans {s t u : State} (h : EncFrame s t) (h' : EncFrame t u) : EncFrame s u where
  phase := h'.phase.trans h.phase
  mode := h'.mode.trans h.mode
  err := h'.err.trans h.err
  rd := h'.rd.trans h.rd
  copy := h'.copy.trans h.copy
  jobs := h'.jobs.trans h.jobs
  host := h'.host.trans h.host
  draws := h'.draws.trans h.draws

theorem EncFrame.of_intake {s t : State} (h : IntakeFrame s t) : EncFrame s t := by
  obtain ⟨m, q, e, rfl⟩ := h
  constructor <;> rfl

theorem EncFrame.of_writer {s t : State} (h : ∃ w k, t = (s.setWr w).setSnk k) : EncFrame s t := by
  obtain ⟨w, k, rfl⟩ := h
  constructor <;> rfl

theorem EncFrame.of_search (s : State) : EncFrame s (searchRef s) := by
  constructor <;> rfl

/-- The loop of ENC.PRIME stays inside the frame of the plaintext side in every state. -/
theorem primeLoop_frame (n : Nat) (s : State) :
    (primeLoop n s).Ends (fun _ t => IntakeFrame s t) (fun t => ∃ u, IntakeFrame s u ∧ t = faultEntry .ioSrc u) := by
  induction n generalizing s with
  | zero => exact ⟨s.mem, s.src, s.enc, rfl⟩
  | succ k ih =>
    have turn {s1 : State} (hf : IntakeFrame s s1) :
        (primeLoop k s1).Ends (fun _ t => IntakeFrame s t)
          (fun t => ∃ u, IntakeFrame s u ∧ t = faultEntry .ioSrc u) :=
      (ih s1).mono (fun _ _ ht => hf.trans ht) (fun _ ⟨u, hu, ht⟩ => ⟨u, hf.trans hu, ht⟩)
    rcases primeLoop_succ k s with ⟨_, h⟩ | ⟨_, _, ⟨_, h⟩ | ⟨_, _, h⟩ | ⟨b, bs, _, _, h⟩⟩ <;> rw [h]
    · exact ⟨s.mem, s.src, s.enc, rfl⟩
    · exact ⟨s, ⟨s.mem, s.src, s.enc, rfl⟩, rfl⟩
    · exact turn ⟨s.mem, s.src, ⟨true, s.enc.more⟩, rfl⟩
    · exact turn ⟨s.mem.append b, ⟨bs, s.src.errAt.map (· - 1)⟩, s.enc, rfl⟩

theorem encFinish_runsTo (s : State) :
    (encFinish s).Ends (fun _ t => RunsTo EncFrame .encLoop s t) (RunsTo EncFrame .encLoop s) := by
  rcases encFinish_cases s with ⟨_, h⟩ | ⟨_, _, h⟩ | ⟨_, _, h⟩ <;> rw [h]
  · exact .done (.refl s) _
  · exact .faults (.refl s) _ nofun
  · exact .done (.of_writer ⟨_, _, rfl⟩) _

theorem encPrime_runsTo (s : State) :
    (encPrime s).Ends (fun _ t => RunsTo EncFrame .encLoop s t) (RunsTo EncFrame .encLoop s) := by
  refine Res.Ends.bind ((primeLoop_frame Config.maxMatchSize s).mono (fun _ _ h => h) ?_) fun _ s1 h1 => ?_
  · rintro t ⟨u, hu, rfl⟩
    exact .faults (.of_intake hu) _ nofun
  · have h2 : EncFrame s (s1.setEnc ⟨s1.enc.eof, s1.mem.moreData⟩) :=
      (EncFrame.of_intake h1).trans (.of_intake ⟨s1.mem, s1.src, _, rfl⟩)
    dsimp only
    split
    · exact .goesOn h2 _
    · exact (encFinish_runsTo _).mono (fun _ _ h => .after .trans h2 h) (fun _ h => .after .trans h2 h)

/-- Both ways ENC.STEP covers plaintext, emission and advance, stay inside the encoder's frame. -/
theorem emitMatch_advance_frame (n : Nat) (s : State) :
    ((emitMatch s).bind fun _ s2 => advanceTimes n s2).Post (fun _ t => EncFrame s t)
      (RunsTo EncFrame .encLoop s) := by
  refine Res.Post.bind ((emitMatch_post s).post.mono (fun _ _ h => EncFrame.of_writer h) ?_) fun _ s1 h1 => ?_
  · rintro t ⟨w, k, rfl⟩
    exact .faults (.of_writer ⟨w, k, rfl⟩) _ nofun
  · refine (advanceTimes_post n s1).mono (fun _ _ h => h1.trans (.of_intake h)) ?_
    rintro t ⟨u, hu, rfl⟩
    exact .faults (h1.trans (.of_intake hu)) _ nofun

theorem emitLit_advance_frame (s : State) :
    ((emitLit s).bind fun _ s2 => encAdvance s2).Post (fun _ t => EncFrame s t) (RunsTo EncFrame .encLoop s) := by
  refine Res.Post.bind ((emitLit_post s).mono (fun _ _ h => EncFrame.of_writer h) ?_) fun _ s1 h1 => ?_
  · rintro t ⟨w, k, rfl⟩
    exact .faults (.of_writer ⟨w, k, rfl⟩) _ nofun
  · refine (encAdvance_post s1).mono (fun _ _ h => h1.trans (.of_intake h)) ?_
    rintro t ⟨u, hu, rfl⟩
    exact .faults (h1.trans (.of_intake hu)) _ nofun

theorem encStep_runsTo {s : State} (hp : s.phase = .encLoop) :
    (encStep s).Post (fun _ t => RunsTo EncFrame .encLoop s t) (RunsTo EncFrame .encLoop s) := by
  have h1 : EncFrame s (searchRef s) := .of_search s
  refine Res.Post.bind (P := fun _ t => EncFrame s t) ?_ fun _ s3 h3 => ?_
  · split
    · exact (emitMatch_advance_frame _ _).mono (fun _ _ h => h1.trans h) (fun _ h => .after .trans h1 h)
    · exact (emitLit_advance_frame _).mono (fun _ _ h => h1.trans h) (fun _ h => .after .trans h1 h)
  · split
    · exact ((encFinish_runsTo s3).mono (fun _ _ h => .after .trans h3 h) (fun _ h => .after .trans h3 h)).post
    · refine ⟨s3, h3, .inl ?_⟩
      rw [← hp, ← h3.phase, State.setPhase_self]

/-! ### The decoder -/

/-- What an operation of the decoder leaves alone until it ends: all but the reader, `REF`, the copy engine, the history
and the ports (10_state.md R20). -/
structure DecFrame (s t : State) : Prop where
  phase : t.phase = s.phase
  mode : t.mode = s.mode
  err : t.err = s.err
  wr : t.wr = s.wr
  enc : t.enc = s.enc
  look : t.mem.look = s.mem.look
  jobs : t.jobs = s.jobs
  host : t.host = s.host
  draws : t.draws = s.draws

theorem DecFrame.trans {s t u : State} (h : DecFrame s t) (h' : DecFrame t u) : DecFrame s u where
  phase := h'.phase.trans h.phase
  mode := h'.mode.trans h.mode
  err := h'.err.trans h.err
  wr := h'.wr.trans h.wr
  enc := h'.enc.trans h.enc
  look := h'.look.trans h.look
  jobs := h'.jobs.trans h.jobs
  host := h'.host.trans h.host
  draws := h'.draws.trans h.draws

theorem DecFrame.refl (s : State) : DecFrame s s := by
  constructor <;> rfl

theorem DecFrame.of_fetch {s t : State} (h : FetchFrame s t) : DecFrame s t := by
  obtain ⟨r, q, f, rfl⟩ := h
  constructor <;> rfl

theorem DecFrame.of_copy {s t : State} (h : CopyFrame s t) : DecFrame s t := by
  obtain ⟨c, m, k, rfl⟩ := h
  constructor <;> rfl

theorem DecFrame.of_ref (s : State) (f : Ref) : DecFrame s (s.setRef f) := by
  constructor <;> rfl

theorem DecFrame.of_copyStart (s : State) (c : CopyRegs) : DecFrame s (s.setCopy c) := by
  constructor <;> rfl

theorem DecFrame.of_push (s : State) (b : Byte) : DecFrame s (s.setMem (s.mem.push b)) := by
  constructor <;> rfl

theorem DecFrame.of_sink (s : State) (k : Sink) : DecFrame s (s.setSnk k) := by
  constructor <;> rfl

/-- A state the decoder reaches without leaving its loop. -/
theorem DecFrame.runsTo {s t : State} (h : DecFrame s t) (hp : s.phase = .decLoop) : RunsTo DecFrame .decLoop s t :=
  ⟨t, h, .inl (by rw [← hp, ← h.phase, State.setPhase_self])⟩

theorem execLit_runsTo {data : BitVec 8} {s t : State} (hp : s.phase = .decLoop) (ht : execLit data s = .next t) :
    RunsTo DecFrame .decLoop s t := by
  have hpush : DecFrame s (s.setMem (s.mem.push data)) := .of_push s data
  rcases execLit_cases data s with ⟨_, h⟩ | ⟨_, _, h⟩ | ⟨_, _, h⟩ <;> rw [h] at ht <;> cases ht
  · exact .done (.refl s) _
  · exact .faults hpush _ nofun
  · exact (hpush.trans (.of_sink _ _)).runsTo hp

/-- The copy of a match token and the exhaustion test after it (44_decoder.md R153). -/
theorem copyRange_runsTo (start n : Nat) {s : State} (hp : s.phase = .decLoop) :
    ((copyRange start n s).bind fun _ t => .ok () (if t.rd.exh then t.setPhase .done else t)).Post
      (fun _ t => RunsTo DecFrame .decLoop s t) (RunsTo DecFrame .decLoop s) := by
  have h1 : DecFrame s (s.setCopy ⟨start, n⟩) := .of_copyStart s _
  refine Res.Post.bind ((copyLoop_post n _).mono (fun _ _ h => h1.trans (.of_copy h)) ?_) fun _ u hu => ?_
  · rintro t ⟨u, hu, rfl⟩
    exact .faults (h1.trans (.of_copy hu)) _ nofun
  · split
    · exact RunsTo.done hu _
    · exact hu.runsTo hp

theorem execRef_runsTo {pos : BitVec 12} {len : BitVec 4} {s t : State} (hp : s.phase = .decLoop)
    (ht : execRef pos len s = .next t) : RunsTo DecFrame .decLoop s t := by
  have h1 : DecFrame s (s.setRef ⟨pos, len⟩) := .of_ref s _
  rcases execRef_cases pos len s with ⟨_, h⟩ | ⟨_, _, h⟩ | ⟨_, _, h⟩ <;> rw [h] at ht
  · cases ht
    exact .faults h1 _ nofun
  · cases ht
    exact .faults h1 _ nofun
  · have hp1 : (s.setRef ⟨pos, len⟩).phase = .decLoop := hp
    exact .after .trans h1 ((copyRange_runsTo pos.toNat len.toNat hp1).of_outcome ht)

/-- A token is executed as a literal or as a reference (44_decoder.md R152, R153). -/
theorem exec_of_isToken {i : Instr} (hi : i.isToken = true) (s : State) :
    (∃ data, exec i s = execLit data s) ∨ (∃ pos len, exec i s = execRef pos len s) := by
  cases i with
  | lit data => exact .inl ⟨data, rfl⟩
  | matchRef pos len => exact .inr ⟨pos, len, rfl⟩
  | matchLen0 pos => exact .inr ⟨pos, 0#4, rfl⟩
  | matchLen1 pos => exact .inr ⟨pos, 1#4, rfl⟩
  | matchLen2 pos => exact .inr ⟨pos, 2#4, rfl⟩
  | cmdEncode => cases hi
  | cmdDecode => cases hi

theorem decToken_runsTo {s t : State} (hp : s.phase = .decLoop) (ht : decToken s = .next t) :
    RunsTo DecFrame .decLoop s t := by
  rcases decToken_cases s with ⟨i, u, hu, hi, _, _, h⟩ | ⟨u, hu, h⟩
  · have hf : DecFrame s u := .of_fetch hu
    have hpu : u.phase = .decLoop := hf.phase.trans hp
    rw [h] at ht
    rcases exec_of_isToken hi u with ⟨data, he⟩ | ⟨pos, len, he⟩ <;> rw [he] at ht
    · exact .after .trans hf (execLit_runsTo hpu ht)
    · exact .after .trans hf (execRef_runsTo hpu ht)
  · rw [h] at ht
    cases ht
    exact .faults (.of_fetch hu) _ nofun

/-! ### A step of the sequencer -/

/-- Everything a step of the sequencer can do to a state, by phase. -/
theorem sequencerStep_cases {s t : State} (ht : sequencerStep s = .next t) :
    (s.busy = false ∧ t = s) ∨
    ((s.phase = .encPrime ∨ s.phase = .encLoop) ∧ RunsTo EncFrame .encLoop s t) ∨
    (s.phase = .decLoop ∧ RunsTo DecFrame .decLoop s t) := by
  cases hb : s.busy with
  | false =>
    rw [sequencerStep_of_not_busy hb] at ht
    cases ht
    exact .inl ⟨rfl, rfl⟩
  | true =>
    refine .inr ?_
    rcases s.busy_iff.mp hb with hp | hp | hp
    · rw [sequencerStep_of_encPrime hp] at ht
      exact .inl ⟨.inl hp, (encPrime_runsTo s).post.of_outcome ht⟩
    · rw [sequencerStep_of_encLoop hp] at ht
      exact .inl ⟨.inr hp, (encStep_runsTo hp).of_outcome ht⟩
    · rw [sequencerStep_of_decLoop hp] at ht
      exact .inr ⟨hp, decToken_runsTo hp ht⟩

/-- No step of the sequencer writes these, and it writes the error registers at fault entry only. -/
theorem sequencerStep_kept {s t : State} (ht : sequencerStep s = .next t) :
    t.mode = s.mode ∧ t.jobs = s.jobs ∧ t.host = s.host ∧ t.draws = s.draws ∧
      (t.err = s.err ∨ (s.busy = true ∧ t.phase = .fault ∧ t.err.code ≠ .none)) := by
  rcases sequencerStep_cases ht with ⟨_, rfl⟩ | ⟨hp, u, hu, hend⟩ | ⟨hp, u, hu, hend⟩
  · exact ⟨rfl, rfl, rfl, rfl, .inl rfl⟩
  · have hb : s.busy = true := s.busy_iff.mpr (hp.imp_right .inl)
    obtain ⟨hmode, -, -, -, -, hjobs, hhost, hdraws⟩ := hend.kept
    exact ⟨hmode.trans hu.mode, hjobs.trans hu.jobs, hhost.trans hu.host, hdraws.trans hu.draws,
      hend.err.imp (·.trans hu.err) fun h => ⟨hb, h⟩⟩
  · have hb : s.busy = true := s.busy_iff.mpr (.inr (.inr hp))
    obtain ⟨hmode, -, -, -, -, hjobs, hhost, hdraws⟩ := hend.kept
    exact ⟨hmode.trans hu.mode, hjobs.trans hu.jobs, hhost.trans hu.host, hdraws.trans hu.draws,
      hend.err.imp (·.trans hu.err) fun h => ⟨hb, h⟩⟩

end Sys2Proof.Machine
end

section
/-! The registers of the sequencer over one step: `PHASE`, `MODE`, the error registers, and the state of the other
sequencer (10_state.md R20, R22, R23, R25 to R27). -/

namespace Sys2Proof.Machine

/-- The phase after a step that belongs to the sequencer. -/
theorem step_phase_of_quiet {s t : State} (ht : step s = .next t) (hq : s.quiet) :
    (s.busy = false → t.phase = s.phase) ∧
    (s.phase = .encPrime ∨ s.phase = .encLoop → t.phase = .encLoop ∨ t.phase = .done ∨ t.phase = .fault) ∧
    (s.phase = .decLoop → t.phase = .decLoop ∨ t.phase = .done ∨ t.phase = .fault) := by
  rw [step_of_quiet hq] at ht
  rcases sequencerStep_cases ht with ⟨hb, rfl⟩ | ⟨hp, u, _, hend⟩ | ⟨hp, u, _, hend⟩
  · have hidle : ¬(s.phase = .encPrime ∨ s.phase = .encLoop ∨ s.phase = .decLoop) := by
      rw [← s.busy_iff]
      exact Bool.not_eq_true _ ▸ hb
    exact ⟨fun _ => rfl, fun h => (hidle (h.imp_right .inl)).elim, fun h => (hidle (.inr (.inr h))).elim⟩
  · have hp : s.phase = .encPrime ∨ s.phase = .encLoop := hp
    have hb : s.busy = true := s.busy_iff.mpr (hp.imp_right .inl)
    refine ⟨by simp [hb], fun _ => hend.phase, fun h => ?_⟩
    simp [h] at hp
  · have hp : s.phase = .decLoop := hp
    have hb : s.busy = true := s.busy_iff.mpr (.inr (.inr hp))
    refine ⟨by simp [hb], fun h => ?_, fun _ => hend.phase⟩
    simp [hp] at h

/-- Settles O47: `rst`, the two STARTs and the ignored START by their equations, a quiet step by how the sequencer's
operations end. -/
theorem phaseTransitionsAsListed : Obligations.PhaseTransitionsAsListed := by
  refine ⟨⟨rfl, rfl, rfl, rfl, rfl, rfl⟩, fun s t ht => ⟨fun hr => ?_, fun ha hm => ?_, fun ha hm => ?_,
    fun hr hs hb => ?_, fun hq => (step_phase_of_quiet ht hq).1, fun hq hp => (step_phase_of_quiet ht hq).2.1 (.inl hp),
    fun hq hp => (step_phase_of_quiet ht hq).2.1 (.inr hp), fun hq => (step_phase_of_quiet ht hq).2.2⟩⟩
  · obtain ⟨k, hk⟩ := Option.ne_none_iff_exists'.mp hr
    rw [step_of_rst hk] at ht
    cases ht
    rfl
  · rw [step_of_accepts_encode ha hm] at ht
    cases ht
    rfl
  · rw [step_of_accepts_decode ha hm] at ht
    cases ht
    rfl
  · rw [step_of_ignored_start hr hs hb] at ht
    cases ht
    rfl

/-- What a step keeps when it neither resets the block nor accepts a START. -/
theorem step_kept_of_not_accepts {s t : State} (ht : step s = .next t) (hr : s.pins.rst = none) (ha : ¬s.accepts) :
    t.mode = s.mode ∧ (t.err = s.err ∨ (s.busy = true ∧ t.phase = .fault ∧ t.err.code ≠ .none)) := by
  rcases ignored_or_quiet_of_not_accepts hr ha with ⟨hs, hb⟩ | hq
  · rw [step_of_ignored_start hr hs hb] at ht
    cases ht
    exact ⟨rfl, .inl rfl⟩
  · rw [step_of_quiet hq] at ht
    obtain ⟨hmode, -, -, -, herr⟩ := sequencerStep_kept ht
    exact ⟨hmode, herr⟩

/-- What an accepted START makes of `MODE` and of the error registers. -/
theorem step_of_accepts {s t : State} (ht : step s = .next t) (ha : s.accepts) :
    t.mode.bit = s.pins.cmdMode ∧ t.err = ⟨.none, 0, 0, 0⟩ := by
  rcases cmdMode_cases s.pins.cmdMode with hm | hm
  · rw [step_of_accepts_encode ha hm] at ht
    cases ht
    exact ⟨hm.symm, rfl⟩
  · rw [step_of_accepts_decode ha hm] at ht
    cases ht
    exact ⟨hm.symm, rfl⟩

/-- Settles O48: only START writes `MODE`. -/
theorem modeIsWrittenByStartOnly : Obligations.ModeIsWrittenByStartOnly := fun _ _ ht hr =>
  ⟨fun ha => (step_of_accepts ht ha).1, fun ha => (step_kept_of_not_accepts ht hr ha).1⟩

/-- Settles O49: `rst` and START clear the error registers, and of the sequencer's endings only fault entry writes
them. -/
theorem errorRegistersAreHeld : Obligations.ErrorRegistersAreHeld := by
  refine fun s t ht => ⟨?_, fun hr ha => (step_kept_of_not_accepts ht hr ha).2⟩
  rintro (hr | ha)
  · obtain ⟨k, hk⟩ := Option.ne_none_iff_exists'.mp hr
    rw [step_of_rst hk] at ht
    cases ht
    rfl
  · exact (step_of_accepts ht ha).2

/-- Settles O52: each sequencer stays inside its own frame, and fault entry in a DECODE session flushes nothing. -/
theorem sequencersStayApart : Obligations.SequencersStayApart := by
  intro s t ht hq
  rw [step_of_quiet hq] at ht
  obtain ⟨-, hjobs, hhost, hdraws, -⟩ := sequencerStep_kept ht
  refine ⟨fun hp hm => ?_, fun hp => ?_, hjobs, hhost, hdraws⟩
  · rw [sequencerStep_of_decLoop (s := s.popHost) hp] at ht
    obtain ⟨u, hu, hend⟩ := decToken_runsTo (s := s.popHost) hp ht
    obtain ⟨-, -, henc, -, hmem, -⟩ := hend.kept
    exact ⟨hmem ▸ hu.look, (hend.wr_of_decode (hu.mode.trans hm)).trans hu.wr, henc.trans hu.enc⟩
  · rcases sequencerStep_cases ht with ⟨_, rfl⟩ | ⟨_, u, hu, hend⟩ | ⟨hd, _⟩
    · exact ⟨rfl, rfl⟩
    · obtain ⟨-, hrd, -, hcopy, -⟩ := hend.kept
      exact ⟨hrd.trans hu.rd, hcopy.trans hu.copy⟩
    · have hd : s.phase = .decLoop := hd
      simp [hd] at hp

end Sys2Proof.Machine
end

section
/-! The parts of the invariant that hold in the midst of an operation, whatever the phase, and the states an operation
may end in (10_state.md R28, R29, R35; 60_exceptions.md R178). -/

namespace Sys2Proof.Machine

theorem Memory.wf_empty : Memory.wf ⟨[], []⟩ := ⟨Nat.zero_le _, Nat.zero_le _⟩

theorem Writer.wf_empty : Writer.wf ⟨0, 0⟩ := ⟨Nat.zero_le _, rfl⟩

theorem Reader.wf_empty : Reader.wf ⟨0, 0, false, 0⟩ := ⟨Nat.zero_le _, rfl, nofun⟩

/-- The clauses of `State.Inv` that do not speak of the phase: they hold at every point of an operation. -/
structure State.Sound (s : State) : Prop where
  memory : s.mem.wf
  reader : s.rd.wf
  copyRange : s.copy.idx < Config.dictionarySize ∧ s.copy.rem ≤ Config.maxMatchSize
  encodeReader : s.mode = .encode → s.rd = ⟨0, 0, false, 0⟩
  decodeWriter : s.mode = .decode → s.wr = ⟨0, 0⟩ ∧ s.mem.look = [] ∧ s.enc = ⟨false, false⟩
  exhausted : s.rd.exh = true ∨ s.enc.eof = true → s.src.bytes = []

theorem State.Inv.sound {s : State} (h : s.Inv) : s.Sound where
  memory := h.memory
  reader := h.reader
  copyRange := h.copyRange
  encodeReader := h.encodeReader
  decodeWriter := h.decodeWriter
  exhausted := h.exhausted

/-- Fault entry ends in a good state from wherever an operation has come to. -/
theorem State.Sound.faultEntry_inv {s : State} (h : s.Sound) {code : ErrCode} (hc : code ≠ .none) :
    (faultEntry code s).Inv where
  memory := by simpa using h.memory
  writer := fun hp => (hp rfl).elim
  reader := by simpa using h.reader
  copyRange := by simpa using h.copyRange
  errClear := fun hp => (hp rfl).elim
  errSet := fun _ => by
    rw [faultEntry_err]
    split <;> exact hc
  encodeMode := by simp
  decodeMode := by simp
  encodeReader := by simpa using h.encodeReader
  decodeWriter := fun hm => by
    rw [faultEntry_mode] at hm
    rw [(faultEntry_of_decode hm).1, faultEntry_mem, faultEntry_enc]
    exact h.decodeWriter hm
  primed := by simp
  encLoop := by simp
  decLoop := by simp
  exhausted := by simpa using h.exhausted

/-- The end of a session without a fault. -/
theorem State.Sound.done_inv {s : State} (h : s.Sound) (hw : s.wr.wf) (he : s.err = ⟨.none, 0, 0, 0⟩) :
    (s.setPhase .done).Inv where
  memory := h.memory
  writer := fun _ => hw
  reader := h.reader
  copyRange := h.copyRange
  errClear := fun _ => he
  errSet := by simp
  encodeMode := by simp
  decodeMode := by simp
  encodeReader := h.encodeReader
  decodeWriter := h.decodeWriter
  primed := by simp
  encLoop := by simp
  decLoop := by simp
  exhausted := h.exhausted

/-- The invariant does not speak of what the host drives. -/
theorem State.Inv.popHost {s : State} (h : s.Inv) : s.popHost.Inv where
  memory := h.memory
  writer := h.writer
  reader := h.reader
  copyRange := h.copyRange
  errClear := h.errClear
  errSet := h.errSet
  encodeMode := h.encodeMode
  decodeMode := h.decodeMode
  encodeReader := h.encodeReader
  decodeWriter := h.decodeWriter
  primed := h.primed
  encLoop := h.encLoop
  decLoop := h.decLoop
  exhausted := h.exhausted

/-- The values drawn for the copy engine lie in its ranges (R35, R43). -/
theorem drawn_copyRange (n : Nat) :
    (Config.freeCopyIdx n).val < Config.dictionarySize ∧ (Config.freeCopyRem n).val ≤ Config.maxMatchSize :=
  ⟨(Config.freeCopyIdx n).isLt, Nat.le_of_lt_succ (Config.freeCopyRem n).isLt⟩

/-- Where a session begins (43_encoder.md R130, 44_decoder.md R150). -/
theorem startSession_inv {m : Mode} {p : Phase} (hmp : m = .encode ∧ p = .encPrime ∨ m = .decode ∧ p = .decLoop)
    (s : State) : (startSession m p s).Inv := by
  rcases hmp with ⟨rfl, rfl⟩ | ⟨rfl, rfl⟩
  all_goals
    constructor
    case memory => exact Memory.wf_empty
    case writer => exact fun _ => Writer.wf_empty
    case reader => exact Reader.wf_empty
    case copyRange => exact drawn_copyRange s.draws
    all_goals simp [lastBytes]

/-- After `rst` nothing is in progress (70_reset_and_hazards.md R190). -/
theorem applyRst_inv (a : List Byte) (s : State) : (applyRst a s).Inv := by
  constructor
  case memory => exact Memory.wf_empty
  case writer => exact fun _ => Writer.wf_empty
  case reader => exact Reader.wf_empty
  case copyRange => exact drawn_copyRange s.draws
  all_goals simp

end Sys2Proof.Machine
end

section
/-! The encoder keeps the invariant: what holds inside ENC.PRIME and ENC.STEP, and that each of their parts keeps it
(40_bitstream_writer.md R91, R92; 43_encoder.md R131 to R137). -/

namespace Sys2Proof.Machine

/-! ### The writer's representation -/

/-- The bit placed next lies above the zeros that remain (R91). -/
theorem assignBit_shiftLeft {acc : BitVec 8} {n : Nat} (hn : n < 7) (hz : acc <<< n = 0#8) (b : Bool) :
    assignBit acc (7 - n) b <<< (n + 1) = 0#8 := by
  refine BitVec.eq_of_getLsbD_eq fun i hi => ?_
  by_cases hin : i < n + 1
  · simp [BitVec.getLsbD_shiftLeft, hin]
  · have hbit : acc.getLsbD (i - (n + 1)) = false := by
      have := congrArg (BitVec.getLsbD · (i - 1)) hz
      have hlt : i - 1 < 8 := by omega
      have hge : ¬i - 1 < n := by omega
      have hsub : i - 1 - n = i - (n + 1) := by omega
      simpa [-BitVec.getLsbD_eq_getElem, BitVec.getLsbD_shiftLeft, hlt, hge, hsub] using this
    have hne : i - (n + 1) < 7 - n := by omega
    cases b <;> simp [assignBit, BitVec.getLsbD_shiftLeft, hbit, hne]

/-- A bit that does not complete a byte keeps the writer well-formed. -/
theorem Writer.wf_assignBit {w : Writer} (h : w.wf) (hn : w.n ≠ 7) (b : Bool) :
    Writer.wf ⟨assignBit w.acc (7 - w.n) b, w.n + 1⟩ := by
  obtain ⟨hle, hz⟩ := h
  have hlt : w.n < 7 := by omega
  exact ⟨hlt, assignBit_shiftLeft hlt hz b⟩

/-! ### Inside an operation of the encoder -/

/-- What holds at every point of ENC.PRIME and ENC.STEP. -/
structure State.Encoding (s : State) : Prop where
  sound : s.Sound
  mode : s.mode = .encode
  writer : s.wr.wf
  err : s.err = ⟨.none, 0, 0, 0⟩

/-- What holds besides in ENC.STEP: the clause of the invariant for ENC_LOOP, with the end of the data allowed for
(R137). -/
structure State.InEncLoop (s : State) : Prop extends s.Encoding where
  phase : s.phase = .encLoop
  full : s.enc.eof = false → s.mem.look.length = Config.maxMatchSize
  more : s.enc.more = s.mem.moreData

theorem Memory.moreData_iff (m : Memory) : m.moreData = true ↔ m.look ≠ [] := by
  simp [Memory.moreData, List.length_pos_iff]

theorem State.Inv.inEncLoop {s : State} (h : s.Inv) (hp : s.phase = .encLoop) : s.InEncLoop where
  sound := h.sound
  mode := h.encodeMode (.inr hp)
  writer := h.writer (by simp [hp])
  err := h.errClear (by simp [hp])
  phase := hp
  full := (h.encLoop hp).2.2
  more := by
    obtain ⟨hmore, hlook, _⟩ := h.encLoop hp
    rw [hmore, (Memory.moreData_iff _).mpr hlook]

/-- While data is left the encoder goes on in a good state. -/
theorem State.InEncLoop.inv {s : State} (h : s.InEncLoop) (hm : s.enc.more = true) : s.Inv where
  memory := h.sound.memory
  writer := fun _ => h.writer
  reader := h.sound.reader
  copyRange := h.sound.copyRange
  errClear := fun _ => h.err
  errSet := by simp [h.phase]
  encodeMode := fun _ => h.mode
  decodeMode := by simp [h.phase]
  encodeReader := h.sound.encodeReader
  decodeWriter := h.sound.decodeWriter
  primed := by simp [h.phase]
  encLoop := fun _ => ⟨hm, (Memory.moreData_iff _).mp (h.more ▸ hm), h.full⟩
  decLoop := by simp [h.phase]
  exhausted := h.sound.exhausted

/-- An ENCODE session does not depend on the writer or the sink for soundness. -/
theorem State.Encoding.sound_of_writer {s : State} (h : s.Encoding) (w : Writer) (k : Sink) :
    ((s.setWr w).setSnk k).Sound where
  memory := h.sound.memory
  reader := h.sound.reader
  copyRange := h.sound.copyRange
  encodeReader := h.sound.encodeReader
  decodeWriter := by simp [h.mode]
  exhausted := h.sound.exhausted

theorem State.InEncLoop.writes {s : State} (h : s.InEncLoop) {w : Writer} (hw : w.wf) (k : Sink) :
    ((s.setWr w).setSnk k).InEncLoop where
  sound := h.sound_of_writer w k
  mode := h.mode
  writer := hw
  err := h.err
  phase := h.phase
  full := h.full
  more := h.more

/-- Plaintext moves: the memories, the source and the flags change together, and `E.eof` is set only when the source is
used up (R131, R135). -/
theorem State.Encoding.intake {s : State} (h : s.Encoding) {m : Memory} {q : Source} {e : EncFlags} (hm : m.wf)
    (he : e.eof = true → q.bytes = []) : (((s.setMem m).setSrc q).setEnc e).Encoding where
  sound :=
    { memory := hm
      reader := h.sound.reader
      copyRange := h.sound.copyRange
      encodeReader := h.sound.encodeReader
      decodeWriter := by simp [h.mode]
      exhausted := by simpa [h.sound.encodeReader h.mode] using he }
  mode := h.mode
  writer := h.writer
  err := h.err

theorem State.Encoding.sound_of_memory {s : State} (h : s.Encoding) {m : Memory} (hm : m.wf) : (s.setMem m).Sound :=
  (h.intake (q := s.src) (e := s.enc) hm fun he => h.sound.exhausted (.inr he)).sound

theorem State.InEncLoop.searchRef {s : State} (h : s.InEncLoop) : (searchRef s).InEncLoop where
  sound :=
    { memory := h.sound.memory
      reader := h.sound.reader
      copyRange := h.sound.copyRange
      encodeReader := h.sound.encodeReader
      decodeWriter := h.sound.decodeWriter
      exhausted := h.sound.exhausted }
  mode := h.mode
  writer := h.writer
  err := h.err
  phase := h.phase
  full := h.full
  more := h.more

/-! ### The writer's operations -/

theorem writeBit_inEncLoop (b : Bool) {s : State} (h : s.InEncLoop) :
    (writeBit b s).Ends (fun _ t => t.InEncLoop) State.Inv := by
  rcases writeBit_cases b s with ⟨hn, hw⟩ | ⟨_, _, hw⟩ | ⟨_, _, hw⟩ <;> rw [hw]
  · exact h.writes (Writer.wf_assignBit h.writer hn b) s.snk
  · exact (h.sound_of_writer ⟨assignBit s.wr.acc 0 b, 8⟩ s.snk).faultEntry_inv (code := .ioSnk) nofun
  · exact h.writes Writer.wf_empty _

theorem writeBits_inEncLoop (value : BitVec 16) (n : Nat) {s : State} (h : s.InEncLoop) :
    (writeBits value n s).Ends (fun _ t => t.InEncLoop) State.Inv := by
  induction n generalizing s with
  | zero => exact h
  | succ k ih => exact Res.Ends.bind (writeBit_inEncLoop _ h) fun _ _ h1 => ih h1

theorem emitMatch_inEncLoop {s : State} (h : s.InEncLoop) :
    (emitMatch s).Ends (fun _ t => t.InEncLoop) State.Inv :=
  Res.Ends.bind (writeBits_inEncLoop _ 1 h) fun _ _ h1 => writeBits_inEncLoop _ 16 h1

theorem emitLit_inEncLoop {s : State} (h : s.InEncLoop) : (emitLit s).Post (fun _ t => t.InEncLoop) State.Inv := by
  refine Res.Post.bind (writeBits_inEncLoop _ 1 h).post fun _ s1 h1 => ?_
  rcases laByteAt_cases 0 s1 with ⟨b, _, hb⟩ | ⟨_, hb⟩ <;> rw [hb]
  · exact (writeBits_inEncLoop _ 8 h1).post
  · trivial

/-- ENC.FINISH ends in a good state (R136). -/
theorem encFinish_inv {s : State} (h : s.Encoding) : (encFinish s).Ends (fun _ t => t.Inv) State.Inv := by
  rcases encFinish_cases s with ⟨_, hf⟩ | ⟨_, _, hf⟩ | ⟨_, _, hf⟩ <;> rw [hf]
  · exact h.sound.done_inv h.writer h.err
  · exact h.sound.faultEntry_inv nofun
  · exact (h.sound_of_writer ⟨0, 0⟩ _).done_inv Writer.wf_empty h.err

/-! ### The plaintext side -/

/-- An advance takes a byte into the full lookahead, or finds the source used up and lets it shrink (R135, R137). -/
theorem encAdvance_inEncLoop {s : State} (h : s.InEncLoop) :
    (encAdvance s).Post (fun _ t => t.InEncLoop) State.Inv := by
  rcases encAdvance_cases s with ⟨_, ha⟩ | ⟨b, _, _, _, _, ha⟩ | ⟨b, l, hl, hend, ha⟩ | ⟨b, _, c, _, _, he, _, _, ha⟩ <;>
    rw [ha]
  · trivial
  · exact (h.sound_of_memory (Memory.push_wf b h.sound.memory)).faultEntry_inv nofun
  · have hm : Memory.wf ⟨(s.mem.push b).hist, l⟩ := by
      obtain ⟨hhist, hlook⟩ := Memory.push_wf b h.sound.memory
      rw [Memory.push_look, hl] at hlook
      exact ⟨hhist, Nat.le_of_succ_le hlook⟩
    have hsrc : s.src.bytes = [] := by
      cases heof : s.enc.eof with
      | true => exact h.sound.exhausted (.inr heof)
      | false => exact (hend heof).2
    exact { h.intake (q := s.src) hm fun _ => hsrc with
      phase := h.phase
      full := nofun
      more := rfl }
  · have hfull : ((s.mem.push b).append c).look.length = Config.maxMatchSize := by
      have hlook : (s.mem.push b).look.length = Config.maxMatchSize := h.full he
      rw [Memory.append_look_of_full c hlook]
      simp [h.full he]
    exact { h.intake (Memory.append_wf c (Memory.push_wf b h.sound.memory)) (e := ⟨false, true⟩) nofun with
      phase := h.phase
      full := fun _ => hfull
      more := (decide_eq_true (hfull ▸ Nat.succ_pos 14)).symm }

theorem advanceTimes_inEncLoop (n : Nat) {s : State} (h : s.InEncLoop) :
    (advanceTimes n s).Post (fun _ t => t.InEncLoop) State.Inv := by
  induction n generalizing s with
  | zero => exact h
  | succ k ih => exact Res.Post.bind (encAdvance_inEncLoop h) fun _ _ h1 => ih h1

/-- The loop of ENC.PRIME, with fuel for what the lookahead lacks, fills it or ends the source (R131). -/
theorem primeLoop_encoding (n : Nat) {s : State} (h : s.Encoding)
    (hfuel : s.enc.eof = false → Config.maxMatchSize ≤ s.mem.look.length + n) :
    (primeLoop n s).Ends
      (fun _ t => t.Encoding ∧ (t.enc.eof = false → t.mem.look.length = Config.maxMatchSize)) State.Inv := by
  have hcap : s.mem.look.length ≤ Config.maxMatchSize := h.sound.memory.2
  induction n generalizing s with
  | zero => exact ⟨h, fun he => Nat.le_antisymm hcap (hfuel he)⟩
  | succ k ih =>
    rcases primeLoop_succ k s with ⟨hstop, hl⟩ | ⟨hlt, he, ⟨_, hl⟩ | ⟨_, hb, hl⟩ | ⟨b, bs, _, _, hl⟩⟩ <;> rw [hl]
    · exact ⟨h, fun he => Nat.le_antisymm hcap (Nat.le_of_not_lt fun hlt => hstop ⟨hlt, he⟩)⟩
    · exact h.sound.faultEntry_inv nofun
    · exact ih (h.intake (m := s.mem) (q := s.src) h.sound.memory fun _ => hb) nofun hcap
    · have hm : (s.mem.append b).wf := Memory.append_wf b h.sound.memory
      refine ih (h.intake (e := s.enc) hm (by simp [he])) (fun _ => ?_) hm.2
      have hlen : (s.mem.append b).look.length = s.mem.look.length + 1 := by
        simp [Memory.append_look_of_lt b hlt]
      change Config.maxMatchSize ≤ (s.mem.append b).look.length + k
      have := hfuel he
      omega

/-! ### The two operations -/

/-- ENC.PRIME leads into ENC_LOOP with data, or finishes without (R131). -/
theorem encPrime_inv {s : State} (h : s.Encoding) : (encPrime s).Ends (fun _ t => t.Inv) State.Inv := by
  refine Res.Ends.bind (primeLoop_encoding _ h fun _ => Nat.le_add_left _ _) fun _ s1 ⟨h1, hfull⟩ => ?_
  have h2 : (s1.setEnc ⟨s1.enc.eof, s1.mem.moreData⟩).Encoding :=
    h1.intake (m := s1.mem) (q := s1.src) h1.sound.memory fun he => h1.sound.exhausted (.inr he)
  dsimp only
  split
  case isTrue hmore =>
    have h3 : ((s1.setEnc ⟨s1.enc.eof, s1.mem.moreData⟩).setPhase .encLoop).InEncLoop :=
      { sound := { h2.sound with }
        mode := h2.mode
        writer := h2.writer
        err := h2.err
        phase := rfl
        full := hfull
        more := rfl }
    exact h3.inv hmore
  case isFalse => exact encFinish_inv h2

/-- ENC.STEP goes on while data is left and finishes otherwise (R132). -/
theorem encStep_inv {s : State} (h : s.InEncLoop) : (encStep s).Post (fun _ t => t.Inv) State.Inv := by
  refine Res.Post.bind (P := fun _ t => t.InEncLoop) ?_ fun _ s3 h3 => ?_
  · split
    · exact Res.Post.bind (emitMatch_inEncLoop h.searchRef).post fun _ _ h2 => advanceTimes_inEncLoop _ h2
    · exact Res.Post.bind (emitLit_inEncLoop h.searchRef) fun _ _ h2 => encAdvance_inEncLoop h2
  · split
    case isTrue => exact (encFinish_inv h3.toEncoding).post
    case isFalse hmore => exact h3.inv (Bool.not_eq_false _ ▸ hmore)

end Sys2Proof.Machine
end

section
/-! The decoder keeps the invariant: what holds inside DEC.TOKEN, and that each of its parts keeps it
(41_bitstream_reader.md R100, R101; 42_history_matchfinder.md R110, R112; 44_decoder.md R151 to R153, R158). -/

namespace Sys2Proof.Machine

/-! ### The reader's and the history's representation -/

/-- A bit taken from those held leaves the rest in the high positions (R29, R101). -/
theorem Reader.wf_takeBit {r : Reader} (h : r.wf) (hn : 0 < r.n) :
    Reader.wf ⟨r.cur <<< 1, r.n - 1, r.exh, r.fetched⟩ := by
  obtain ⟨hle, hz, hx⟩ := h
  refine ⟨Nat.le_trans (Nat.sub_le _ _) hle, ?_, fun he => ?_⟩
  · change r.cur <<< 1 <<< (r.n - 1) = 0#8
    rw [← BitVec.shiftLeft_add, Nat.add_sub_cancel' hn]
    exact hz
  · rw [hx he] at hn
    exact absurd hn (Nat.lt_irrefl 0)

/-- A byte fetched fills the reader (R100). -/
theorem Reader.wf_fetched (b : Byte) (k : BitVec 32) : Reader.wf ⟨b, 8, false, k⟩ :=
  ⟨Nat.le_refl 8, BitVec.shiftLeft_eq_zero (Nat.le_refl 8), nofun⟩

/-- The exhausted reader holds nothing (R100). -/
theorem Reader.wf_exhausted (k : BitVec 32) : Reader.wf ⟨0, 0, true, k⟩ := ⟨Nat.zero_le 8, rfl, fun _ => rfl⟩

/-- Appending to the newest `n` bytes and evicting gives the newest `n` of the longer sequence (20_memory.md R52). -/
theorem evict_lastBytes (n : Nat) (l : List Byte) (b : Byte) :
    evict n (lastBytes n l ++ [b]) = lastBytes n (l ++ [b]) := by
  unfold lastBytes
  rcases Nat.lt_or_ge l.length n with hl | hl
  · have h0 : l.length - n = 0 := by omega
    have h1 : (l ++ [b]).length - n = 0 := by simp; omega
    rw [h0, h1, List.drop_zero, List.drop_zero, evict_of_le (by simpa using hl)]
  · have h1 : (l ++ [b]).length - n = (l.length - n) + 1 := by simp; omega
    rw [evict_of_lt (by simp; omega), h1, ← List.drop_one, ← List.drop_append_of_le_length (Nat.sub_le _ _),
      List.drop_drop]

/-! ### Inside an operation of the decoder -/

/-- What holds at every point of DEC.TOKEN: the clause of the invariant for DEC_LOOP, with exhaustion allowed for
(R158). -/
structure State.Decoding (s : State) : Prop where
  sound : s.Sound
  phase : s.phase = .decLoop
  mode : s.mode = .decode
  err : s.err = ⟨.none, 0, 0, 0⟩
  hist : s.mem.hist = lastBytes Config.dictionarySize s.snk.out

theorem State.Inv.decoding {s : State} (h : s.Inv) (hp : s.phase = .decLoop) : s.Decoding where
  sound := h.sound
  phase := hp
  mode := h.decodeMode hp
  err := h.errClear (by simp [hp])
  hist := (h.decLoop hp).2

/-- Before exhaustion the decoder goes on in a good state. -/
theorem State.Decoding.inv {s : State} (h : s.Decoding) (hx : s.rd.exh = false) : s.Inv where
  memory := h.sound.memory
  writer := fun _ => (h.sound.decodeWriter h.mode).1 ▸ Writer.wf_empty
  reader := h.sound.reader
  copyRange := h.sound.copyRange
  errClear := fun _ => h.err
  errSet := by simp [h.phase]
  encodeMode := by simp [h.phase]
  decodeMode := fun _ => h.mode
  encodeReader := h.sound.encodeReader
  decodeWriter := h.sound.decodeWriter
  primed := by simp [h.phase]
  encLoop := by simp [h.phase]
  decLoop := fun _ => ⟨hx, h.hist⟩
  exhausted := h.sound.exhausted

/-- After exhaustion it ends in one. -/
theorem State.Decoding.done_inv {s : State} (h : s.Decoding) : (s.setPhase .done).Inv :=
  h.sound.done_inv ((h.sound.decodeWriter h.mode).1 ▸ Writer.wf_empty) h.err

/-- The stream is read: the reader and the source change together, and exhaustion is signalled only when the source is
used up (R100, R101). -/
theorem State.Decoding.reads {s : State} (h : s.Decoding) {r : Reader} {q : Source} (hr : r.wf)
    (hx : r.exh = true → q.bytes = []) : ((s.setRd r).setSrc q).Decoding where
  sound :=
    { memory := h.sound.memory
      reader := hr
      copyRange := h.sound.copyRange
      encodeReader := by simp [h.mode]
      decodeWriter := h.sound.decodeWriter
      exhausted := by simpa [(h.sound.decodeWriter h.mode).2.2] using hx }
  phase := h.phase
  mode := h.mode
  err := h.err
  hist := h.hist

theorem State.Decoding.setRef {s : State} (h : s.Decoding) (f : Ref) : (s.setRef f).Decoding where
  sound := { h.sound with }
  phase := h.phase
  mode := h.mode
  err := h.err
  hist := h.hist

/-- A start of the copy engine within its ranges (R35). -/
theorem State.Decoding.setCopy {s : State} (h : s.Decoding) {c : CopyRegs}
    (hc : c.idx < Config.dictionarySize ∧ c.rem ≤ Config.maxMatchSize) : (s.setCopy c).Decoding where
  sound := { h.sound with copyRange := hc }
  phase := h.phase
  mode := h.mode
  err := h.err
  hist := h.hist

theorem State.Decoding.sound_of_push {s : State} (h : s.Decoding) (b : Byte) : (s.setMem (s.mem.push b)).Sound :=
  { h.sound with memory := Memory.push_wf b h.sound.memory }

/-- A byte goes into the history and to the sink (R52, R112, R152). -/
theorem State.Decoding.puts {s : State} (h : s.Decoding) (b : Byte) (failAfter : Option Nat) :
    ((s.setMem (s.mem.push b)).setSnk ⟨s.snk.out ++ [b], failAfter⟩).Decoding where
  sound := { h.sound_of_push b with }
  phase := h.phase
  mode := h.mode
  err := h.err
  hist := by
    change evict Config.dictionarySize (s.mem.hist ++ [b]) = _
    rw [h.hist]
    exact evict_lastBytes _ _ _

/-! ### The fetch of a token -/

theorem takeBit_decoding {s : State} (h : s.Decoding) : (takeBit s).2.Decoding := by
  unfold takeBit
  split
  case isTrue hn =>
    exact h.reads (q := s.src) (Reader.wf_takeBit h.sound.reader hn) fun hx => h.sound.exhausted (.inl hx)
  case isFalse => exact h

theorem fetchByte_decoding {s : State} (h : s.Decoding) (hx : s.rd.exh = false) :
    (fetchByte s).Ends (fun _ t => t.Decoding) State.Inv := by
  rcases fetchByte_cases s with ⟨_, hf⟩ | ⟨_, hb, hf⟩ | ⟨b, bs, _, _, hf⟩ <;> rw [hf]
  · exact h.sound.faultEntry_inv nofun
  · exact h.reads (q := s.src) (Reader.wf_exhausted _) fun _ => hb
  · rw [hx]
    exact h.reads (Reader.wf_fetched b _) nofun

theorem readBit_decoding {s : State} (h : s.Decoding) : (readBit s).Ends (fun _ t => t.Decoding) State.Inv := by
  refine Res.Ends.bind (P := fun _ t => t.Decoding) ?_ fun _ _ h1 => takeBit_decoding h1
  split
  case isTrue hc => exact fetchByte_decoding h hc.2
  case isFalse => exact h

theorem readBitsFrom_decoding (v : BitVec 16) (n : Nat) {s : State} (h : s.Decoding) :
    (readBitsFrom v n s).Ends (fun _ t => t.Decoding) State.Inv := by
  induction n generalizing s v with
  | zero => exact h
  | succ k ih => exact Res.Ends.bind (readBit_decoding h) fun _ _ h1 => ih _ h1

theorem readBits_decoding (n : Nat) {s : State} (h : s.Decoding) :
    (readBits n s).Ends (fun _ t => t.Decoding) State.Inv := readBitsFrom_decoding _ n h

theorem fetchToken_decoding {s : State} (h : s.Decoding) :
    (fetchToken s).Ends (fun _ t => t.Decoding) State.Inv := by
  refine Res.Ends.bind (P := fun _ t => t.Decoding) (Res.Ends.bind (readBits_decoding 1 h) fun _ _ h1 => h1)
    fun flag s1 h1 => ?_
  cases flag with
  | true =>
    refine Res.Ends.bind (P := fun _ t => t.Decoding)
      (Res.Ends.bind (readBits_decoding 12 h1) fun _ _ h2 => h2.setRef _) fun _ _ h2 => ?_
    exact Res.Ends.bind (P := fun _ t => t.Decoding)
      (Res.Ends.bind (readBits_decoding 4 h2) fun _ _ h3 => h3.setRef _) fun _ _ h3 => h3
  | false =>
    exact Res.Ends.bind (P := fun _ t => t.Decoding)
      (Res.Ends.bind (readBits_decoding 8 h1) fun _ _ h2 => h2) fun _ _ h2 => h2

/-! ### The tokens -/

/-- The index stays inside the history: it moves only when the history has grown (R112, R113). -/
theorem copyByte_decoding {s : State} (h : s.Decoding) : (copyByte s).Post (fun _ t => t.Decoding) State.Inv := by
  rcases copyByte_cases s with ⟨_, hc⟩ | ⟨b, _, _, hc⟩ | ⟨b, hb, _, hc⟩ <;> rw [hc]
  · trivial
  · exact (h.sound_of_push b).faultEntry_inv nofun
  · have hidx : s.copy.idx < s.mem.hist.length := (List.getElem?_eq_some_iff.mp hb).1
    have hcap : s.mem.hist.length ≤ Config.dictionarySize := h.sound.memory.1
    refine (h.puts b _).setCopy ⟨?_, Nat.le_trans (Nat.sub_le _ _) h.sound.copyRange.2⟩
    dsimp only
    split
    case isTrue => exact h.sound.copyRange.1
    case isFalse hfull => omega

theorem copyLoop_decoding (n : Nat) {s : State} (h : s.Decoding) :
    (copyLoop n s).Post (fun _ t => t.Decoding) State.Inv := by
  induction n generalizing s with
  | zero => exact h
  | succ k ih => exact Res.Post.bind (copyByte_decoding h) fun _ _ h1 => ih h1

theorem execLit_inv {data : BitVec 8} {s t : State} (h : s.Decoding) (ht : execLit data s = .next t) : t.Inv := by
  rcases execLit_cases data s with ⟨_, he⟩ | ⟨_, _, he⟩ | ⟨hx, _, he⟩ <;> rw [he] at ht <;> cases ht
  · exact h.done_inv
  · exact (h.sound_of_push data).faultEntry_inv nofun
  · exact (h.puts data _).inv hx

theorem execRef_inv {pos : BitVec 12} {len : BitVec 4} {s t : State} (h : s.Decoding)
    (ht : execRef pos len s = .next t) : t.Inv := by
  have h1 : (s.setRef ⟨pos, len⟩).Decoding := h.setRef _
  rcases execRef_cases pos len s with ⟨_, he⟩ | ⟨_, _, he⟩ | ⟨_, hpos, he⟩ <;> rw [he] at ht
  · cases ht
    exact h1.sound.faultEntry_inv nofun
  · cases ht
    exact h1.sound.faultEntry_inv nofun
  · have hstart : pos.toNat < Config.dictionarySize ∧ len.toNat ≤ Config.maxMatchSize :=
      ⟨Nat.lt_of_lt_of_le hpos h.sound.memory.1, Nat.le_of_lt_succ len.isLt⟩
    have hcopy : ((copyRange pos.toNat len.toNat (s.setRef ⟨pos, len⟩)).bind fun _ u =>
        .ok () (if u.rd.exh then u.setPhase .done else u)).Post (fun _ u => u.Inv) State.Inv := by
      refine Res.Post.bind (copyLoop_decoding _ (h1.setCopy hstart)) fun _ u hu => ?_
      split
      case isTrue => exact hu.done_inv
      case isFalse hx => exact hu.inv (Bool.not_eq_true _ ▸ hx)
    exact hcopy.of_outcome ht

/-- DEC.TOKEN ends in a good state. -/
theorem decToken_inv {s t : State} (h : s.Decoding) (ht : decToken s = .next t) : t.Inv := by
  have hpost := fetchToken_post s
  have hkeeps := fetchToken_decoding h
  unfold decToken at ht
  cases hf : fetchToken s with
  | ok i u =>
    rw [hf] at hpost hkeeps ht
    obtain ⟨-, htoken, -⟩ := hpost
    have ht : exec i u = .next t := ht
    rcases exec_of_isToken htoken u with ⟨data, he⟩ | ⟨pos, len, he⟩
    · exact execLit_inv hkeeps (he ▸ ht)
    · exact execRef_inv hkeeps (he ▸ ht)
  | raised u =>
    rw [hf] at hkeeps ht
    cases ht
    exact hkeeps
  | fault r =>
    rw [hf] at ht
    cases ht
  | refused r =>
    rw [hf] at ht
    cases ht

end Sys2Proof.Machine
end

section
/-! The invariant over one step of the machine. -/

namespace Sys2Proof.Machine

/-- The sequencer keeps the invariant in every phase. -/
theorem sequencerStep_inv {s t : State} (h : s.Inv) (ht : sequencerStep s = .next t) : t.Inv := by
  cases hb : s.busy with
  | false =>
    rw [sequencerStep_of_not_busy hb] at ht
    cases ht
    exact h
  | true =>
    rcases s.busy_iff.mp hb with hp | hp | hp
    · rw [sequencerStep_of_encPrime hp] at ht
      have henc : s.Encoding := ⟨h.sound, h.encodeMode (.inl hp), h.writer (by simp [hp]), h.errClear (by simp [hp])⟩
      exact (encPrime_inv henc).post.of_outcome ht
    · rw [sequencerStep_of_encLoop hp] at ht
      exact (encStep_inv (h.inEncLoop hp)).of_outcome ht
    · rw [sequencerStep_of_decLoop hp] at ht
      exact decToken_inv (h.decoding hp) ht

/-- Settles O44: `rst` and START build a good state, an ignored START changes none of what the invariant speaks of, and
the sequencer keeps it phase by phase. -/
theorem stepKeepsTheInvariant : Obligations.StepKeepsTheInvariant := by
  intro s t h ht
  rcases step_cases s with ⟨k, _, hs⟩ | ⟨_, _, _, hs⟩ | ⟨_, _, _, _, hs⟩ | ⟨_, _, _, _, hs⟩ | ⟨_, _, hs⟩ <;>
    rw [hs] at ht
  · cases ht
    exact applyRst_inv _ _
  · cases ht
    exact h.popHost
  · cases ht
    exact startSession_inv (.inl ⟨rfl, rfl⟩) _
  · cases ht
    exact startSession_inv (.inr ⟨rfl, rfl⟩) _
  · exact sequencerStep_inv h.popHost ht

end Sys2Proof.Machine
end

section
/-! The bit reader delivers the unread bits in order: one bit, a field, a token (20_memory.md R55, R56;
41_bitstream_reader.md R100 to R106; 44_decoder.md R151). -/

namespace Sys2Proof.Machine

/-! ### Bits asked for, with zeros for those that do not exist -/

theorem takeZeroFilled_zero (bits : List Bool) : takeZeroFilled 0 bits = [] := List.take_zero

theorem takeZeroFilled_succ (n : Nat) (bits : List Bool) :
    takeZeroFilled (n + 1) bits = flagOf bits :: takeZeroFilled n bits.tail := by
  cases bits with
  | nil => simp [takeZeroFilled, flagOf, List.replicate_succ]
  | cons b bs =>
    have hlen : n ≤ (bs ++ List.replicate n false).length := by simp
    simp only [takeZeroFilled, flagOf, List.cons_append, List.take_succ_cons, List.headD_cons, List.tail_cons,
      List.replicate_succ', ← List.append_assoc, List.take_append_of_le_length hlen]

/-- A bit shifted into a result of BR.READBITS from below (R101). -/
def shiftIn (v : BitVec 16) (b : Bool) : BitVec 16 := (v <<< 1) ||| (BitVec.ofBool b).setWidth 16

theorem shiftIn_ofNat (a : Nat) (b : Bool) : shiftIn (BitVec.ofNat 16 a) b = BitVec.ofNat 16 (2 * a + b.toNat) := by
  have hb : b.toNat < 2 ^ 1 := b.toNat_lt
  have hor : 2 * (a % 32768) ||| b.toNat = 2 * (a % 32768) + b.toNat := (Nat.two_pow_add_eq_or_of_lt hb _).symm
  refine BitVec.eq_of_toNat_eq ?_
  have hshift : (BitVec.ofNat 16 a <<< 1).toNat = 2 * (a % 32768) := by simp [Nat.shiftLeft_eq]; omega
  have hbit : ((BitVec.ofBool b).setWidth 16).toNat = b.toNat := by cases b <;> rfl
  rw [shiftIn, BitVec.toNat_or, hshift, hbit, hor, BitVec.toNat_ofNat]
  omega

/-- Shifting bits in one by one gives their value (R56). -/
theorem foldl_shiftIn (bs : List Bool) (a : Nat) :
    bs.foldl shiftIn (BitVec.ofNat 16 a) = BitVec.ofNat 16 (bs.foldl (fun v b => 2 * v + b.toNat) a) := by
  induction bs generalizing a with
  | nil => rfl
  | cons b bs ih => rw [List.foldl_cons, List.foldl_cons, shiftIn_ofNat, ih]

/-! ### The bits a reader holds -/

theorem Reader.held_of_empty {r : Reader} (hn : r.n = 0) : r.held = [] := by
  rw [Reader.held, hn, List.take_zero]

theorem Reader.held_fetched (b : Byte) (x : Bool) (k : BitVec 32) : Reader.held ⟨b, 8, x, k⟩ = msbBits 8 b.toNat :=
  List.take_of_length_le (Nat.le_refl 8)

/-- The next bit to deliver is bit 7 of `R.cur`, and shifting brings the one after it there (R29, R101). -/
theorem Reader.held_cons {r : Reader} (hn : 0 < r.n) (hle : r.n ≤ 8) :
    r.held = r.cur.getLsbD 7 :: Reader.held ⟨r.cur <<< 1, r.n - 1, r.exh, r.fetched⟩ := by
  have hshift : msbBits 8 (r.cur <<< 1).toNat = msbBits 7 r.cur.toNat ++ [false] := by
    simp only [msbBits, BitVec.testBit_toNat, BitVec.getLsbD_shiftLeft]
    rfl
  obtain ⟨k, hk⟩ : ∃ k, r.n = k + 1 := ⟨r.n - 1, by omega⟩
  have hk7 : k ≤ (msbBits 7 r.cur.toNat).length := by
    change k ≤ 7
    omega
  simp only [Reader.held, hk, hshift, Nat.add_sub_cancel, List.take_append_of_le_length hk7]
  rfl

/-! ### What it is to deliver bits -/

/-- A reader that represents a stream whose source does not fail (R29, R100). -/
structure State.CanRead (s : State) : Prop where
  wf : s.rd.wf
  ended : s.rd.exh = true → s.src.bytes = []
  errAt : s.src.errAt = none

/-- `t` is `s` after the reader has delivered `n` bits, as far as the reader and the source go (R101 to R106). -/
structure Delivers (n : Nat) (s t : State) : Prop where
  canRead : t.CanRead
  unread : t.unread = s.unread.drop n
  exh : t.rd.exh = (s.rd.exh || decide (s.unread.length < n))
  consumed : t.src.bytes.length ≤ s.src.bytes.length
  fetched : t.rd.fetched = s.rd.fetched + BitVec.ofNat 32 (s.src.bytes.length - t.src.bytes.length)

theorem Delivers.zero {s : State} (h : s.CanRead) : Delivers 0 s s where
  canRead := h
  unread := rfl
  exh := by simp
  consumed := Nat.le_refl _
  fetched := by simp

theorem Delivers.trans {m n : Nat} {s t u : State} (h : Delivers m s t) (h' : Delivers n t u) :
    Delivers (m + n) s u where
  canRead := h'.canRead
  unread := by rw [h'.unread, h.unread, List.drop_drop]
  exh := by
    rw [h'.exh, h.exh, h.unread, List.length_drop, Bool.or_assoc, ← Bool.decide_or]
    congr 2
    apply propext
    omega
  consumed := Nat.le_trans h'.consumed h.consumed
  fetched := by
    have hle := h.consumed
    have hle' := h'.consumed
    rw [h'.fetched, h.fetched, BitVec.add_assoc, ← BitVec.ofNat_add]
    congr 2
    omega

/-- `REF` is no part of the reader. -/
theorem Delivers.setRef {n : Nat} {s t : State} (h : Delivers n s t) (f : Ref) : Delivers n s (t.setRef f) where
  canRead := ⟨h.canRead.wf, h.canRead.ended, h.canRead.errAt⟩
  unread := h.unread
  exh := h.exh
  consumed := h.consumed
  fetched := h.fetched

/-! ### One bit -/

/-- `u` is `s` after the refill that precedes a bit: the same bits are unread, and either one is held or exhaustion has
been signalled (R100, R101, R104). -/
structure Refills (s u : State) : Prop where
  canRead : u.CanRead
  unread : u.unread = s.unread
  refilled : u.rd.n = 0 → u.rd.exh = true
  exh : u.rd.exh = (s.rd.exh || decide (s.unread.length < 1))
  consumed : u.src.bytes.length ≤ s.src.bytes.length
  fetched : u.rd.fetched = s.rd.fetched + BitVec.ofNat 32 (s.src.bytes.length - u.src.bytes.length)

/-- A reader that holds a bit, or is exhausted, is not refilled. -/
theorem Refills.refl {s : State} (h : s.CanRead) (hc : ¬(s.rd.n = 0 ∧ s.rd.exh = false)) : Refills s s where
  canRead := h
  unread := rfl
  refilled := fun hn => Bool.not_eq_false _ ▸ fun hx => hc ⟨hn, hx⟩
  exh := by
    cases hx : s.rd.exh with
    | true => rfl
    | false =>
      have hn : 0 < s.rd.n := Nat.pos_of_ne_zero fun hn => hc ⟨hn, hx⟩
      simp [State.unread, Reader.held_cons hn h.wf.1]
  consumed := Nat.le_refl _
  fetched := by simp

/-- An empty reader that is not exhausted is refilled by a fetch (R100). -/
theorem fetchByte_refills {s : State} (h : s.CanRead) (hn : s.rd.n = 0) (hx : s.rd.exh = false) :
    ∃ u, fetchByte s = .ok () u ∧ Refills s u := by
  have hunread : s.unread = bitsOfBytes s.src.bytes := by
    rw [State.unread, Reader.held_of_empty hn, List.nil_append]
  rcases fetchByte_cases s with ⟨he, _⟩ | ⟨_, hb, hf⟩ | ⟨b, bs, _, hb, hf⟩
  · simp [h.errAt] at he
  · exact ⟨_, hf,
      { canRead := ⟨Reader.wf_exhausted _, fun _ => hb, h.errAt⟩
        unread := hunread.symm
        refilled := fun _ => rfl
        exh := by simp [hunread, hb, bitsOfBytes]
        consumed := Nat.le_refl _
        fetched := by simp }⟩
  · rw [hb, bitsOfBytes, List.flatMap_cons] at hunread
    rw [hx, h.errAt] at hf
    have hlen : (msbBits 8 b.toNat).length = 8 := rfl
    exact ⟨_, hf,
      { canRead := ⟨Reader.wf_fetched b _, nofun, rfl⟩
        unread := hunread.symm ▸ congrArg (· ++ bitsOfBytes bs) (Reader.held_fetched b false _)
        refilled := nofun
        exh := by simp [hunread, hx, hlen]
        consumed := by simp [hb]
        fetched := by simp [hb] }⟩

/-- The bit taken after the refill is the next of the stream (R101, R103). -/
theorem takeBit_delivers {s u : State} (h : Refills s u) :
    (takeBit u).1 = flagOf s.unread ∧ Delivers 1 s (takeBit u).2 := by
  rw [← h.unread]
  unfold takeBit
  split
  case isTrue hn =>
    have hunread : u.unread = u.rd.cur.getLsbD 7 ::
        (u.setRd ⟨u.rd.cur <<< 1, u.rd.n - 1, u.rd.exh, u.rd.fetched⟩).unread := by
      rw [State.unread, Reader.held_cons hn h.canRead.wf.1]
      rfl
    refine ⟨by rw [hunread]; rfl, ⟨?_, ?_, h.exh, h.consumed, h.fetched⟩⟩
    · exact ⟨Reader.wf_takeBit h.canRead.wf hn, h.canRead.ended, h.canRead.errAt⟩
    · rw [← h.unread, hunread]
      rfl
  case isFalse hn =>
    have hn : u.rd.n = 0 := Nat.eq_zero_of_not_pos hn
    have hunread : u.unread = [] := by
      rw [State.unread, Reader.held_of_empty hn, h.canRead.ended (h.refilled hn)]
      rfl
    refine ⟨by rw [hunread]; rfl, ⟨h.canRead, ?_, h.exh, h.consumed, h.fetched⟩⟩
    rw [← h.unread, hunread]
    rfl

theorem readBit_delivers {s : State} (h : s.CanRead) :
    ∃ t, readBit s = .ok (flagOf s.unread) t ∧ Delivers 1 s t := by
  unfold readBit
  split
  case isTrue hc =>
    obtain ⟨u, hfetch, hu⟩ := fetchByte_refills h hc.1 hc.2
    obtain ⟨hbit, ht⟩ := takeBit_delivers hu
    exact ⟨(takeBit u).2, by rw [hfetch, Res.bind_ok, hbit], ht⟩
  case isFalse hc =>
    obtain ⟨hbit, ht⟩ := takeBit_delivers (.refl h hc)
    exact ⟨(takeBit s).2, by rw [Res.bind_ok, hbit], ht⟩

/-! ### Fields and tokens -/

theorem readBitsFrom_delivers (v : BitVec 16) (n : Nat) {s : State} (h : s.CanRead) :
    ∃ t, readBitsFrom v n s = .ok ((takeZeroFilled n s.unread).foldl shiftIn v) t ∧ Delivers n s t := by
  induction n generalizing s v with
  | zero => exact ⟨s, rfl, .zero h⟩
  | succ k ih =>
    obtain ⟨t, hbit, ht⟩ := readBit_delivers h
    obtain ⟨u, hrest, hu⟩ := ih (shiftIn v (flagOf s.unread)) ht.canRead
    refine ⟨u, ?_, Nat.add_comm 1 k ▸ ht.trans hu⟩
    rw [readBitsFrom, hbit, Res.bind_ok, takeZeroFilled_succ, List.foldl_cons, ← List.drop_one, ← ht.unread]
    exact hrest

/-- BR.READBITS gives the value of the next `n` bits (R101). -/
theorem readBits_delivers (n : Nat) {s : State} (h : s.CanRead) :
    ∃ t, readBits n s = .ok (BitVec.ofNat 16 (ofBits (takeZeroFilled n s.unread))) t ∧ Delivers n s t := by
  obtain ⟨t, hread, ht⟩ := readBitsFrom_delivers 0#16 n h
  exact ⟨t, hread.trans (congrArg (Res.ok · t) (foldl_shiftIn _ 0)), ht⟩

theorem readFlag_delivers {s : State} (h : s.CanRead) :
    ∃ t, readFlag s = .ok (flagOf s.unread) t ∧ Delivers 1 s t := by
  obtain ⟨t, hread, ht⟩ := readBits_delivers 1 h
  refine ⟨t, ?_, ht⟩
  rw [readFlag, hread, Res.bind_ok, takeZeroFilled_succ, takeZeroFilled_zero]
  cases flagOf s.unread <;> rfl

theorem readData_delivers {s : State} (h : s.CanRead) :
    ∃ t, readData s = .ok (BitVec.ofNat 8 (ofBits (takeZeroFilled 8 s.unread))) t ∧ Delivers 8 s t := by
  obtain ⟨t, hread, ht⟩ := readBits_delivers 8 h
  refine ⟨t, ?_, ht⟩
  rw [readData, hread, Res.bind_ok, BitVec.setWidth_ofNat_of_le (by decide)]

theorem readPos_delivers {s : State} (h : s.CanRead) :
    ∃ t, readPos s = .ok (BitVec.ofNat 12 (ofBits (takeZeroFilled 12 s.unread))) t ∧ Delivers 12 s t := by
  obtain ⟨t, hread, ht⟩ := readBits_delivers 12 h
  refine ⟨t.setRef ⟨BitVec.ofNat 12 (ofBits (takeZeroFilled 12 s.unread)), t.ref.len⟩, ?_, ht.setRef _⟩
  rw [readPos, hread, Res.bind_ok, BitVec.setWidth_ofNat_of_le (by decide)]

theorem readLen_delivers {s : State} (h : s.CanRead) :
    ∃ t, readLen s = .ok (BitVec.ofNat 4 (ofBits (takeZeroFilled 4 s.unread))) t ∧ Delivers 4 s t := by
  obtain ⟨t, hread, ht⟩ := readBits_delivers 4 h
  refine ⟨t.setRef ⟨t.ref.pos, BitVec.ofNat 4 (ofBits (takeZeroFilled 4 s.unread))⟩, ?_, ht.setRef _⟩
  rw [readLen, hread, Res.bind_ok, BitVec.setWidth_ofNat_of_le (by decide)]

/-- The fetch reads the token at the cursor, missing bits as zeros (30_encoding.md R74; 44_decoder.md R151). -/
theorem fetchToken_delivers {s : State} (h : s.CanRead) :
    ∃ t, fetchToken s = .ok (nextToken s.unread).1 t ∧ Delivers (tokenLength (flagOf s.unread)) s t := by
  obtain ⟨s1, hflag, h1⟩ := readFlag_delivers h
  cases hf : flagOf s.unread with
  | true =>
    obtain ⟨s2, hpos, h2⟩ := readPos_delivers h1.canRead
    obtain ⟨s3, hlen, h3⟩ := readLen_delivers h2.canRead
    refine ⟨s3, ?_, (h1.trans h2).trans h3⟩
    rw [fetchToken, hflag, Res.bind_ok, hf, if_pos rfl, hpos, Res.bind_ok, hlen, Res.bind_ok, (h1.trans h2).unread,
      h1.unread, nextToken, hf, if_pos rfl]
  | false =>
    obtain ⟨s2, hdata, h2⟩ := readData_delivers h1.canRead
    refine ⟨s2, ?_, h1.trans h2⟩
    rw [fetchToken, hflag, Res.bind_ok, hf, if_neg nofun, hdata, Res.bind_ok, h1.unread, nextToken, hf, if_neg nofun]

/-! ### The decoder's view of the same bits -/

theorem nextToken_rest (bits : List Bool) : (nextToken bits).2 = bits.drop (tokenLength (flagOf bits)) := by
  unfold nextToken tokenLength
  split <;> rfl

/-- The decoder accepts bits exactly as the token at their head, when it is not cut short. -/
theorem decodeBits_ok {bits rest : List Bool} {i : Instr} (h : decodeBits bits = .ok (i, rest)) :
    nextToken bits = (i, rest) ∧ tokenLength (flagOf bits) ≤ bits.length := by
  cases bits with
  | nil => cases h
  | cons flag bs =>
    unfold decodeBits at h
    dsimp only at h
    split at h
    case isTrue => cases h
    case isFalse hlen => exact ⟨Except.ok.inj h, Nat.le_of_not_lt hlen⟩

theorem decToken_of_fetch {s t : State} {i : Instr} (h : fetchToken s = .ok i t) : decToken s = exec i t := by
  simp only [decToken, h]

/-- Settles O29: the step is DEC.TOKEN, whose fetch delivers the bits the decoder takes for the token; they are all
there, so exhaustion is not signalled. -/
theorem stepRunsTheDecodedToken : Obligations.StepRunsTheDecodedToken := by
  intro s i rest hq hp hwf hexh herr hdec
  obtain ⟨htoken, hlen⟩ := decodeBits_ok hdec
  have hcan : s.popHost.CanRead := ⟨hwf, fun hx => by simp [hexh] at hx, herr⟩
  obtain ⟨t, hfetch, ht⟩ := fetchToken_delivers hcan
  have hunread : s.popHost.unread = s.unread := rfl
  rw [hunread, htoken] at hfetch
  have hframe := fetchToken_post s.popHost
  rw [hfetch] at hframe
  obtain ⟨⟨r, q, f, rfl⟩, -, -⟩ := hframe
  refine ⟨_, ?_, ?_, ?_, ht.canRead.wf, ?_⟩
  · rw [step_of_quiet hq, sequencerStep_of_decLoop (s := s.popHost) hp, decToken_of_fetch hfetch]
  · rw [ht.unread, hunread, ← nextToken_rest, htoken]
  · rw [ht.exh, hunread]
    simp [hexh, hlen]
  · have hsrc : q = ⟨q.bytes, none⟩ := congrArg (Source.mk q.bytes) ht.canRead.errAt
    exact congrArg (fun q' => ((s.popHost.setRd r).setSrc q').setRef f) hsrc

end Sys2Proof.Machine
end

section
/-! A good state never stops: every byte an operation reads or pops lies inside the memory at that point
(20_memory.md R61; 42_history_matchfinder.md R112, R113; 43_encoder.md R137; 44_decoder.md R156). -/

namespace Sys2Proof.Machine

/-! ### The encoder reads and pops what the lookahead holds -/

theorem scanFrom_len_le_look (look cand : List Byte) (i : Nat) {best : Nat × Nat} (hbest : best.2 ≤ look.length) :
    (scanFrom look i cand best).2 ≤ look.length := by
  induction cand generalizing i best with
  | nil => exact hbest
  | cons c cand ih =>
    refine ih (i + 1) ?_
    split
    · exact runFrom_le_look _ _ _
    · exact hbest

theorem longestMatch_len_le_look (m : Memory) : (longestMatch m).2 ≤ m.look.length :=
  scanFrom_len_le_look m.look m.hist 0 (Nat.zero_le _)

/-- A match covers bytes of the lookahead only (R132). -/
theorem searchRef_len_le_look (s : State) : (searchRef s).ref.len.toNat ≤ s.mem.look.length := by
  change (BitVec.ofNat 4 (longestMatch s.mem).2).toNat ≤ _
  rw [BitVec.toNat_ofNat]
  exact Nat.le_trans (Nat.mod_le _ _) (longestMatch_len_le_look s.mem)

/-- An append evicts at most the byte it makes room for. -/
theorem Memory.look_length_le_append (m : Memory) (b : Byte) : m.look.length ≤ (m.append b).look.length := by
  change _ ≤ (evict Config.maxMatchSize (m.look ++ [b])).length
  unfold evict
  split <;> simp

theorem emitMatch_keeps_mem (s : State) : (emitMatch s).Ends (fun _ t => t.mem = s.mem) (fun _ => True) := by
  refine (emitMatch_post s).mono ?_ fun _ _ => trivial
  rintro _ t ⟨w, k, rfl⟩
  rfl

theorem emitLit_keeps_mem {s : State} (h : s.mem.look ≠ []) :
    (emitLit s).Ends (fun _ t => t.mem = s.mem) (fun _ => True) := by
  refine Res.Ends.bind ((writeBits_post 0#16 1 s).mono (fun _ _ h => h) fun _ _ => trivial) ?_
  rintro _ s1 ⟨w, k, rfl⟩
  rcases laByteAt_cases 0 ((s.setWr w).setSnk k) with ⟨b, _, hb⟩ | ⟨hl, _⟩
  · rw [hb]
    refine (writeBits_post _ 8 _).mono ?_ fun _ _ => trivial
    rintro _ t ⟨w', k', rfl⟩
    rfl
  · exact (h (List.length_eq_zero_iff.mp (Nat.le_zero.mp hl))).elim

/-- An advance takes at most one byte out of a lookahead that holds one (R135). -/
theorem encAdvance_look {s : State} {n : Nat} (h : n < s.mem.look.length) :
    (encAdvance s).Ends (fun _ t => n ≤ t.mem.look.length) (fun _ => True) := by
  rcases encAdvance_cases s with ⟨hl, _⟩ | ⟨b, l, _, _, _, ha⟩ | ⟨b, l, hl, _, ha⟩ | ⟨b, l, c, cs, _, _, _, _, ha⟩
  · simp [hl] at h
  · rw [ha]
    trivial
  · rw [ha]
    rw [hl] at h
    exact Nat.le_of_lt_succ h
  · rw [ha]
    exact Nat.le_trans (Nat.le_of_lt h) (Memory.look_length_le_append (s.mem.push b) c)

theorem advanceTimes_ends (n : Nat) {s : State} (h : n ≤ s.mem.look.length) :
    (advanceTimes n s).Ends (fun _ _ => True) (fun _ => True) := by
  induction n generalizing s with
  | zero => trivial
  | succ k ih => exact Res.Ends.bind (encAdvance_look h) fun _ _ h1 => ih h1

theorem encFinish_ends (s : State) : (encFinish s).Ends (fun _ _ => True) (fun _ => True) :=
  (encFinish_runsTo s).mono (fun _ _ _ => trivial) fun _ _ => trivial

/-- ENC.STEP needs no more of the state than a byte in the lookahead (R132, R137). -/
theorem encStep_ends {s : State} (h : s.mem.look ≠ []) : (encStep s).Ends (fun _ _ => True) (fun _ => True) := by
  refine Res.Ends.bind (P := fun _ _ => True) ?_ fun _ s3 _ => ?_
  · split
    · refine Res.Ends.bind (emitMatch_keeps_mem _) fun _ s2 h2 => advanceTimes_ends _ ?_
      rw [h2]
      exact searchRef_len_le_look s
    · refine Res.Ends.bind (emitLit_keeps_mem (s := searchRef s) h) fun _ s2 h2 => ?_
      have hpos : 0 < s2.mem.look.length := by
        rw [h2]
        exact List.length_pos_iff.mpr h
      exact (encAdvance_look hpos).mono (fun _ _ _ => trivial) fun _ h => h
  · split
    · exact encFinish_ends s3
    · trivial

/-! ### The copy engine reads inside the history -/

/-- The index of the copy engine lies inside a history within its capacity (R35, R112). -/
structure State.CanCopy (s : State) : Prop where
  capacity : s.mem.hist.length ≤ Config.dictionarySize
  index : s.copy.idx < s.mem.hist.length

/-- The index moves only when the history has grown, so it stays inside (R113). -/
theorem copyByte_canCopy {s : State} (h : s.CanCopy) : (copyByte s).Ends (fun _ t => t.CanCopy) (fun _ => True) := by
  obtain ⟨hcap, hidx⟩ := h
  rcases copyByte_cases s with ⟨hl, _⟩ | ⟨b, _, _, hc⟩ | ⟨b, _, _, hc⟩
  · exact (Nat.not_lt.mpr hl hidx).elim
  · rw [hc]
    trivial
  · rw [hc]
    by_cases hfull : s.mem.hist.length = Config.dictionarySize
    · have hlen : (s.mem.push b).hist.length = s.mem.hist.length := by
        rw [Memory.push_hist_of_full b hfull]
        simp [hfull]
      refine ⟨hlen.trans_le hcap, ?_⟩
      change (if s.mem.hist.length = Config.dictionarySize then s.copy.idx else s.copy.idx + 1) < _
      rw [if_pos hfull]
      exact hidx.trans_eq hlen.symm
    · have hlt : s.mem.hist.length < Config.dictionarySize := Nat.lt_of_le_of_ne hcap hfull
      have hlen : (s.mem.push b).hist.length = s.mem.hist.length + 1 := by
        simp [Memory.push_hist_of_lt b hlt]
      refine ⟨hlen.trans_le hlt, ?_⟩
      change (if s.mem.hist.length = Config.dictionarySize then s.copy.idx else s.copy.idx + 1) < _
      rw [if_neg hfull]
      exact (Nat.succ_lt_succ hidx).trans_eq hlen.symm

theorem copyLoop_ends (n : Nat) {s : State} (h : s.CanCopy) :
    (copyLoop n s).Ends (fun _ _ => True) (fun _ => True) := by
  induction n generalizing s with
  | zero => trivial
  | succ k ih => exact Res.Ends.bind (copyByte_canCopy h) fun _ _ h1 => ih h1

/-- A token never stops: a reference outside the history takes a fault of the spec before its copy (R153). -/
theorem execRef_goesOn (pos : BitVec 12) (len : BitVec 4) {s : State}
    (hcap : s.mem.hist.length ≤ Config.dictionarySize) : ∃ t, execRef pos len s = .next t := by
  rcases execRef_cases pos len s with ⟨_, h⟩ | ⟨_, _, h⟩ | ⟨_, hpos, h⟩
  · exact ⟨_, h⟩
  · exact ⟨_, h⟩
  · have hcopy : ((copyRange pos.toNat len.toNat (s.setRef ⟨pos, len⟩)).bind fun _ u =>
        .ok () (if u.rd.exh then u.setPhase .done else u)).Ends (fun _ _ => True) (fun _ => True) :=
      Res.Ends.bind (copyLoop_ends _ ⟨hcap, hpos⟩) fun _ _ _ => trivial
    obtain ⟨t, ht, _⟩ := hcopy.outcome
    exact ⟨t, h.trans ht⟩

theorem execLit_goesOn (data : BitVec 8) (s : State) : ∃ t, execLit data s = .next t := by
  rcases execLit_cases data s with ⟨_, h⟩ | ⟨_, _, h⟩ | ⟨_, _, h⟩ <;> exact ⟨_, h⟩

theorem decToken_goesOn {s : State} (hcap : s.mem.hist.length ≤ Config.dictionarySize) :
    ∃ t, decToken s = .next t := by
  rcases decToken_cases s with ⟨i, u, ⟨r, q, f, rfl⟩, hi, _, _, h⟩ | ⟨u, _, h⟩
  · rw [h]
    rcases exec_of_isToken hi (((s.setRd r).setSrc q).setRef f) with ⟨data, he⟩ | ⟨pos, len, he⟩ <;> rw [he]
    · exact execLit_goesOn data _
    · exact execRef_goesOn pos len hcap
  · exact ⟨_, h⟩

/-! ### A step -/

theorem sequencerStep_goesOn {s : State} (h : s.Inv) : ∃ t, sequencerStep s = .next t := by
  cases hb : s.busy with
  | false => exact ⟨s, sequencerStep_of_not_busy hb⟩
  | true =>
    rcases s.busy_iff.mp hb with hp | hp | hp
    · rw [sequencerStep_of_encPrime hp]
      obtain ⟨t, ht, _⟩ := (encPrime_runsTo s).outcome
      exact ⟨t, ht⟩
    · rw [sequencerStep_of_encLoop hp]
      obtain ⟨_, hlook, _⟩ := h.encLoop hp
      obtain ⟨t, ht, _⟩ := (encStep_ends hlook).outcome
      exact ⟨t, ht⟩
    · rw [sequencerStep_of_decLoop hp]
      exact decToken_goesOn h.memory.1

/-- Settles O46: only the sequencer could stop, and it reads inside the lookahead in ENC_LOOP and inside the history in
DEC_LOOP. -/
theorem goodStatesNeverStop : Obligations.GoodStatesNeverStop := by
  intro s h
  rcases step_cases s with ⟨k, _, hs⟩ | ⟨_, _, _, hs⟩ | ⟨_, _, _, _, hs⟩ | ⟨_, _, _, _, hs⟩ | ⟨_, _, hs⟩
  case inr.inr.inr.inr =>
    rw [hs]
    exact sequencerStep_goesOn h.popHost
  all_goals exact ⟨_, hs⟩

end Sys2Proof.Machine
end

section
/-! The history as the newest bytes pushed, the ring of 20_memory.md R67 that represents it, and the two stream
primitives (20_memory.md R52, R58, R59, R67; 42_history_matchfinder.md R110, R112, R113). -/

namespace Sys2Proof.Machine

/-! ### The history -/

theorem lastBytes_of_length_le {n : Nat} {l : List Byte} (h : l.length ≤ n) : lastBytes n l = l := by
  rw [lastBytes, Nat.sub_eq_zero_of_le h, List.drop_zero]

theorem length_lastBytes_le (n : Nat) (l : List Byte) : (lastBytes n l).length ≤ n := by
  rw [lastBytes, List.length_drop]
  omega

theorem Memory.push_lastBytes (l look : List Byte) (b : Byte) :
    Memory.push ⟨lastBytes Config.dictionarySize l, look⟩ b = ⟨lastBytes Config.dictionarySize (l ++ [b]), look⟩ := by
  rw [Memory.push, evict_lastBytes]

/-- Pushing in order, the newest push last (R52, R110). -/
theorem foldl_push {m : Memory} (h : m.hist.length ≤ Config.dictionarySize) (bytes : List Byte) :
    bytes.foldl Memory.push m = ⟨lastBytes Config.dictionarySize (m.hist ++ bytes), m.look⟩ := by
  induction bytes using List.reverseRecOn with
  | nil => rw [List.append_nil, lastBytes_of_length_le h, List.foldl_nil]
  | append_singleton bs b ih =>
    rw [List.foldl_append, ih, List.foldl_cons, List.foldl_nil, Memory.push_lastBytes, List.append_assoc]

/-- Settles O32, by induction on the sequence pushed. -/
theorem historyKeepsTheNewestBytes : Obligations.HistoryKeepsTheNewestBytes := by
  intro m bytes h
  have hpush := foldl_push h bytes
  simp only [hpush, length_lastBytes_le, and_self]

/-! ### The ring -/

theorem Ring.push_ram (r : Ring) (b : Byte) :
    (r.push b).ram = r.ram.set (r.head + BitVec.ofNat 12 r.cnt).toNat b := by
  unfold Ring.push
  dsimp only
  split <;> rfl

theorem Ring.push_of_lt {r : Ring} (b : Byte) (h : r.cnt < Config.dictionarySize) :
    (r.push b).head = r.head ∧ (r.push b).cnt = r.cnt + 1 := by
  unfold Ring.push
  rw [if_neg (Nat.ne_of_lt h)]
  exact ⟨rfl, rfl⟩

theorem Ring.push_of_full {r : Ring} (b : Byte) (h : r.cnt = Config.dictionarySize) :
    (r.push b).head = r.head + 1#12 ∧ (r.push b).cnt = r.cnt := by
  unfold Ring.push
  rw [if_pos h]
  exact ⟨rfl, rfl⟩

theorem Ring.push_wf {r : Ring} (b : Byte) (h : r.wf) : (r.push b).wf := by
  obtain ⟨hram, hcnt⟩ := h
  refine ⟨by rw [Ring.push_ram, List.length_set, hram], ?_⟩
  rcases Nat.lt_or_eq_of_le hcnt with hlt | hfull
  · rw [(Ring.push_of_lt b hlt).2]
    exact hlt
  · rw [(Ring.push_of_full b hfull).2]
    exact hcnt

/-- The cell after the newest byte takes the byte pushed. -/
theorem Ring.cell_push_next {r : Ring} (b : Byte) (h : r.ram.length = 4096) :
    (r.push b).cell (r.head + BitVec.ofNat 12 r.cnt) = b := by
  have hlt : (r.head + BitVec.ofNat 12 r.cnt).toNat < r.ram.length := h ▸ BitVec.isLt _
  rw [Ring.cell, Ring.push_ram, List.getD_eq_getElem?_getD, List.getElem?_set_self hlt, Option.getD_some]

/-- The occupied cells keep their bytes: at most 4095 of the 4096 are occupied, so the next cell is none of them. -/
theorem Ring.cell_push_of_lt {r : Ring} (b : Byte) {i : Nat} (h : r.wf) (hi : i < r.cnt) :
    (r.push b).cell (r.head + BitVec.ofNat 12 i) = r.cell (r.head + BitVec.ofNat 12 i) := by
  have hne : (r.head + BitVec.ofNat 12 r.cnt).toNat ≠ (r.head + BitVec.ofNat 12 i).toNat := by
    have hcnt : r.cnt ≤ 4095 := h.2
    rw [BitVec.toNat_add, BitVec.toNat_add, BitVec.toNat_ofNat, BitVec.toNat_ofNat]
    omega
  rw [Ring.cell, Ring.push_ram, List.getD_eq_getElem?_getD, List.getElem?_set_ne hne, Ring.cell,
    List.getD_eq_getElem?_getD]

theorem Ring.length_history (r : Ring) : r.history.length = r.cnt := by
  rw [Ring.history, List.length_map, List.length_range]

theorem Ring.history_getElem? {r : Ring} {i : Nat} (h : i < r.cnt) :
    r.history[i]? = some (r.cell (r.head + BitVec.ofNat 12 i)) := by
  rw [Ring.history, List.getElem?_map, List.getElem?_range h, Option.map_some]

/-- One cell further on is the next index. -/
theorem head_add_one (head : BitVec 12) (i : Nat) :
    head + 1#12 + BitVec.ofNat 12 i = head + BitVec.ofNat 12 (i + 1) := by
  rw [BitVec.ofNat_add, BitVec.add_comm (BitVec.ofNat 12 i), ← BitVec.add_assoc]

/-- Below the capacity the ring grows by the byte pushed. -/
theorem Ring.history_push_of_lt {r : Ring} (b : Byte) (h : r.wf) (hlt : r.cnt < Config.dictionarySize) :
    (r.push b).history = r.history ++ [b] := by
  obtain ⟨hhead, hcnt⟩ := Ring.push_of_lt b hlt
  rw [Ring.history, hhead, hcnt, List.range_succ, List.map_append, List.map_singleton, Ring.cell_push_next b h.1,
    Ring.history]
  congr 1
  exact List.map_congr_left fun i hi => Ring.cell_push_of_lt b h (List.mem_range.mp hi)

/-- At the capacity the head passes the oldest byte and the free cell becomes the newest. -/
theorem Ring.history_push_of_full {r : Ring} (b : Byte) (h : r.wf) (hfull : r.cnt = Config.dictionarySize) :
    (r.push b).history = r.history.tail ++ [b] := by
  obtain ⟨hhead, hcnt⟩ := Ring.push_of_full b hfull
  obtain ⟨n, hn⟩ : ∃ n, r.cnt = n + 1 := ⟨4094, hfull⟩
  have hnext : (r.push b).cell (r.head + BitVec.ofNat 12 (n + 1)) = b := hn ▸ Ring.cell_push_next b h.1
  have htail : r.history.tail = (List.range n).map fun i => r.cell (r.head + BitVec.ofNat 12 (i + 1)) := by
    rw [Ring.history, hn, List.range_succ_eq_map, List.map_cons, List.tail_cons, List.map_map]
    rfl
  rw [htail, Ring.history, hhead, hcnt, hn]
  simp only [head_add_one]
  rw [List.range_succ, List.map_append, List.map_singleton, hnext]
  congr 1
  refine List.map_congr_left fun i hi => Ring.cell_push_of_lt b h ?_
  rw [hn]
  exact Nat.succ_lt_succ (List.mem_range.mp hi)

/-- The ring represents the history after HB.PUSH (R67, R110). -/
theorem Ring.history_push {r : Ring} {m : Memory} (b : Byte) (h : r.wf) (hm : m.hist = r.history) :
    (m.push b).hist = (r.push b).history := by
  have hlen : m.hist.length = r.cnt := by rw [hm, Ring.length_history]
  rcases Nat.lt_or_eq_of_le h.2 with hlt | hfull
  · rw [Ring.history_push_of_lt b h hlt, Memory.push_hist_of_lt b (hlen ▸ hlt), hm]
  · rw [Ring.history_push_of_full b h hfull, Memory.push_hist_of_full b (hlen.trans hfull), hm]

/-- Settles O58. -/
theorem ringPushIsHistoryPush : Obligations.RingPushIsHistoryPush :=
  fun _ b _ h => ⟨Ring.push_wf b h, (Ring.history_push b h rfl).symm⟩

/-! ### The copy engine of the ring -/

/-- The ring represents the history, and its read pointer is the index of HB.COPYRANGE, which lies inside. -/
structure Ring.Copies (r : Ring) (p : BitVec 12) (s : State) : Prop where
  wf : r.wf
  hist : s.mem.hist = r.history
  index : s.copy.idx < r.cnt
  pointer : p = r.head + BitVec.ofNat 12 s.copy.idx

/-- A physical pointer that always increments is a relative index that advances only without eviction (R67, R113). -/
theorem Ring.Copies.next {r : Ring} {p : BitVec 12} {s t : State} (h : r.Copies p s) (b : Byte)
    (hmem : t.mem = s.mem.push b)
    (hidx : t.copy.idx = if s.mem.hist.length = Config.dictionarySize then s.copy.idx else s.copy.idx + 1) :
    (r.push b).Copies (p + 1#12) t := by
  have hlen : s.mem.hist.length = r.cnt := by rw [h.hist, Ring.length_history]
  have hhist : t.mem.hist = (r.push b).history := hmem ▸ Ring.history_push b h.wf h.hist
  rw [hlen] at hidx
  have hp : p + 1#12 = r.head + BitVec.ofNat 12 (s.copy.idx + 1) := by
    rw [h.pointer, BitVec.ofNat_add, ← BitVec.add_assoc]
  rcases Nat.lt_or_eq_of_le h.wf.2 with hlt | hfull
  · obtain ⟨hhead, hcnt⟩ := Ring.push_of_lt b hlt
    rw [if_neg (Nat.ne_of_lt hlt)] at hidx
    exact ⟨Ring.push_wf b h.wf, hhist, by rw [hidx, hcnt]; exact Nat.succ_lt_succ h.index, by rw [hidx, hhead, hp]⟩
  · obtain ⟨hhead, hcnt⟩ := Ring.push_of_full b hfull
    rw [if_pos hfull] at hidx
    exact ⟨Ring.push_wf b h.wf, hhist, by rw [hidx, hcnt]; exact h.index, by rw [hidx, hhead, hp, head_add_one]⟩

/-- One byte of the copy is the byte under the pointer. -/
theorem Ring.Copies.copyByte {r : Ring} {p : BitVec 12} {s : State} (h : r.Copies p s)
    (hsnk : s.snk.failAfter = none) :
    ∃ t, copyByte s = .ok () t ∧ (r.push (r.cell p)).Copies (p + 1#12) t ∧
      t.snk = ⟨s.snk.out ++ [r.cell p], none⟩ := by
  have hread : s.mem.hist[s.copy.idx]? = some (r.cell p) := by
    rw [h.hist, h.pointer, Ring.history_getElem? h.index]
  rcases copyByte_cases s with ⟨hl, _⟩ | ⟨b, _, he, _⟩ | ⟨b, hb, _, hc⟩
  · rw [List.getElem?_eq_none hl] at hread
    cases hread
  · simp [hsnk] at he
  · obtain rfl : b = r.cell p := Option.some.inj (hb.symm.trans hread)
    refine ⟨_, hc, h.next _ rfl rfl, ?_⟩
    simp [hsnk]

/-- The ring's copy, byte by byte, is the loop of HB.COPYRANGE (R112). -/
theorem Ring.Copies.copyLoop (n : Nat) {r : Ring} {p : BitVec 12} {s : State} (h : r.Copies p s)
    (hsnk : s.snk.failAfter = none) :
    ∃ t, copyLoop n s = .ok () t ∧ t.snk.out = s.snk.out ++ (Ring.copy n p r).1 ∧
      t.mem.hist = (Ring.copy n p r).2.history := by
  induction n generalizing r p s with
  | zero => exact ⟨s, rfl, (List.append_nil _).symm, h.hist⟩
  | succ k ih =>
    obtain ⟨s1, hbyte, h1, hsnk1⟩ := h.copyByte hsnk
    obtain ⟨t, hloop, hout, hhist⟩ := ih h1 (by rw [hsnk1])
    refine ⟨t, ?_, ?_, hhist⟩
    · rw [Machine.copyLoop, hbyte, Res.bind_ok, hloop]
    · rw [hout, hsnk1, List.append_assoc]
      rfl

/-- Settles O59: the copy starts with the pointer at the index, and each byte keeps it there. -/
theorem ringCopyIsCopyRange : Obligations.RingCopyIsCopyRange := by
  intro r start n s hwf hstart hhist hsnk
  have h : r.Copies (r.head + BitVec.ofNat 12 start) (s.setCopy ⟨start, n⟩) := ⟨hwf, hhist, hstart, rfl⟩
  exact h.copyLoop n hsnk

/-! ### The stream primitives -/

/-- Settles O14: of the answers of either primitive the state of its port selects one. -/
theorem streamPrimitives : Obligations.StreamPrimitives := by
  refine ⟨fun s he => ?_, fun s he hb => ?_, fun s b bs he hb => ?_, fun s b he => ?_, fun s b he => ?_⟩
  · rcases srcFetch_cases s with ⟨_, h⟩ | ⟨hn, _⟩ | ⟨_, _, hn, _⟩
    · exact h
    · exact (hn he).elim
    · exact (hn he).elim
  · rcases srcFetch_cases s with ⟨he', _⟩ | ⟨_, _, h⟩ | ⟨_, _, _, hb', _⟩
    · exact (he he').elim
    · exact h
    · simp [hb] at hb'
  · rcases srcFetch_cases s with ⟨he', _⟩ | ⟨_, hb', _⟩ | ⟨_, _, _, hb', h⟩
    · exact (he he').elim
    · simp [hb] at hb'
    · obtain ⟨rfl, rfl⟩ := List.cons.inj (hb.symm.trans hb')
      exact h
  · rcases sinkWrite_cases b s with ⟨_, h⟩ | ⟨hn, _⟩
    · exact h
    · exact (hn he).elim
  · rcases sinkWrite_cases b s with ⟨he', _⟩ | ⟨_, h⟩
    · exact (he he').elim
    · exact h

end Sys2Proof.Machine
end

section
/-! What the sequencer does to the memories and the streams, for every relation that such changes keep: so memory
keeps its canonical form, the sink grows at its end and the source shrinks from its front (20_memory.md R52, R53, R58, R59,
R63; 44_decoder.md R157). -/

namespace Sys2Proof.Machine

/-- A step of DEC.TOKEN executes the token fetched, or the fetch has taken a fault (44_decoder.md R151). -/
theorem decToken_next {s t : State} (ht : decToken s = .next t) :
    (∃ i u, i.isToken = true ∧ fetchToken s = .ok i u ∧ exec i u = .next t) ∨ fetchToken s = .raised t := by
  unfold decToken at ht
  have hpost := fetchToken_post s
  cases hf : fetchToken s with
  | ok i u =>
    rw [hf] at hpost ht
    obtain ⟨-, htoken, -⟩ := hpost
    exact .inl ⟨i, u, htoken, rfl, ht⟩
  | raised u =>
    rw [hf] at ht
    cases ht
    exact .inr rfl
  | fault r =>
    rw [hf] at hpost
    exact hpost.elim
  | refused r =>
    rw [hf] at hpost
    exact hpost.elim

/-- A relation of states that every change an operation makes to the memories, the source and the sink stays inside,
and that does not speak of the registers. -/
structure DataRel (R : State → State → Prop) : Prop where
  registers : ∀ {s t : State}, t.mem = s.mem → t.src = s.src → t.snk = s.snk → R s t
  trans : ∀ {s t u : State}, R s t → R t u → R s u
  push : ∀ (s : State) (b : Byte), R s (s.setMem (s.mem.push b))
  append : ∀ (s : State) (b : Byte), R s (s.setMem (s.mem.append b))
  pop : ∀ {s : State} {b : Byte} {l : List Byte}, s.mem.look = b :: l → R s (s.setMem ⟨s.mem.hist, l⟩)
  consume : ∀ {s : State} {b : Byte} {bs : List Byte} (errAt : Option Nat), s.src.bytes = b :: bs →
    R s (s.setSrc ⟨bs, errAt⟩)
  accept : ∀ {s : State} {k : Sink}, s.snk.out <+: k.out → R s (s.setSnk k)

/-- Wherever the operation goes on or takes a fault, it has stayed inside `R`. -/
abbrev Res.Within {α : Type} (R : State → State → Prop) (s : State) (r : Res α) : Prop :=
  r.Post (fun _ t => R s t) (R s)

section
variable {R : State → State → Prop}

theorem DataRel.refl (hR : DataRel R) (s : State) : R s s := hR.registers rfl rfl rfl

/-- One operation after another. -/
theorem DataRel.bind (hR : DataRel R) {α β : Type} {s : State} {r : Res α} {f : α → State → Res β} (h : r.Within R s)
    (hf : ∀ a t, (f a t).Within R t) : (r.bind f).Within R s :=
  Res.Post.bind h fun a t ht => (hf a t).mono (fun _ _ => hR.trans ht) (fun _ => hR.trans ht)

/-- An operation after a change. -/
theorem DataRel.after (hR : DataRel R) {α : Type} {s t : State} {r : Res α} (hr : r.Within R t) (h : R s t) :
    r.Within R s := hr.mono (fun _ _ => hR.trans h) (fun _ => hR.trans h)

/-! ### Fault entry and the bit writer -/

theorem DataRel.faultEntry (hR : DataRel R) (code : ErrCode) (s : State) : R s (faultEntry code s) := by
  obtain ⟨more, hout⟩ := faultEntry_out code s
  refine hR.trans (hR.accept (k := (Machine.faultEntry code s).snk) ⟨more, hout.symm⟩) (hR.registers ?_ ?_ ?_)
  all_goals simp

theorem DataRel.writeBit (hR : DataRel R) (b : Bool) (s : State) : (writeBit b s).Within R s := by
  rcases writeBit_cases b s with ⟨_, h⟩ | ⟨_, _, h⟩ | ⟨_, _, h⟩ <;> rw [h]
  · exact hR.registers rfl rfl rfl
  · refine hR.trans ?_ (hR.faultEntry _ _)
    exact hR.registers rfl rfl rfl
  · exact hR.trans (hR.accept ⟨_, rfl⟩) (hR.registers rfl rfl rfl)

theorem DataRel.writeBits (hR : DataRel R) (value : BitVec 16) (n : Nat) (s : State) :
    (writeBits value n s).Within R s := by
  induction n generalizing s with
  | zero => exact hR.refl s
  | succ k ih => exact hR.bind (hR.writeBit _ s) fun _ => ih

theorem DataRel.encFinish (hR : DataRel R) (s : State) : (encFinish s).Within R s := by
  rcases encFinish_cases s with ⟨_, h⟩ | ⟨_, _, h⟩ | ⟨_, _, h⟩ <;> rw [h]
  · exact hR.registers rfl rfl rfl
  · exact hR.faultEntry _ _
  · exact hR.trans (hR.accept ⟨_, rfl⟩) (hR.registers rfl rfl rfl)

/-! ### The bit reader and the fetch of a token -/

theorem DataRel.fetchByte (hR : DataRel R) (s : State) : (fetchByte s).Within R s := by
  rcases fetchByte_cases s with ⟨_, h⟩ | ⟨_, _, h⟩ | ⟨b, bs, _, hb, h⟩ <;> rw [h]
  · exact hR.faultEntry _ _
  · exact hR.registers rfl rfl rfl
  · exact hR.trans (hR.consume _ hb) (hR.registers rfl rfl rfl)

theorem DataRel.readBit (hR : DataRel R) (s : State) : (readBit s).Within R s := by
  refine hR.bind ?_ fun _ t => ?_
  · split
    · exact hR.fetchByte s
    · exact hR.refl s
  · change R t (takeBit t).2
    rw [takeBit_frame]
    exact hR.registers rfl rfl rfl

theorem DataRel.readBits (hR : DataRel R) (n : Nat) (s : State) : (readBits n s).Within R s := by
  unfold Machine.readBits
  generalize 0#16 = v
  induction n generalizing v s with
  | zero => exact hR.refl s
  | succ k ih => exact hR.bind (hR.readBit s) fun _ t => ih t _

theorem DataRel.fetchToken (hR : DataRel R) (s : State) : (fetchToken s).Within R s := by
  refine hR.bind (hR.bind (hR.readBits 1 s) fun _ => hR.refl) fun flag s1 => ?_
  cases flag with
  | true =>
    refine hR.bind (hR.bind (hR.readBits 12 s1) fun _ _ => hR.registers rfl rfl rfl) fun _ s2 => ?_
    exact hR.bind (hR.bind (hR.readBits 4 s2) fun _ _ => hR.registers rfl rfl rfl) fun _ => hR.refl
  | false => exact hR.bind (hR.bind (hR.readBits 8 s1) fun _ => hR.refl) fun _ => hR.refl

/-! ### The decoder -/

theorem DataRel.copyByte (hR : DataRel R) (s : State) : (copyByte s).Within R s := by
  rcases copyByte_cases s with ⟨_, h⟩ | ⟨b, _, _, h⟩ | ⟨b, _, _, h⟩ <;> rw [h]
  · trivial
  · exact hR.trans (hR.push s b) (hR.faultEntry _ _)
  · exact hR.trans (hR.push s b) (hR.trans (hR.accept ⟨_, rfl⟩) (hR.registers rfl rfl rfl))

theorem DataRel.copyLoop (hR : DataRel R) (n : Nat) (s : State) : (copyLoop n s).Within R s := by
  induction n generalizing s with
  | zero => exact hR.refl s
  | succ k ih => exact hR.bind (hR.copyByte s) fun _ => ih

theorem DataRel.execLit (hR : DataRel R) {data : BitVec 8} {s t : State} (ht : execLit data s = .next t) : R s t := by
  rcases execLit_cases data s with ⟨_, h⟩ | ⟨_, _, h⟩ | ⟨_, _, h⟩ <;> rw [h] at ht <;> cases ht
  · exact hR.registers rfl rfl rfl
  · exact hR.trans (hR.push s data) (hR.faultEntry _ _)
  · exact hR.trans (hR.push s data) (hR.accept ⟨_, rfl⟩)

theorem DataRel.execRef (hR : DataRel R) {pos : BitVec 12} {len : BitVec 4} {s t : State}
    (ht : execRef pos len s = .next t) : R s t := by
  have hset : R s (s.setRef ⟨pos, len⟩) := hR.registers rfl rfl rfl
  rcases execRef_cases pos len s with ⟨_, h⟩ | ⟨_, _, h⟩ | ⟨_, _, h⟩ <;> rw [h] at ht
  · cases ht
    exact hR.trans hset (hR.faultEntry _ _)
  · cases ht
    exact hR.trans hset (hR.faultEntry _ _)
  · have hstart : R (s.setRef ⟨pos, len⟩) ((s.setRef ⟨pos, len⟩).setCopy ⟨pos.toNat, len.toNat⟩) :=
      hR.registers rfl rfl rfl
    refine hR.trans hset (Res.Post.of_outcome (hR.bind (hR.after (hR.copyLoop _ _) hstart) fun _ u => ?_) ht)
    change R u (if u.rd.exh then u.setPhase .done else u)
    split
    · exact hR.registers rfl rfl rfl
    · exact hR.refl u

theorem DataRel.decToken (hR : DataRel R) {s t : State} (ht : decToken s = .next t) : R s t := by
  have hfetch := hR.fetchToken s
  rcases decToken_next ht with ⟨i, u, hi, hf, hu⟩ | hf <;> rw [hf] at hfetch
  · rcases exec_of_isToken hi u with ⟨data, he⟩ | ⟨pos, len, he⟩ <;> rw [he] at hu
    · exact hR.trans hfetch (hR.execLit hu)
    · exact hR.trans hfetch (hR.execRef hu)
  · exact hfetch

/-! ### The encoder -/

theorem DataRel.emitMatch (hR : DataRel R) (s : State) : (emitMatch s).Within R s :=
  hR.bind (hR.writeBits 1#16 1 s) fun _ s1 => hR.writeBits (packRef s1.ref.pos s1.ref.len) 16 s1

theorem DataRel.emitLit (hR : DataRel R) (s : State) : (emitLit s).Within R s := by
  refine hR.bind (hR.writeBits _ 1 s) fun _ s1 => ?_
  rcases laByteAt_cases 0 s1 with ⟨b, _, h⟩ | ⟨_, h⟩ <;> rw [h]
  · exact hR.writeBits _ 8 s1
  · trivial

theorem DataRel.encAdvance (hR : DataRel R) (s : State) : (encAdvance s).Within R s := by
  rcases encAdvance_cases s with ⟨_, h⟩ | ⟨b, l, _, _, _, h⟩ | ⟨b, l, hl, _, h⟩ | ⟨b, l, c, cs, _, _, _, hb, h⟩ <;>
    rw [h]
  · trivial
  · exact hR.trans (hR.push s b) (hR.faultEntry _ _)
  · have hpop : R (s.setMem (s.mem.push b)) (s.setMem ⟨(s.mem.push b).hist, l⟩) := hR.pop hl
    exact hR.trans (hR.push s b) (hR.trans hpop (hR.registers rfl rfl rfl))
  · have htake : R (s.setMem (s.mem.push b)) ((s.setMem (s.mem.push b)).setSrc ⟨cs, s.src.errAt.map (· - 1)⟩) :=
      hR.consume _ hb
    exact hR.trans (hR.push s b) (hR.trans htake (hR.trans (hR.append _ c) (hR.registers rfl rfl rfl)))

theorem DataRel.advanceTimes (hR : DataRel R) (n : Nat) (s : State) : (advanceTimes n s).Within R s := by
  induction n generalizing s with
  | zero => exact hR.refl s
  | succ k ih => exact hR.bind (hR.encAdvance s) fun _ => ih

theorem DataRel.primeLoop (hR : DataRel R) (n : Nat) (s : State) : (primeLoop n s).Within R s := by
  induction n generalizing s with
  | zero => exact hR.refl s
  | succ k ih =>
    rcases primeLoop_succ k s with ⟨_, h⟩ | ⟨_, _, ⟨_, h⟩ | ⟨_, _, h⟩ | ⟨b, bs, _, hb, h⟩⟩ <;> rw [h]
    · exact hR.refl s
    · exact hR.faultEntry _ _
    · exact hR.after (ih _) (hR.registers rfl rfl rfl)
    · exact hR.after (ih _) (hR.trans (hR.consume _ hb) (hR.append _ b))

theorem DataRel.encPrime (hR : DataRel R) (s : State) : (encPrime s).Within R s := by
  refine hR.bind (hR.primeLoop _ s) fun _ s1 => ?_
  dsimp only
  split
  · exact hR.registers rfl rfl rfl
  · exact hR.after (hR.encFinish _) (hR.registers rfl rfl rfl)

theorem DataRel.encStep (hR : DataRel R) (s : State) : (encStep s).Within R s := by
  have hsearch : R s (searchRef s) := hR.registers rfl rfl rfl
  refine hR.bind (hR.after ?_ hsearch) fun _ s3 => ?_
  · split
    · exact hR.bind (hR.emitMatch _) fun _ => hR.advanceTimes _
    · exact hR.bind (hR.emitLit _) fun _ => hR.encAdvance
  · split
    · exact hR.encFinish s3
    · exact hR.refl s3

/-! ### A step -/

/-- The sequencer stays inside the relation in every state. -/
theorem DataRel.sequencerStep (hR : DataRel R) {s t : State} (ht : sequencerStep s = .next t) : R s t := by
  cases hb : s.busy with
  | false =>
    rw [sequencerStep_of_not_busy hb] at ht
    cases ht
    exact hR.refl s
  | true =>
    rcases s.busy_iff.mp hb with hp | hp | hp
    · rw [sequencerStep_of_encPrime hp] at ht
      exact (hR.encPrime s).of_outcome ht
    · rw [sequencerStep_of_encLoop hp] at ht
      exact (hR.encStep s).of_outcome ht
    · rw [sequencerStep_of_decLoop hp] at ht
      exact hR.decToken ht

/-- A step without `rst` that accepts no START stays inside it too. -/
theorem DataRel.step (hR : DataRel R) {s t : State} (ht : step s = .next t) (hr : s.pins.rst = none)
    (ha : ¬s.accepts) : R s t := by
  have hpop : R s s.popHost := hR.registers rfl rfl rfl
  rcases ignored_or_quiet_of_not_accepts hr ha with ⟨hs, hb⟩ | hq
  · rw [step_of_ignored_start hr hs hb] at ht
    cases ht
    exact hpop
  · rw [step_of_quiet hq] at ht
    exact hR.trans hpop (hR.sequencerStep ht)

end

/-! ### The canonical form of memory -/

theorem dataRel_wf : DataRel fun s t => s.mem.wf → t.mem.wf where
  registers := fun hmem _ _ h => hmem ▸ h
  trans := fun h h' hs => h' (h hs)
  push := fun _ b => Memory.push_wf b
  append := fun _ b => Memory.append_wf b
  pop := by
    rintro s b l hl ⟨hhist, hlook⟩
    rw [hl] at hlook
    exact ⟨hhist, Nat.le_of_succ_le hlook⟩
  consume := fun _ _ => id
  accept := fun _ => id

/-- Settles O45: `rst` and START empty the memories, and any other step makes changes that keep their bounds. -/
theorem stepKeepsMemoryForm : Obligations.StepKeepsMemoryForm := by
  intro s t hs ht
  rcases step_cases s with ⟨k, _, h⟩ | ⟨_, _, _, h⟩ | ⟨_, _, _, _, h⟩ | ⟨_, _, _, _, h⟩ | ⟨_, _, h⟩ <;> rw [h] at ht
  · cases ht
    exact Memory.wf_empty
  · cases ht
    exact hs
  · cases ht
    exact Memory.wf_empty
  · cases ht
    exact Memory.wf_empty
  · exact dataRel_wf.sequencerStep ht hs

/-! ### The streams -/

theorem dataRel_streams : DataRel fun s t => s.snk.out <+: t.snk.out ∧ t.src.bytes <:+ s.src.bytes where
  registers := fun _ hsrc hsnk => ⟨hsnk ▸ ⟨[], List.append_nil _⟩, hsrc ▸ List.suffix_rfl⟩
  trans := fun ⟨hout, hsrc⟩ ⟨hout', hsrc'⟩ => ⟨hout.trans hout', hsrc'.trans hsrc⟩
  push := fun _ _ => ⟨⟨[], List.append_nil _⟩, List.suffix_rfl⟩
  append := fun _ _ => ⟨⟨[], List.append_nil _⟩, List.suffix_rfl⟩
  pop := fun _ => ⟨⟨[], List.append_nil _⟩, List.suffix_rfl⟩
  consume := fun {_ b _} _ hb => ⟨⟨[], List.append_nil _⟩, hb ▸ List.suffix_cons b _⟩
  accept := fun hout => ⟨hout, List.suffix_rfl⟩

/-- Settles O50: `rst` leaves the source and adds to the sink's bytes those already accepted in the step; any other step
writes at the end of the one and takes from the front of the other. -/
theorem streamsAreSequential : Obligations.StreamsAreSequential := by
  intro s t ht ha
  cases hr : s.pins.rst with
  | some k =>
    rw [step_of_rst hr] at ht
    cases ht
    exact ⟨⟨_, rfl⟩, List.suffix_rfl⟩
  | none => exact dataRel_streams.step ht hr ha

end Sys2Proof.Machine
end

section
/-! The words of the three formats: a word is its fields put one after the other, so taking the fields of a word and
putting fields together are inverse (30_encoding.md R71, R72, R73, R76, R81, R85). -/

namespace Sys2Proof

/-! ### Packed references (R73) -/

theorem packRef_eq_append (pos : BitVec 12) (len : BitVec 4) : packRef pos len = pos ++ len := by
  refine BitVec.eq_of_getLsbD_eq fun k hk => ?_
  rw [packRef, BitVec.getLsbD_or, BitVec.getLsbD_append]
  interval_cases k <;> simp

theorem toNat_packRef (pos : BitVec 12) (len : BitVec 4) : (packRef pos len).toNat = 16 * pos.toNat + len.toNat := by
  rw [packRef_eq_append, BitVec.toNat_append, ← Nat.shiftLeft_add_eq_or_of_lt len.isLt, Nat.shiftLeft_eq, Nat.mul_comm]

@[simp] theorem refPos_packRef (pos : BitVec 12) (len : BitVec 4) : refPos (packRef pos len) = pos := by
  rw [packRef_eq_append]
  exact BitVec.extractLsb'_append_eq_left

@[simp] theorem refLen_packRef (pos : BitVec 12) (len : BitVec 4) : refLen (packRef pos len) = len := by
  rw [packRef_eq_append]
  exact BitVec.extractLsb'_append_eq_right

@[simp] theorem packRef_refPos_refLen (packed : BitVec 16) : packRef (refPos packed) (refLen packed) = packed := by
  rw [packRef_eq_append, refPos, refLen]
  exact (BitVec.extractLsb'_append_extractLsb'_eq_extractLsb' rfl).trans BitVec.extractLsb'_eq_self

/-- Settles O2: the fields stand side by side in the packed reference. -/
theorem packingIsInvertible : Obligations.PackingIsInvertible :=
  ⟨fun pos len => ⟨toNat_packRef pos len, refPos_packRef pos len, refLen_packRef pos len⟩, packRef_refPos_refLen⟩

/-! ### Words -/

/-- Settles O1: the decoder computes on ten closed words. -/
theorem specWordsDecode : Obligations.SpecWordsDecode := by
  unfold Obligations.SpecWordsDecode
  decide

/-- A word is its flag in front of its payload. -/
theorem flag_append_payload {n : Nat} {flag : BitVec 1} {w : BitVec (1 + n)} (h : w.getLsbD n = flag.getLsbD 0) :
    flag ++ w.extractLsb' 0 n = w := by
  refine BitVec.eq_of_getLsbD_eq fun k hk => ?_
  rw [BitVec.getLsbD_append]
  split
  case isTrue hlt => simp [hlt]
  case isFalse hge =>
    have hk : k = n := by omega
    rw [hk, Nat.sub_self, h]

/-- Which row of the table the fields of a match belong to (R76, R85). -/
theorem decodeRef_cases (pos : BitVec 12) (len : BitVec 4) :
    (len = 0#4 ∧ decodeRef pos len = .matchLen0 pos) ∨ (len = 1#4 ∧ decodeRef pos len = .matchLen1 pos) ∨
    (len = 2#4 ∧ decodeRef pos len = .matchLen2 pos) ∨
    (Config.minMatchSize < len.toNat ∧ decodeRef pos len = .matchRef pos len) := by
  unfold decodeRef
  split_ifs with h0 h1 h2
  · exact .inl ⟨h0, rfl⟩
  · exact .inr (.inl ⟨h1, rfl⟩)
  · exact .inr (.inr (.inl ⟨h2, rfl⟩))
  · refine .inr (.inr (.inr ⟨?_, rfl⟩))
    change 2 < len.toNat
    bv_omega

theorem decodeRef_of_legal {len : BitVec 4} (pos : BitVec 12) (h : Config.minMatchSize < len.toNat) :
    decodeRef pos len = .matchRef pos len := by
  rcases decodeRef_cases pos len with ⟨rfl, _⟩ | ⟨rfl, _⟩ | ⟨rfl, _⟩ | ⟨_, hrow⟩
  · exact absurd h (by decide)
  · exact absurd h (by decide)
  · exact absurd h (by decide)
  · exact hrow

theorem decodeRef_wf (pos : BitVec 12) (len : BitVec 4) : (decodeRef pos len).wf = true := by
  rcases decodeRef_cases pos len with ⟨_, h⟩ | ⟨_, h⟩ | ⟨_, h⟩ | ⟨hlen, h⟩ <;> rw [h]
  case inr.inr.inr => exact decide_eq_true hlen
  all_goals rfl

/-- Whatever its row, a match is encoded by its flag and its packed reference (R72, R76). -/
theorem encode_decodeRef (pos : BitVec 12) (len : BitVec 4) :
    encode (decodeRef pos len) = .t17 (1#1 ++ packRef pos len) := by
  rcases decodeRef_cases pos len with ⟨hlen, h⟩ | ⟨hlen, h⟩ | ⟨hlen, h⟩ | ⟨_, h⟩
  · rw [h, hlen, encode]
  · rw [h, hlen, encode]
  · rw [h, hlen, encode]
  · rw [h, encode]

theorem decode_refWord (pos : BitVec 12) (len : BitVec 4) :
    decode (.t17 (1#1 ++ packRef pos len)) = .ok (decodeRef pos len) := by
  have hflag : (1#1 ++ packRef pos len).getLsbD 16 = true := BitVec.getLsbD_append
  have hpayload : (1#1 ++ packRef pos len).extractLsb' 0 16 = packRef pos len := BitVec.extractLsb'_append_eq_right
  rw [decode, hflag, if_pos rfl, hpayload, refPos_packRef, refLen_packRef]

theorem decode_encode {i : Instr} (hwf : i.wf = true) : decode (encode i) = .ok i := by
  cases i with
  | lit data =>
    have hflag : (0#1 ++ data).getLsbD 8 = false := BitVec.getLsbD_append
    have hdata : (0#1 ++ data).extractLsb' 0 8 = data := BitVec.extractLsb'_append_eq_right
    rw [encode, decode, hflag, if_neg nofun, hdata, decodeLit]
  | matchRef pos len =>
    have hlen : Config.minMatchSize < len.toNat := of_decide_eq_true hwf
    rw [← decodeRef_of_legal pos hlen, encode_decodeRef, decode_refWord]
  | matchLen0 pos => exact decode_refWord pos 0#4
  | matchLen1 pos => exact decode_refWord pos 1#4
  | matchLen2 pos => exact decode_refWord pos 2#4
  | cmdEncode => rfl
  | cmdDecode => rfl

theorem encode_of_decode {c : Code} {i : Instr} (h : decode c = .ok i) : encode i = c ∧ i.wf = true := by
  cases c with
  | t9 w =>
    rw [decode] at h
    split at h
    case isTrue => cases h
    case isFalse hflag =>
      cases h
      exact ⟨congrArg Code.t9 (flag_append_payload (n := 8) (flag := 0#1) (Bool.eq_false_of_not_eq_true hflag)), rfl⟩
  | t17 w =>
    rw [decode] at h
    split at h
    case isTrue hflag =>
      cases h
      rw [encode_decodeRef, packRef_refPos_refLen]
      exact ⟨congrArg Code.t17 (flag_append_payload (n := 16) (flag := 1#1) hflag), decodeRef_wf _ _⟩
    case isFalse => cases h
  | cmd1 mode =>
    cases h
    revert mode
    decide

/-- Settles O3: on each side the flag tells the formats apart and the fields are put together and taken apart again. -/
theorem decodeAndEncodeAgree : Obligations.DecodeAndEncodeAgree :=
  ⟨fun _ => decode_encode, fun _ _ => encode_of_decode⟩

end Sys2Proof
end

section
/-! The bits of words and bytes: the two decoders agree on a token's bits, and a listing is read back from the bytes it
was packed into (20_memory.md R55, R56; 30_encoding.md R70, R74, R79, R83). -/

namespace Sys2Proof

/-! ### Numbers and their bits (R56) -/

@[simp] theorem length_msbBits (n v : Nat) : (msbBits n v).length = n := by
  induction n with
  | zero => rfl
  | succ n ih => rw [msbBits, List.length_cons, ih]

/-- The first `m` of `m + n` bits are the bits above the low `n`. -/
theorem msbBits_add (m n v : Nat) : msbBits (m + n) v = msbBits m (v >>> n) ++ msbBits n v := by
  induction m with
  | zero => rw [Nat.zero_add, msbBits, List.nil_append]
  | succ m ih => rw [Nat.succ_add, msbBits, msbBits, ih, Nat.testBit_shiftRight, Nat.add_comm n m, List.cons_append]

theorem ofBits_concat (bs : List Bool) (b : Bool) : ofBits (bs ++ [b]) = 2 * ofBits bs + b.toNat :=
  List.foldl_append

theorem ofBits_lt (bs : List Bool) : ofBits bs < 2 ^ bs.length := by
  induction bs using List.reverseRecOn with
  | nil => exact Nat.one_pos
  | append_singleton bs b ih =>
    have hb : b.toNat < 2 := b.toNat_lt
    rw [ofBits_concat, List.length_append, List.length_singleton, Nat.pow_succ]
    omega

/-- The last bit is the parity, those before it the half. -/
theorem msbBits_succ (n v : Nat) : msbBits (n + 1) v = msbBits n (v / 2) ++ [decide (v % 2 = 1)] := by
  rw [msbBits_add, Nat.shiftRight_one, msbBits, msbBits, Nat.testBit_zero]

theorem msbBits_ofBits (bs : List Bool) : msbBits bs.length (ofBits bs) = bs := by
  induction bs using List.reverseRecOn with
  | nil => rfl
  | append_singleton bs b ih =>
    have hb : b.toNat < 2 := b.toNat_lt
    have hhalf : (2 * ofBits bs + b.toNat) / 2 = ofBits bs := by omega
    have hparity : decide ((2 * ofBits bs + b.toNat) % 2 = 1) = b := by cases b <;> simp
    rw [ofBits_concat, List.length_append, List.length_singleton, msbBits_succ, hhalf, hparity, ih]

theorem ofBits_msbBits (n v : Nat) : ofBits (msbBits n v) = v % 2 ^ n := by
  induction n generalizing v with
  | zero => rw [Nat.pow_zero, Nat.mod_one]; rfl
  | succ n ih =>
    have hparity : (decide (v % 2 = 1)).toNat = v % 2 := by
      rcases Nat.mod_two_eq_zero_or_one v with h | h <;> rw [h] <;> rfl
    rw [msbBits_succ, ofBits_concat, ih, hparity, Nat.pow_succ', Nat.mod_mul, Nat.add_comm]

/-- A field of a bit sequence is read back as the value whose bits it has (R56). -/
theorem ofNat_ofBits_msbBits (n v : Nat) : BitVec.ofNat n (ofBits (msbBits n v)) = BitVec.ofNat n v := by
  rw [ofBits_msbBits]
  exact BitVec.eq_of_toNat_eq (by simp)

theorem takeZeroFilled_append {n : Nat} {bs : List Bool} (h : bs.length = n) (rest : List Bool) :
    takeZeroFilled n (bs ++ rest) = bs := by
  rw [takeZeroFilled, List.append_assoc, List.take_left' h]

theorem takeZeroFilled_of_length_le {n : Nat} {bs : List Bool} (h : bs.length ≤ n) :
    takeZeroFilled n bs = bs ++ List.replicate (n - bs.length) false := by
  rw [takeZeroFilled, List.take_append, List.take_of_length_le h, List.take_replicate, Nat.min_eq_left (Nat.sub_le _ _)]

/-! ### One token -/

theorem nextToken_litBits (data : Nat) (rest : List Bool) :
    nextToken (false :: (msbBits 8 data ++ rest)) = (decodeLit (BitVec.ofNat 8 data), rest) := by
  have hdrop : (msbBits 8 data ++ rest).drop 8 = rest := List.drop_left' (length_msbBits 8 data)
  simp only [nextToken, flagOf, List.headD_cons, List.drop_succ_cons, List.drop_zero, hdrop,
    takeZeroFilled_append (length_msbBits 8 data), ofNat_ofBits_msbBits]
  rfl

theorem nextToken_refBits (pos len : Nat) (rest : List Bool) :
    nextToken (true :: (msbBits 12 pos ++ (msbBits 4 len ++ rest))) =
      (decodeRef (BitVec.ofNat 12 pos) (BitVec.ofNat 4 len), rest) := by
  have hlen : (msbBits 12 pos ++ (msbBits 4 len ++ rest)).drop 12 = msbBits 4 len ++ rest :=
    List.drop_left' (length_msbBits 12 pos)
  have hrest : (msbBits 12 pos ++ (msbBits 4 len ++ rest)).drop 16 = rest := by
    rw [← List.append_assoc]
    exact List.drop_left' rfl
  simp only [nextToken, flagOf, List.headD_cons, List.drop_succ_cons, List.drop_zero, hlen, hrest,
    takeZeroFilled_append (length_msbBits _ _), ofNat_ofBits_msbBits]
  rfl

/-- The decoder of bits reads a token's word as the decoder of words does, and the flag tells how long the word is
(R74). -/
theorem head_of_decode {c : Code} {i : Instr} (ht : i.isToken = true) (h : decode c = .ok i) (rest : List Bool) :
    nextToken (c.bits ++ rest) = (i, rest) ∧ tokenLength (flagOf (c.bits ++ rest)) = c.width := by
  cases c with
  | t9 w =>
    rw [decode] at h
    split at h
    case isTrue => cases h
    case isFalse hflag =>
      cases h
      have hbits : (Code.t9 w).bits ++ rest = false :: (msbBits 8 w.toNat ++ rest) :=
        congrArg (· :: (msbBits 8 w.toNat ++ rest)) (Bool.eq_false_of_not_eq_true hflag)
      rw [hbits, nextToken_litBits]
      exact ⟨rfl, rfl⟩
  | t17 w =>
    rw [decode] at h
    split at h
    case isFalse => cases h
    case isTrue hflag =>
      cases h
      have hbits : (Code.t17 w).bits ++ rest =
          true :: (msbBits 12 (w.toNat >>> 4) ++ (msbBits 4 w.toNat ++ rest)) := by
        rw [← List.append_assoc, ← msbBits_add]
        exact congrArg (· :: (msbBits 16 w.toNat ++ rest)) hflag
      have hpos : BitVec.ofNat 12 (w.toNat >>> 4) = refPos (w.extractLsb' 0 16) :=
        BitVec.eq_of_getLsbD_eq fun k _ => by simp [refPos, BitVec.getLsbD]
      have hlen : BitVec.ofNat 4 w.toNat = refLen (w.extractLsb' 0 16) :=
        BitVec.eq_of_getLsbD_eq fun k hk => by simp [refLen, hk]
      rw [hbits, nextToken_refBits, hpos, hlen]
      exact ⟨rfl, rfl⟩
  | cmd1 mode =>
    cases h
    rcases Machine.cmdMode_cases mode with rfl | rfl
    · cases ht
    · cases ht

theorem decodeBits_of_whole {bits : List Bool} (h : tokenLength (flagOf bits) ≤ bits.length) :
    decodeBits bits = .ok (nextToken bits) := by
  cases bits with
  | nil => cases h
  | cons flag bs => exact if_neg (Nat.not_lt.mpr h)

@[simp] theorem Code.length_bits (c : Code) : c.bits.length = c.width := length_msbBits _ _

/-- The bits of a token are read as that token, whole, whatever follows them (R70, R74). -/
theorem head_of_token {i : Instr} (ht : i.isToken = true) (hwf : i.wf = true) (rest : List Bool) :
    nextToken ((encode i).bits ++ rest) = (i, rest) ∧
      tokenLength (flagOf ((encode i).bits ++ rest)) ≤ ((encode i).bits ++ rest).length := by
  obtain ⟨hnext, hlen⟩ := head_of_decode ht (decode_encode hwf) rest
  exact ⟨hnext, by rw [hlen, List.length_append, Code.length_bits]; exact Nat.le_add_right _ _⟩

/-- Settles O4: the bits decode as the word does, and the word is the token's. -/
theorem tokenBitsDecode : Obligations.TokenBitsDecode := by
  intro i rest ht hwf
  obtain ⟨hnext, hwhole⟩ := head_of_token ht hwf rest
  rw [decodeBits_of_whole hwhole, hnext]

/-! ### Packing into bytes (R55; 40_bitstream_writer.md R92, R93) -/

theorem msbBits_packedByte {bs : List Bool} (h : bs.length = 8) :
    msbBits 8 (BitVec.ofNat 8 (ofBits bs)).toNat = bs := by
  have hlt : ofBits bs < 2 ^ 8 := h ▸ ofBits_lt bs
  rw [BitVec.toNat_ofNat, Nat.mod_eq_of_lt hlt, ← h, msbBits_ofBits]

theorem bitsOfBytes_cons (b : Byte) (bytes : List Byte) :
    bitsOfBytes (b :: bytes) = msbBits 8 b.toNat ++ bitsOfBytes bytes := List.flatMap_cons

/-- The bytes hold the bits in order, and fewer than 8 padding zeros after them. -/
theorem bitsOfBytes_packBitsFrom (bits : List Bool) {held : List Bool} (h : held.length < 8) :
    ∃ k < 8, bitsOfBytes (packBitsFrom held bits) = held ++ bits ++ List.replicate k false := by
  induction bits generalizing held with
  | nil =>
    rw [packBitsFrom, List.append_nil]
    split
    case isTrue hnil => exact ⟨0, by decide, by rw [hnil]; rfl⟩
    case isFalse hne =>
      have hpos : 0 < held.length := List.length_pos_of_ne_nil hne
      have hpad := takeZeroFilled_of_length_le (Nat.le_of_lt h)
      have hfull : (takeZeroFilled 8 held).length = 8 := by
        rw [hpad, List.length_append, List.length_replicate]
        omega
      refine ⟨8 - held.length, by omega, ?_⟩
      rw [bitsOfBytes_cons, msbBits_packedByte hfull, hpad]
      exact List.append_nil _
  | cons b bs ih =>
    rw [packBitsFrom, List.append_cons held b bs]
    split
    case isTrue hfull =>
      obtain ⟨k, hk, hbits⟩ := ih (held := []) (by decide)
      refine ⟨k, hk, ?_⟩
      rw [bitsOfBytes_cons, msbBits_packedByte hfull, hbits, List.nil_append, ← List.append_assoc]
    case isFalse hmore =>
      rw [List.length_append, List.length_singleton] at hmore
      exact ih (by rw [List.length_append, List.length_singleton]; omega)

theorem bitsOfBytes_packBits (bits : List Bool) :
    ∃ k < 8, bitsOfBytes (packBits bits) = bits ++ List.replicate k false :=
  bitsOfBytes_packBitsFrom bits (held := []) (by decide)

/-! ### Listings (R79, R83) -/

theorem parseTokens_whole (fuel : Nat) {bits : List Bool} (h : tokenLength (flagOf bits) ≤ bits.length) :
    parseTokens (fuel + 1) bits = (nextToken bits).1 :: parseTokens fuel (nextToken bits).2 :=
  if_neg (Nat.not_lt.mpr h)

/-- Padding begins with flag 0 and is shorter than a literal, so it is dropped (R79). -/
theorem parseTokens_padding (fuel : Nat) {k : Nat} (h : k < 9) : parseTokens fuel (List.replicate k false) = [] := by
  have hflag : flagOf (List.replicate k false) = false := by cases k <;> rfl
  cases fuel with
  | zero => rfl
  | succ fuel =>
    rw [parseTokens, hflag, List.length_replicate]
    exact if_pos h

/-- Parsing a listing's bits takes one token a turn, and the padding gives none. -/
theorem parseTokens_listing {tokens : List Instr} (htokens : ∀ i ∈ tokens, i.isToken = true ∧ i.wf = true)
    {k fuel : Nat} (hk : k < 9) (hfuel : tokens.length ≤ fuel) :
    parseTokens fuel (tokens.flatMap (fun i => (encode i).bits) ++ List.replicate k false) = tokens := by
  induction tokens generalizing fuel with
  | nil => exact parseTokens_padding fuel hk
  | cons i tokens ih =>
    obtain ⟨hi, hrest⟩ := List.forall_mem_cons.mp htokens
    obtain ⟨hnext, hwhole⟩ := head_of_token hi.1 hi.2
      (tokens.flatMap (fun i => (encode i).bits) ++ List.replicate k false)
    cases fuel with
    | zero => cases hfuel
    | succ fuel =>
      rw [List.flatMap_cons, List.append_assoc, parseTokens_whole fuel hwhole, hnext,
        ih hrest (Nat.le_of_succ_le_succ hfuel)]

theorem Code.width_pos (c : Code) : 0 < c.width := by
  cases c <;> exact Nat.succ_pos _

/-- Every token has a bit, so there are no more tokens than bits. -/
theorem length_le_length_bits (tokens : List Instr) :
    tokens.length ≤ (tokens.flatMap fun i => (encode i).bits).length := by
  induction tokens with
  | nil => exact Nat.le_refl 0
  | cons i tokens ih =>
    have hi : 0 < (encode i).width := (encode i).width_pos
    rw [List.flatMap_cons, List.length_append, Code.length_bits, List.length_cons]
    omega

/-- Settles O5: the bytes hold the tokens' bits and fewer than 8 zeros, from which the parse takes the tokens, one a
turn, and drops the zeros. -/
theorem disassembleInvertsAssemble : Obligations.DisassembleInvertsAssemble := by
  intro tokens htokens
  obtain ⟨k, hk, hbits⟩ := bitsOfBytes_packBits (tokens.flatMap fun i => (encode i).bits)
  have hlen := length_le_length_bits tokens
  rw [disassemble, assemble, hbits]
  refine parseTokens_listing htokens (Nat.lt_succ_of_lt hk) ?_
  rw [List.length_append]
  omega

end Sys2Proof
end

section
/-! How a START and a table word reach `exec`, and the bounds of the token the encoder chooses (30_encoding.md R80, R81,
R83; 42_history_matchfinder.md R116; 44_decoder.md R151). -/

namespace Sys2Proof.Machine

theorem exec_command_of_busy {s : State} (hb : s.busy = true) :
    exec .cmdEncode s = .next s ∧ exec .cmdDecode s = .next s :=
  ⟨if_pos hb, if_pos hb⟩

/-- Settles O11: a START is dispatched by `cmd_mode`, and either command tests `busy`. -/
theorem startIsAcceptedOrIgnored : Obligations.StartIsAcceptedOrIgnored := by
  refine ⟨fun s hr hs hb => ⟨fun hm => ⟨?_, ?_⟩, fun hm => ⟨?_, ?_⟩⟩, fun s => step_of_ignored_start,
    fun s => exec_command_of_busy⟩
  · rw [step_of_start hr hs, hm]
    rfl
  · exact ⟨_, step_of_accepts_encode ⟨hr, hs, hb⟩ hm, rfl⟩
  · rw [step_of_start hr hs, hm]
    rfl
  · exact ⟨_, step_of_accepts_decode ⟨hr, hs, hb⟩ hm, rfl⟩

/-! ### Table words (log 10, log 11) -/

theorem decodeTableWord_of_command {nbits : Nat} (w : Nat) (h : nbits ≤ 8) :
    decodeTableWord nbits w = some (decodeCmd (BitVec.ofNat 1 w)) :=
  if_pos h

theorem decodeTableWord_of_token {nbits w : Nat} {i : Instr} (h : ¬nbits ≤ 8) (hi : decodeTableWord nbits w = some i) :
    ∃ rest, decodeBytes (packBits (tableBits nbits w)) = .ok (i, rest) := by
  rw [decodeTableWord, if_neg h] at hi
  split at hi
  case h_1 hdec =>
    cases hi
    exact ⟨_, hdec⟩
  case h_2 => cases hi

/-- Placing a command word puts a START in front of what the host drives. -/
theorem withFetchWord_of_command (s : State) {nbits : Nat} (w : Nat) (h : nbits ≤ 8) :
    s.withFetchWord nbits w = s.setHost (⟨none, true, BitVec.ofNat 1 w⟩ :: s.host) :=
  if_pos h

/-- `s` as a DECODE session that is about to read `bytes`, with a host that drives nothing in the coming step. -/
def State.decodingFrom (s : State) (bytes : List Byte) : State :=
  ((((s.setHost (.quiet :: s.host)).setPhase .decLoop).setMode .decode).setRd ⟨0, 0, false, s.rd.fetched⟩).setSrc
    ⟨bytes, none⟩

theorem withFetchWord_of_token (s : State) {nbits : Nat} (w : Nat) (h : ¬nbits ≤ 8) :
    s.withFetchWord nbits w = s.decodingFrom (packBits (tableBits nbits w)) :=
  if_neg h

theorem step_decodingFrom (s : State) {bytes : List Byte} {i : Instr} {rest : List Bool}
    (h : decodeBytes bytes = .ok (i, rest)) :
    ∃ t, step (s.decodingFrom bytes) = exec i t ∧ t.mem = s.mem ∧ t.snk = s.snk ∧ t.jobs = s.jobs ∧ t.host = s.host ∧
      t.rd.exh = false := by
  obtain ⟨t, hstep, -, hexh, -, ht⟩ :=
    stepRunsTheDecodedToken (s.decodingFrom bytes) i rest ⟨rfl, rfl⟩ rfl Reader.wf_empty rfl rfl h
  refine ⟨t, hstep, ?_, ?_, ?_, ?_, hexh⟩
  all_goals
    rw [ht]
    rfl

/-- Settles O31: a command word is a START, which the step dispatches; a token word stands at the cursor of a DECODE
session, whose step runs what the bits decode to. -/
theorem fetchWordRunsNext : Obligations.FetchWordRunsNext := by
  intro s nbits w i hi
  by_cases hn : nbits ≤ 8
  · rw [decodeTableWord_of_command w hn] at hi
    cases hi
    rw [withFetchWord_of_command s w hn, if_pos hn]
    exact ⟨_, step_of_start rfl rfl, rfl, rfl, rfl, rfl, rfl⟩
  · obtain ⟨rest, hdec⟩ := decodeTableWord_of_token hn hi
    rw [withFetchWord_of_token s w hn, if_neg hn]
    exact step_decodingFrom s hdec

/-! ### The match finder's result lies inside the history (R116) -/

theorem scanFrom_inside (look cand : List Byte) (i : Nat) {best : Nat × Nat}
    (hbest : best.1 + best.2 ≤ i + cand.length) :
    (scanFrom look i cand best).1 + (scanFrom look i cand best).2 ≤ i + cand.length := by
  induction cand generalizing i best with
  | nil => exact hbest
  | cons c cand ih =>
    have hrun : matchRun (c :: cand) look ≤ cand.length + 1 := runFrom_le_cand _ _ _
    rw [List.length_cons] at hbest ⊢
    rw [← Nat.add_assoc, Nat.add_right_comm]
    refine ih (i + 1) ?_
    split
    · change i + matchRun (c :: cand) look ≤ _
      omega
    · omega

theorem longestMatch_inside (m : Memory) : (longestMatch m).1 + (longestMatch m).2 ≤ m.hist.length :=
  Nat.zero_add m.hist.length ▸ scanFrom_inside m.look m.hist 0 (Nat.zero_le _)

/-- Settles O40: a match is chosen only when it is longer than 2, and it lies inside the history and the lookahead,
whose bounds make both fields fit. -/
theorem emittedTokensAreValid : Obligations.EmittedTokensAreValid := by
  intro s hinv _
  obtain ⟨hhist, hlook⟩ := hinv.memory
  have hinside := longestMatch_inside s.mem
  have hlen := longestMatch_len_le_look s.mem
  unfold encodedToken
  dsimp only
  split
  case isFalse => exact .inl ⟨_, rfl⟩
  case isTrue hlong =>
    refine .inr ⟨_, _, rfl, ?_⟩
    simp only [Config.dictionarySize, Config.maxMatchSize, Config.minMatchSize] at hhist hlook hlong
    have hpos : (BitVec.ofNat 12 (longestMatch s.mem).1).toNat = (longestMatch s.mem).1 :=
      (BitVec.toNat_ofNat _ _).trans (Nat.mod_eq_of_lt (by omega))
    have hlen' : (BitVec.ofNat 4 (longestMatch s.mem).2).toNat = (longestMatch s.mem).2 :=
      (BitVec.toNat_ofNat _ _).trans (Nat.mod_eq_of_lt (by omega))
    rw [hpos, hlen']
    omega

end Sys2Proof.Machine
end

section
/-! The bit writer appends the bits it is given, most significant first, and a flush completes the last byte with zeros
(10_state.md R28; 20_memory.md R55; 40_bitstream_writer.md R90 to R92; 60_exceptions.md R174, R178). -/

namespace Sys2Proof

/-! ### Bits -/

/-- The low `n` bits depend on those bits only. -/
theorem msbBits_congr {n v w : Nat} (h : ∀ k < n, v.testBit k = w.testBit k) : msbBits n v = msbBits n w := by
  induction n with
  | zero => rfl
  | succ n ih => rw [msbBits, msbBits, h n n.lt_succ_self, ih fun k hk => h k (Nat.lt_succ_of_lt hk)]

theorem msbBits_zero (n : Nat) : msbBits n 0 = List.replicate n false := by
  induction n with
  | zero => rfl
  | succ n ih => rw [msbBits, Nat.zero_testBit, ih, List.replicate_succ]

/-- A byte is its first `n` bits and the other `8 - n`. -/
theorem msbBits_byte {n : Nat} (h : n ≤ 8) (v : Nat) :
    msbBits 8 v = msbBits n (v >>> (8 - n)) ++ msbBits (8 - n) v := by
  rw [← msbBits_add, Nat.add_sub_cancel' h]

theorem take_msbBits_byte {n : Nat} (h : n ≤ 8) (v : Nat) : (msbBits 8 v).take n = msbBits n (v >>> (8 - n)) := by
  rw [msbBits_byte h, List.take_left' (length_msbBits _ _)]

theorem bitsOfBytes_concat (bytes : List Byte) (b : Byte) :
    bitsOfBytes (bytes ++ [b]) = bitsOfBytes bytes ++ msbBits 8 b.toNat := by
  rw [bitsOfBytes, List.flatMap_append, List.flatMap_singleton, bitsOfBytes]

@[simp] theorem length_bitsOfBytes (bytes : List Byte) : (bitsOfBytes bytes).length = 8 * bytes.length := by
  induction bytes with
  | nil => rfl
  | cons b bytes ih => rw [bitsOfBytes_cons, List.length_append, length_msbBits, ih, List.length_cons]; omega

end Sys2Proof

namespace Sys2Proof.Machine

/-! ### The pending bits (R28) -/

theorem assignBit_getLsbD (v : BitVec 8) {j k : Nat} (hj : j < 8) (b : Bool) :
    (assignBit v k b).getLsbD j = if j = k then b else v.getLsbD j := by
  by_cases hjk : j = k
  · cases b <;> simp [assignBit, ← hjk, hj, -BitVec.getLsbD_eq_getElem]
  · have hother : (1#8 <<< k).getLsbD j = false := by
      rw [← BitVec.twoPow_eq, BitVec.getLsbD_twoPow, decide_eq_false (Ne.symm hjk), Bool.and_false]
    cases b <;> simp [assignBit, hother, hjk, hj, -BitVec.getLsbD_eq_getElem]

theorem Writer.pending_of_empty {w : Writer} (hn : w.n = 0) : w.pending = [] := by
  rw [Writer.pending, hn, List.take_zero]

/-- With no bit pending the accumulator is zero. -/
theorem Writer.eq_empty {w : Writer} (h : w.wf) (hn : w.n = 0) : w = ⟨0, 0⟩ := by
  obtain ⟨acc, n⟩ := w
  cases hn
  exact congrArg (Writer.mk · 0) (BitVec.shiftLeft_zero acc ▸ h.2)

theorem Writer.length_pending {w : Writer} (h : w.wf) : w.pending.length = w.n := by
  rw [Writer.pending, List.length_take, length_msbBits]
  exact Nat.min_eq_left (Nat.le_succ_of_le h.1)

/-- The bit placed next is pending after the others. -/
theorem Writer.pending_assignBit {w : Writer} (h : w.n ≤ 7) (b : Bool) :
    Writer.pending ⟨assignBit w.acc (7 - w.n) b, w.n + 1⟩ = w.pending ++ [b] := by
  have hk : 7 - w.n < 8 := by omega
  have hsub : 8 - (w.n + 1) = 7 - w.n := by omega
  have hbefore : msbBits w.n ((assignBit w.acc (7 - w.n) b).toNat >>> (7 - w.n) >>> 1) =
      msbBits w.n (w.acc.toNat >>> (8 - w.n)) := by
    refine msbBits_congr fun k hkn => ?_
    have hlt : 7 - w.n + (1 + k) < 8 := by omega
    have hne : 7 - w.n + (1 + k) ≠ 7 - w.n := by omega
    have hpos : 8 - w.n + k = 7 - w.n + (1 + k) := by omega
    rw [Nat.testBit_shiftRight, Nat.testBit_shiftRight, Nat.testBit_shiftRight, BitVec.testBit_toNat,
      BitVec.testBit_toNat, assignBit_getLsbD _ hlt, if_neg hne, hpos]
  have hnew : msbBits 1 ((assignBit w.acc (7 - w.n) b).toNat >>> (7 - w.n)) = [b] := by
    rw [msbBits, msbBits, Nat.testBit_shiftRight, Nat.add_zero, BitVec.testBit_toNat, assignBit_getLsbD _ hk, if_pos rfl]
  rw [Writer.pending, Writer.pending, take_msbBits_byte (n := w.n + 1) (Nat.succ_le_succ h),
    take_msbBits_byte (Nat.le_succ_of_le h), hsub, msbBits_add, hbefore, hnew]

/-- The accumulator as a byte: the pending bits, then zeros. -/
theorem Writer.bits_acc {w : Writer} (h : w.wf) :
    msbBits 8 w.acc.toNat = w.pending ++ List.replicate (8 - w.n) false := by
  obtain ⟨hle, hz⟩ := h
  have hlow : msbBits (8 - w.n) w.acc.toNat = msbBits (8 - w.n) 0 := by
    refine msbBits_congr fun k hk => ?_
    have hbit := congrArg (BitVec.getLsbD · (w.n + k)) hz
    have hlt : w.n + k < 8 := by omega
    rw [BitVec.testBit_toNat, Nat.zero_testBit]
    simpa [BitVec.getLsbD_shiftLeft, hlt, -BitVec.getLsbD_eq_getElem] using hbit
  have hle8 : w.n ≤ 8 := Nat.le_succ_of_le hle
  rw [Writer.pending, take_msbBits_byte hle8, msbBits_byte hle8, hlow, msbBits_zero]

/-! ### What it is to write bits -/

/-- How many bytes a sink accepts in the whole session, if it fails at all (R59). -/
def Sink.capacity (q : Sink) : Option Nat := q.failAfter.map (q.out.length + ·)

/-- A byte accepted counts against what the sink has left. -/
theorem Sink.capacity_concat {q : Sink} (h : q.failAfter ≠ some 0) (b : Byte) :
    Sink.capacity ⟨q.out ++ [b], q.failAfter.map (· - 1)⟩ = q.capacity := by
  cases hf : q.failAfter with
  | none => simp [Sink.capacity, hf]
  | some k =>
    have hk : k ≠ 0 := fun hk => h (hk ▸ hf)
    have hlen : q.out.length + 1 + (k - 1) = q.out.length + k := by omega
    simp [Sink.capacity, hf, hlen]

/-- `t` is `s` after the writer has taken `bits` (R90, R91). -/
structure Writes (bits : List Bool) (s t : State) : Prop where
  wf : t.wr.wf
  written : t.written = s.written ++ bits
  out : s.snk.out <+: t.snk.out
  capacity : t.snk.capacity = s.snk.capacity
  frame : t = (s.setWr t.wr).setSnk t.snk

theorem Writes.nil {s : State} (h : s.wr.wf) : Writes [] s s where
  wf := h
  written := (List.append_nil _).symm
  out := List.prefix_rfl
  capacity := rfl
  frame := rfl

theorem Writes.trans {bits more : List Bool} {s t u : State} (h : Writes bits s t) (h' : Writes more t u) :
    Writes (bits ++ more) s u where
  wf := h'.wf
  written := by rw [h'.written, h.written, List.append_assoc]
  out := h.out.trans h'.out
  capacity := h'.capacity.trans h.capacity
  frame := h'.frame.trans (by rw [h.frame]; rfl)

theorem State.length_written {s : State} (h : s.wr.wf) : s.written.length = 8 * s.snk.out.length + s.wr.n := by
  rw [State.written, List.length_append, length_bitsOfBytes, Writer.length_pending h]

/-- The bytes the sink receives are those completed (R90). -/
theorem Writes.length_out {bits : List Bool} {s t : State} (h : Writes bits s t) (hs : s.wr.wf) :
    t.snk.out.length = s.snk.out.length + (s.wr.n + bits.length) / 8 := by
  have hlen := congrArg List.length h.written
  rw [List.length_append, State.length_written hs, State.length_written h.wf] at hlen
  have hn := h.wf.1
  omega

/-- `t` is `s` after the sink has refused a byte while `bits` were being written: what it has accepted is all it takes,
and the first of the bits (R91, R174). -/
structure StopsWriting (bits : List Bool) (s t : State) : Prop where
  phase : t.phase = .fault
  err : t.err = ⟨.ioSnk, 0, 0, s.rd.fetched⟩
  full : s.snk.capacity = some t.snk.out.length
  accepted : bitsOfBytes t.snk.out <+: s.written ++ bits

/-- What was still to be written is lost. -/
theorem StopsWriting.append {bits : List Bool} {s t : State} (h : StopsWriting bits s t) (more : List Bool) :
    StopsWriting (bits ++ more) s t where
  phase := h.phase
  err := h.err
  full := h.full
  accepted := List.append_assoc _ _ _ ▸ h.accepted.trans (List.prefix_append _ more)

theorem Writes.stops {bits more : List Bool} {s t u : State} (h : Writes bits s t) (h' : StopsWriting more t u) :
    StopsWriting (bits ++ more) s u where
  phase := h'.phase
  err := by rw [h'.err, h.frame]; rfl
  full := h.capacity ▸ h'.full
  accepted := List.append_assoc _ _ _ ▸ h.written ▸ h'.accepted

/-! ### The writer's operations -/

theorem writeBit_writes (b : Bool) {s : State} (h : s.wr.wf) :
    (writeBit b s).Ends (fun _ t => Writes [b] s t) (fun t => StopsWriting [b] s t) := by
  have hpending := Writer.pending_assignBit h.1 b
  rcases writeBit_cases b s with ⟨hn, hw⟩ | ⟨hn, he, hw⟩ | ⟨hn, he, hw⟩ <;> rw [hw]
  · exact
      { wf := Writer.wf_assignBit h hn b
        written := by simp [State.written, hpending]
        out := List.prefix_rfl
        capacity := rfl
        frame := rfl }
  · have hsnk := (faultEntry_of_ioSnk (s.setWr ⟨assignBit s.wr.acc 0 b, 8⟩)).2
    exact
      { phase := rfl
        err := faultEntry_err .ioSnk _
        full := by simp [hsnk, Sink.capacity, he]
        accepted := by simp [hsnk, State.written] }
  · rw [hn] at hpending
    exact
      { wf := Writer.wf_empty
        written := by
          change bitsOfBytes (s.snk.out ++ [_]) ++ [] = bitsOfBytes s.snk.out ++ s.wr.pending ++ [b]
          rw [List.append_nil, bitsOfBytes_concat, List.append_assoc, ← hpending]
          rfl
        out := List.prefix_append _ _
        capacity := Sink.capacity_concat he _
        frame := rfl }

/-- BW.WRITEBITS takes the low `n` bits in order, unless the sink refuses a byte on the way (R91). -/
theorem writeBits_writes (value : BitVec 16) (n : Nat) {s : State} (h : s.wr.wf) :
    (writeBits value n s).Ends (fun _ t => Writes (msbBits n value.toNat) s t)
      (fun t => StopsWriting (msbBits n value.toNat) s t) := by
  induction n generalizing s with
  | zero => exact .nil h
  | succ k ih =>
    refine Res.Ends.bind ((writeBit_writes _ h).mono (fun _ _ ht => ht) fun _ ht => ht.append _) fun _ u hu => ?_
    exact (ih hu.wf).mono (fun _ _ ht => hu.trans ht) fun _ ht => hu.stops ht

/-- Settles O22: a sink that never fails has no capacity to exhaust, so all the bits are taken, and counting bits counts
the sink writes. -/
theorem writeBitsAppendsBits : Obligations.WriteBitsAppendsBits := by
  intro value n s _ hwf hsink
  have hcap : s.snk.capacity = none := by rw [Sink.capacity, hsink]; rfl
  have hends := writeBits_writes value n hwf
  cases hw : writeBits value n s <;> rw [hw] at hends
  case ok t =>
    have hlen := hends.length_out hwf
    rw [length_msbBits] at hlen
    exact ⟨t, rfl, hends.written, hends.wf, hlen, hends.out, Option.map_eq_none_iff.mp (hends.capacity.trans hcap),
      hends.frame⟩
  case raised t => cases hcap.symm.trans hends.full
  all_goals exact hends.elim

/-- Settles O23: were all the bits taken, the sink would hold more bytes than it accepts; so it has refused one, after
accepting its `k`. -/
theorem writeBitsStopsAtSinkFailure : Obligations.WriteBitsStopsAtSinkFailure := by
  intro value n k s _ hwf hsink hmore
  have hcap : s.snk.capacity = some (s.snk.out.length + k) := by rw [Sink.capacity, hsink]; rfl
  have hends := writeBits_writes value n hwf
  cases hw : writeBits value n s <;> rw [hw] at hends
  case ok t =>
    have hlen := hends.length_out hwf
    rw [length_msbBits] at hlen
    obtain ⟨left, -, hleft⟩ := Option.map_eq_some_iff.mp (hends.capacity.trans hcap)
    omega
  case raised t =>
    have hlen : t.snk.out.length = s.snk.out.length + k := Option.some.inj (hends.full.symm.trans hcap)
    have htake := List.prefix_iff_eq_take.mp hends.accepted
    rw [length_bitsOfBytes] at htake
    exact ⟨t, rfl, hends.phase, hends.err, hlen, htake⟩
  all_goals exact hends.elim

/-- Settles O24: the accumulator goes out as a byte, which is the pending bits and the zeros below them; an empty one
has nothing to send. -/
theorem flushPadsWithZeros : Obligations.FlushPadsWithZeros := by
  intro s hwf hsink
  rcases flushWriter_cases s with ⟨hn, hw⟩ | ⟨_, he, _⟩ | ⟨hn, _, hw⟩
  · have hwr : s.wr = ⟨0, 0⟩ := Writer.eq_empty hwf hn
    have hsnk : s.snk = ⟨s.snk.out, none⟩ := hsink ▸ rfl
    exact ⟨s, hw, by simp [State.written, Writer.pending_of_empty hn, hn], hwr, fun _ => rfl, hw, hsnk ▸ rfl⟩
  · simp [hsink] at he
  · have hpad : (8 - s.wr.n) % 8 = 8 - s.wr.n := by omega
    rw [hsink] at hw
    refine ⟨_, hw, ?_, rfl, fun hz => absurd hz hn.ne', rfl, rfl⟩
    change bitsOfBytes (s.snk.out ++ [s.wr.acc]) = _
    rw [bitsOfBytes_concat, Writer.bits_acc hwf, hpad, State.written, List.append_assoc]

end Sys2Proof.Machine
end

section
/-! BR.READBITS as a whole: how far it moves the reader, and where it stops on a source that fails
(41_bitstream_reader.md R100, R101, R104; 60_exceptions.md R173). -/

namespace Sys2Proof.Machine

/-! ### One bit -/

@[simp] theorem takeBit_rd_n (s : State) : (takeBit s).2.rd.n = s.rd.n - 1 := by
  unfold takeBit
  split
  case isTrue => rfl
  case isFalse hn =>
    have hzero : s.rd.n = 0 := Nat.eq_zero_of_not_pos hn
    rw [hzero]

@[simp] theorem takeBit_rd_exh (s : State) : (takeBit s).2.rd.exh = s.rd.exh := by
  unfold takeBit
  split <;> rfl

@[simp] theorem takeBit_rd_fetched (s : State) : (takeBit s).2.rd.fetched = s.rd.fetched := by
  unfold takeBit
  split <;> rfl

@[simp] theorem takeBit_src (s : State) : (takeBit s).2.src = s.src := by rw [takeBit_frame]; rfl

/-- A reader that holds a bit, or is exhausted, does not fetch (R101, R102). -/
theorem readBit_of_no_fetch {s : State} (h : ¬(s.rd.n = 0 ∧ s.rd.exh = false)) :
    readBit s = .ok (takeBit s).1 (takeBit s).2 := by
  rw [readBit, if_neg h, Res.bind_ok]

/-- An empty reader that is not exhausted does (R101, R104). -/
theorem readBit_of_fetch {s : State} (hn : s.rd.n = 0) (hx : s.rd.exh = false) :
    readBit s = (fetchByte s).bind fun _ u => .ok (takeBit u).1 (takeBit u).2 := by
  rw [readBit, if_pos ⟨hn, hx⟩]

/-! ### No whole byte stays in the reader (R104) -/

theorem readBit_n_le {s : State} (h : s.rd.n ≤ 8) : (readBit s).Ends (fun _ t => t.rd.n ≤ 7) (fun _ => True) := by
  refine Res.Ends.bind (P := fun _ u => u.rd.n ≤ 8) ?_ fun _ u hu => ?_
  · split
    · rcases fetchByte_cases s with ⟨_, hf⟩ | ⟨_, _, hf⟩ | ⟨_, _, _, _, hf⟩ <;> rw [hf]
      · trivial
      · exact Nat.zero_le 8
      · exact Nat.le_refl 8
    · exact h
  · exact (takeBit_rd_n u).trans_le (Nat.sub_le_sub_right hu 1)

theorem readBitsFrom_n_le (v : BitVec 16) (n : Nat) {s : State} (h : s.rd.n ≤ 8) (hzero : n = 0 → s.rd.n ≤ 7) :
    (readBitsFrom v n s).Ends (fun _ t => t.rd.n ≤ 7) (fun _ => True) := by
  induction n generalizing s v with
  | zero => exact hzero rfl
  | succ k ih => exact Res.Ends.bind (readBit_n_le h) fun _ _ h1 => ih _ (Nat.le_succ_of_le h1) fun _ => h1

/-- Settles O25: the bits delivered are the next of the stream, at most 16 of them, so their value fits the result; the
operation writes the reader and the source only. -/
theorem readBitsDeliversTheStream : Obligations.ReadBitsDeliversTheStream := by
  intro n s hn hwf herr hended
  obtain ⟨t, hread, ht⟩ := readBits_delivers n ⟨hwf, hended, herr⟩
  have hvalue : ofBits (takeZeroFilled n s.unread) < 2 ^ 16 := by
    have hlen : (takeZeroFilled n s.unread).length ≤ 16 := Nat.le_trans (List.length_take_le _ _) hn
    exact Nat.lt_of_lt_of_le (ofBits_lt _) (Nat.pow_le_pow_right Nat.two_pos hlen)
  have hcursor : 0 < n → t.rd.n ≤ 7 := fun hpos => by
    have hends := readBitsFrom_n_le 0#16 n hwf.1 fun hzero => absurd hzero hpos.ne'
    rwa [← readBits, hread] at hends
  have hframe := readBits_post n s
  rw [hread] at hframe
  obtain ⟨r, q, rfl⟩ := hframe
  have hsrc : q = ⟨q.bytes, none⟩ := congrArg (Source.mk q.bytes) ht.canRead.errAt
  exact ⟨_, _, hread, (BitVec.toNat_ofNat _ _).trans (Nat.mod_eq_of_lt hvalue), ht.unread, ht.exh, ht.canRead.wf,
    hcursor, ht.fetched, congrArg (s.setRd r).setSrc hsrc⟩

/-! ### A source that fails -/

/-- The source fails `k` bits after the cursor, with `R.fetched` then at `offset` and the bytes `rest` never given: the
bits held, and those of the bytes before the failure (R58). -/
structure State.FailsAfter (k : Nat) (offset : BitVec 32) (rest : List Byte) (s : State) : Prop where
  exh : s.rd.exh = false
  error : ∃ e, s.src.errAt = some e ∧ e ≤ s.src.bytes.length ∧ s.rd.n + 8 * e = k ∧
    s.rd.fetched + BitVec.ofNat 32 e = offset ∧ s.src.bytes.drop e = rest

section
variable {k : Nat} {offset : BitVec 32} {rest : List Byte} {s : State}

/-- Taking a bit that is held brings the cursor one bit closer to the failure. -/
theorem State.FailsAfter.takeBit (h : s.FailsAfter (k + 1) offset rest) (hn : 0 < s.rd.n) :
    (takeBit s).2.FailsAfter k offset rest := by
  obtain ⟨hx, e, herr, hle, hbits, hoffset, hrest⟩ := h
  have hleft : s.rd.n - 1 + 8 * e = k := by omega
  exact ⟨by simp [hx], e, by simp [herr], by simpa using hle, by simpa using hleft, by simpa using hoffset,
    by simpa using hrest⟩

/-- An empty reader that is bits away from the failure is refilled by a byte before it (R100). -/
theorem fetchByte_failsAfter (h : s.FailsAfter (k + 1) offset rest) (hn : s.rd.n = 0) :
    ∃ u, fetchByte s = .ok () u ∧ u.FailsAfter (k + 1) offset rest ∧ 0 < u.rd.n := by
  obtain ⟨hx, e, herr, hle, hbits, hoffset, hrest⟩ := h
  obtain ⟨e, rfl⟩ : ∃ e', e = e' + 1 := ⟨e - 1, by omega⟩
  rcases fetchByte_cases s with ⟨he, _⟩ | ⟨_, hb, _⟩ | ⟨b, bs, _, hb, hf⟩
  · simp [herr] at he
  · simp [hb] at hle
  · rw [hb] at hle hrest
    rw [herr] at hf
    have hbits : 8 + 8 * e = k + 1 := by omega
    have hcount : s.rd.fetched + 1 + BitVec.ofNat 32 e = offset := by
      rw [← hoffset, Nat.add_comm e 1, BitVec.ofNat_add, BitVec.add_assoc]
      rfl
    exact ⟨_, hf, ⟨hx, e, rfl, Nat.le_of_succ_le_succ hle, hbits, hcount, hrest⟩, Nat.succ_pos 7⟩

/-- Before the failure a bit is delivered. -/
theorem readBit_before_failure (h : s.FailsAfter (k + 1) offset rest) :
    ∃ b t, readBit s = .ok b t ∧ t.FailsAfter k offset rest := by
  cases Nat.eq_zero_or_pos s.rd.n with
  | inl hn =>
    obtain ⟨u, hf, hu, hpos⟩ := fetchByte_failsAfter h hn
    exact ⟨_, _, by rw [readBit_of_fetch hn h.exh, hf, Res.bind_ok], hu.takeBit hpos⟩
  | inr hn => exact ⟨_, _, readBit_of_no_fetch fun hc => hn.ne' hc.1, h.takeBit hn⟩

/-- At the failure the bit asked for is not delivered (R100, R173). -/
theorem readBit_at_failure (h : s.FailsAfter 0 offset rest) :
    readBit s = .raised (faultEntry .ioSrc s) ∧ s.rd.fetched = offset ∧ s.src.bytes = rest := by
  obtain ⟨hx, e, herr, -, hbits, hoffset, hrest⟩ := h
  obtain ⟨hn, rfl⟩ : s.rd.n = 0 ∧ e = 0 := by omega
  refine ⟨?_, by simpa using hoffset, hrest⟩
  rcases fetchByte_cases s with ⟨_, hf⟩ | ⟨he, _⟩ | ⟨_, _, he, _⟩
  · rw [readBit_of_fetch hn hx, hf, Res.bind_raised]
  · exact absurd herr he
  · exact absurd herr he

/-- When more bits are asked for than come before the failure, the loop reaches it. -/
theorem readBitsFrom_of_failsAfter (v : BitVec 16) {n : Nat} (hlt : k < n) (h : s.FailsAfter k offset rest) :
    ∃ t, readBitsFrom v n s = .raised t ∧ t.rd.fetched = offset ∧ t.src.bytes = rest := by
  induction n generalizing s v k with
  | zero => cases hlt
  | succ m ih =>
    cases k with
    | zero =>
      obtain ⟨hraise, hoffset, hrest⟩ := readBit_at_failure h
      exact ⟨_, by rw [readBitsFrom, hraise, Res.bind_raised], by simpa using hoffset, by simpa using hrest⟩
    | succ j =>
      obtain ⟨b, u, hbit, hu⟩ := readBit_before_failure h
      obtain ⟨t, hread, ht⟩ := ih _ (Nat.lt_of_succ_lt_succ hlt) hu
      exact ⟨t, by rw [readBitsFrom, hbit, Res.bind_ok]; exact hread, ht⟩

end

/-- Settles O26: the loop reaches the failure, and what it has changed by then is the reader and the source. -/
theorem readBitsStopsAtSourceFailure : Obligations.ReadBitsStopsAtSourceFailure := by
  intro n e s _ _ hexh herr hle hlt
  have hfails : s.FailsAfter (s.rd.n + 8 * e) (s.rd.fetched + BitVec.ofNat 32 e) (s.src.bytes.drop e) :=
    ⟨hexh, e, herr, hle, rfl, rfl, rfl⟩
  obtain ⟨t, hread, hoffset, hrest⟩ := readBitsFrom_of_failsAfter 0#16 hlt hfails
  have hframe := readBits_post n s
  rw [readBits, hread] at hframe
  obtain ⟨r, q, rfl⟩ := hframe
  refine ⟨_, hread, rfl, ?_, by simp, hrest, fun hm => ?_⟩
  · rw [faultEntry_err, ← hoffset, faultEntry_rd]
    rfl
  · exact (faultEntry_of_decode (s := (s.setRd r).setSrc q) hm).2

end Sys2Proof.Machine
end

section
/-! The end of the input is final: once `R.exh` or `E.eof` is set, the session fetches no further byte
(10_state.md R30, R32; 41_bitstream_reader.md R102). -/

namespace Sys2Proof.Machine

/-! ### The decoder -/

/-- The token stream has ended, and this is what the reader has fetched and left (R30). -/
structure State.Exhausted (fetched : BitVec 32) (left : Source) (s : State) : Prop where
  exh : s.rd.exh = true
  fetched : s.rd.fetched = fetched
  src : s.src = left

section
variable {fetched : BitVec 32} {left : Source} {s t : State}

/-- Whatever leaves the reader and the source alone. -/
theorem State.Exhausted.of_kept (h : s.Exhausted fetched left) (hrd : t.rd = s.rd) (hsrc : t.src = s.src) :
    t.Exhausted fetched left :=
  ⟨hrd ▸ h.exh, hrd ▸ h.fetched, hsrc ▸ h.src⟩

theorem readBits_exhausted (n : Nat) (h : s.Exhausted fetched left) :
    (readBits n s).Ends (fun _ t => t.Exhausted fetched left) (fun _ => False) := by
  unfold readBits
  generalize 0#16 = v
  induction n generalizing s v with
  | zero => exact h
  | succ k ih =>
    rw [readBitsFrom, readBit_of_no_fetch (by simp [h.exh]), Res.bind_ok]
    exact ih ⟨by simp [h.exh], by simp [h.fetched], by simp [h.src]⟩ _

theorem fetchToken_exhausted (h : s.Exhausted fetched left) :
    (fetchToken s).Ends (fun _ t => t.Exhausted fetched left) (fun _ => False) := by
  refine Res.Ends.bind (P := fun _ t => t.Exhausted fetched left)
    (Res.Ends.bind (readBits_exhausted 1 h) fun _ _ h1 => h1) fun flag s1 h1 => ?_
  cases flag with
  | true =>
    refine Res.Ends.bind (P := fun _ t => t.Exhausted fetched left)
      (Res.Ends.bind (readBits_exhausted 12 h1) fun _ _ h2 => h2.of_kept rfl rfl) fun _ s2 h2 => ?_
    exact Res.Ends.bind (P := fun _ t => t.Exhausted fetched left)
      (Res.Ends.bind (readBits_exhausted 4 h2) fun _ _ h3 => h3.of_kept rfl rfl) fun _ _ h3 => h3
  | false =>
    exact Res.Ends.bind (P := fun _ t => t.Exhausted fetched left)
      (Res.Ends.bind (readBits_exhausted 8 h1) fun _ _ h2 => h2) fun _ _ h2 => h2

end

theorem execLit_keeps_reader {data : BitVec 8} {s t : State} (ht : execLit data s = .next t) :
    t.rd = s.rd ∧ t.src = s.src := by
  rcases execLit_cases data s with ⟨_, h⟩ | ⟨_, _, h⟩ | ⟨_, _, h⟩ <;> rw [h] at ht <;> cases ht <;> simp

theorem execRef_keeps_reader {pos : BitVec 12} {len : BitVec 4} {s t : State} (ht : execRef pos len s = .next t) :
    t.rd = s.rd ∧ t.src = s.src := by
  rcases execRef_cases pos len s with ⟨_, h⟩ | ⟨_, _, h⟩ | ⟨_, _, h⟩ <;> rw [h] at ht
  · cases ht
    simp
  · cases ht
    simp
  · refine Res.Post.of_outcome (Q := fun t => t.rd = s.rd ∧ t.src = s.src)
      (Res.Post.bind ((copyLoop_post len.toNat _).mono (fun _ _ hu => hu) ?_) ?_) ht
    · rintro _ ⟨_, ⟨c, m, k, rfl⟩, rfl⟩
      simp
    · rintro _ _ ⟨c, m, k, rfl⟩
      split <;> exact ⟨rfl, rfl⟩

/-- The execution of a token reads no bit (44_decoder.md R152, R153). -/
theorem exec_keeps_reader {i : Instr} (hi : i.isToken = true) {s t : State} (ht : exec i s = .next t) :
    t.rd = s.rd ∧ t.src = s.src := by
  rcases exec_of_isToken hi s with ⟨data, he⟩ | ⟨pos, len, he⟩ <;> rw [he] at ht
  · exact execLit_keeps_reader ht
  · exact execRef_keeps_reader ht

theorem decToken_exhausted {fetched : BitVec 32} {left : Source} {s t : State} (h : s.Exhausted fetched left)
    (ht : decToken s = .next t) : t.Exhausted fetched left := by
  have hfetch := fetchToken_exhausted h
  rcases decToken_next ht with ⟨i, u, hi, hf, hu⟩ | hf <;> rw [hf] at hfetch
  · obtain ⟨hrd, hsrc⟩ := exec_keeps_reader hi hu
    exact State.Exhausted.of_kept hfetch hrd hsrc
  · exact hfetch.elim

/-! ### The encoder -/

/-- The plaintext has ended, and this is what is left of the source (R32). -/
structure State.InputEnded (left : Source) (s : State) : Prop where
  eof : s.enc.eof = true
  src : s.src = left

section
variable {left : Source} {s t : State}

/-- Whatever leaves the flags and the source alone. -/
theorem State.InputEnded.of_kept (h : s.InputEnded left) (henc : t.enc = s.enc) (hsrc : t.src = s.src) :
    t.InputEnded left :=
  ⟨henc ▸ h.eof, hsrc ▸ h.src⟩

theorem State.InputEnded.faultEntry (h : s.InputEnded left) (code : ErrCode) :
    (faultEntry code s).InputEnded left := h.of_kept (by simp) (by simp)

theorem encFinish_inputEnded (h : s.InputEnded left) :
    (encFinish s).Post (fun _ t => t.InputEnded left) (State.InputEnded left) := by
  rcases encFinish_cases s with ⟨_, hf⟩ | ⟨_, _, hf⟩ | ⟨_, _, hf⟩ <;> rw [hf]
  · exact h.of_kept rfl rfl
  · exact h.faultEntry _
  · exact h.of_kept rfl rfl

/-- Priming has nothing to do once the input has ended (R131). -/
theorem primeLoop_of_eof (n : Nat) (h : s.enc.eof = true) : primeLoop n s = .ok () s := by
  cases n with
  | zero => rfl
  | succ k => simp [primeLoop, h]

theorem encPrime_inputEnded (h : s.InputEnded left) :
    (encPrime s).Post (fun _ t => t.InputEnded left) (State.InputEnded left) := by
  rw [encPrime, primeLoop_of_eof _ h.eof, Res.bind_ok]
  dsimp only
  split
  · exact ⟨h.eof, h.src⟩
  · exact encFinish_inputEnded ⟨h.eof, h.src⟩

/-- An advance after the end of the input only pops (R135). -/
theorem encAdvance_inputEnded (h : s.InputEnded left) :
    (encAdvance s).Post (fun _ t => t.InputEnded left) (State.InputEnded left) := by
  rcases encAdvance_cases s with ⟨_, ha⟩ | ⟨_, _, _, he, _⟩ | ⟨_, _, _, _, ha⟩ | ⟨_, _, _, _, _, he, _⟩
  · rw [ha]
    trivial
  · simp [h.eof] at he
  · rw [ha]
    exact ⟨rfl, h.src⟩
  · simp [h.eof] at he

theorem advanceTimes_inputEnded (n : Nat) (h : s.InputEnded left) :
    (advanceTimes n s).Post (fun _ t => t.InputEnded left) (State.InputEnded left) := by
  induction n generalizing s with
  | zero => exact h
  | succ k ih => exact Res.Post.bind (encAdvance_inputEnded h) fun _ _ h1 => ih h1

/-- The token encoder works on the writer and the sink, which are no part of the input. -/
theorem Res.Post.inputEnded_of_writer {r : Res Unit} (h : s.InputEnded left)
    (hr : r.Post (fun _ t => ∃ w k, t = (s.setWr w).setSnk k)
      (fun t => ∃ w k, t = faultEntry .ioSnk ((s.setWr w).setSnk k))) :
    r.Post (fun _ t => t.InputEnded left) (State.InputEnded left) := by
  refine hr.mono ?_ ?_
  · rintro _ _ ⟨w, k, rfl⟩
    exact h.of_kept rfl rfl
  · rintro _ ⟨w, k, rfl⟩
    exact State.InputEnded.faultEntry (s := (s.setWr w).setSnk k) (h.of_kept rfl rfl) _

theorem encStep_inputEnded (h : s.InputEnded left) :
    (encStep s).Post (fun _ t => t.InputEnded left) (State.InputEnded left) := by
  have hsearch : (searchRef s).InputEnded left := h.of_kept rfl rfl
  refine Res.Post.bind (P := fun _ t => t.InputEnded left) ?_ fun _ s3 h3 => ?_
  · split
    · exact Res.Post.bind (.inputEnded_of_writer hsearch (emitMatch_post _).post) fun _ _ h2 =>
        advanceTimes_inputEnded _ h2
    · exact Res.Post.bind (.inputEnded_of_writer hsearch (emitLit_post _)) fun _ _ h2 => encAdvance_inputEnded h2
  · split
    · exact encFinish_inputEnded h3
    · exact h3

end

/-! ### A step -/

/-- Only the decoder works on the reader, so it is the only one that could clear `R.exh`, and it fetches nothing. -/
theorem sequencerStep_of_exh {s t : State} (ht : sequencerStep s = .next t) (hx : s.rd.exh = true) :
    t.rd.exh = true ∧ (s.phase = .decLoop → t.src = s.src ∧ t.rd.fetched = s.rd.fetched) := by
  by_cases hp : s.phase = .decLoop
  · rw [sequencerStep_of_decLoop hp] at ht
    obtain ⟨hexh, hfetched, hsrc⟩ := decToken_exhausted ⟨hx, rfl, rfl⟩ ht
    exact ⟨hexh, fun _ => ⟨hsrc, hfetched⟩⟩
  · refine ⟨?_, fun hd => absurd hd hp⟩
    rcases sequencerStep_cases ht with ⟨_, rfl⟩ | ⟨_, u, hu, hend⟩ | ⟨hd, _⟩
    · exact hx
    · obtain ⟨-, hrd, -⟩ := hend.kept
      rw [hrd, hu.rd, hx]
    · exact absurd hd hp

/-- Only the encoder works on `E`, and once `E.eof` is set it fetches nothing. -/
theorem sequencerStep_of_eof {s t : State} (ht : sequencerStep s = .next t) (he : s.enc.eof = true) :
    t.enc.eof = true ∧ (s.phase = .encPrime ∨ s.phase = .encLoop → t.src = s.src) := by
  have hended : s.InputEnded s.src := ⟨he, rfl⟩
  rcases sequencerStep_cases ht with ⟨_, rfl⟩ | ⟨hp, _⟩ | ⟨hd, u, hu, hend⟩
  · exact ⟨he, fun _ => rfl⟩
  · have hkept : t.InputEnded s.src := by
      rcases hp with hp | hp
      · rw [sequencerStep_of_encPrime hp] at ht
        exact (encPrime_inputEnded hended).of_outcome ht
      · rw [sequencerStep_of_encLoop hp] at ht
        exact (encStep_inputEnded hended).of_outcome ht
    exact ⟨hkept.eof, fun _ => hkept.src⟩
  · obtain ⟨-, -, henc, -⟩ := hend.kept
    refine ⟨by rw [henc, hu.enc, he], fun hp => ?_⟩
    simp [hd] at hp

/-- Settles O51: an ignored START changes nothing, and the sequencer keeps both signals and fetches no byte after
them. -/
theorem endOfSourceIsSticky : Obligations.EndOfSourceIsSticky := by
  intro s t ht hr ha
  rcases ignored_or_quiet_of_not_accepts hr ha with ⟨hs, hb⟩ | hq
  · rw [step_of_ignored_start hr hs hb] at ht
    cases ht
    exact ⟨fun hx => ⟨hx, fun _ => ⟨rfl, rfl⟩⟩, fun he => ⟨he, fun _ => rfl⟩⟩
  · rw [step_of_quiet hq] at ht
    exact ⟨sequencerStep_of_exh (s := s.popHost) ht, sequencerStep_of_eof (s := s.popHost) ht⟩

end Sys2Proof.Machine
end

section
/-! The accesses to the two memories, the lookahead's ends and the history's occupancy (20_memory.md R61;
42_history_matchfinder.md R110, R111, R121 to R123). -/

namespace Sys2Proof.Machine

/-- Settles O33: LA.APPEND by what it does to the lookahead below and at its capacity, LA.POP by what it can do. -/
theorem lookaheadAppendAndPop : Obligations.LookaheadAppendAndPop := by
  refine ⟨fun m b h => ?_, fun m b h => ?_, fun s h => ?_⟩
  · exact congrArg (Memory.mk m.hist) (Memory.append_look_of_lt b h)
  · exact congrArg (Memory.mk m.hist) (Memory.append_look_of_full b h)
  · rcases laPop_cases s with ⟨hl, _⟩ | ⟨b, l, hl, hp⟩
    · exact absurd hl (List.ne_nil_of_length_pos h)
    · rw [hp, hl, List.tail_cons]

theorem histByteAt_of_lt {i : Nat} {s : State} (h : i < s.mem.hist.length) : histByteAt i s = .ok s.mem.hist[i] s := by
  rw [histByteAt, List.getElem?_eq_getElem h]

theorem histByteAt_of_le {i : Nat} {s : State} (h : s.mem.hist.length ≤ i) :
    histByteAt i s = .refused (.historyIndex i) := by
  rw [histByteAt, List.getElem?_eq_none h]

theorem laByteAt_of_lt {k : Nat} {s : State} (h : k < s.mem.look.length) : laByteAt k s = .ok s.mem.look[k] s := by
  rw [laByteAt, List.getElem?_eq_getElem h]

theorem laByteAt_of_le {k : Nat} {s : State} (h : s.mem.look.length ≤ k) :
    laByteAt k s = .refused (.lookaheadIndex k) := by
  rw [laByteAt, List.getElem?_eq_none h]

/-- Settles O34: each access is decided by whether the sequence has a byte at the index. -/
theorem boundsCheckedReads : Obligations.BoundsCheckedReads := by
  refine fun s i => ⟨histByteAt_of_lt, histByteAt_of_le, laByteAt_of_lt, laByteAt_of_le, fun hl => ?_⟩
  rw [laPop, hl]

/-- An eviction makes room for the byte appended and takes no more (R110). -/
theorem length_le_evict_concat (capacity : Nat) (l : List Byte) (b : Byte) :
    l.length ≤ (evict capacity (l ++ [b])).length := by
  unfold evict
  split <;> simp

theorem dataRel_occupancy : DataRel fun s t => s.mem.hist.length ≤ t.mem.hist.length where
  registers := fun hmem _ _ => hmem ▸ Nat.le_refl _
  trans := Nat.le_trans
  push := fun s b => length_le_evict_concat Config.dictionarySize s.mem.hist b
  append := fun _ _ => Nat.le_refl _
  pop := fun _ => Nat.le_refl _
  consume := fun _ _ => Nat.le_refl _
  accept := fun _ => Nat.le_refl _

/-- Settles O53: of the changes a session makes only HB.PUSH touches the history, and it evicts at most one byte for the
one it appends. -/
theorem occupancyNeverDecreases : Obligations.OccupancyNeverDecreases :=
  fun _ _ => dataRel_occupancy.step

end Sys2Proof.Machine
end

section
/-! The match finder: the scan keeps the oldest of the longest runs among the candidates seen, and nothing can displace a
run as long as the lookahead (42_history_matchfinder.md R114 to R117). -/

namespace Sys2Proof.Machine

/-! ### Stopping early (R117) -/

/-- A run as long as the lookahead stays the best. -/
theorem scanFrom_of_full {look : List Byte} {best : Nat × Nat} (hfull : best.2 = look.length) (i : Nat)
    (cand : List Byte) : scanFrom look i cand best = best := by
  induction cand generalizing i with
  | nil => rfl
  | cons c cand ih =>
    have hrun : ¬best.2 < matchRun (c :: cand) look := Nat.not_lt.mpr (hfull ▸ runFrom_le_look _ _ _)
    rw [scanFrom, if_neg hrun, ih]

theorem scanEarly_eq_scanFrom (look : List Byte) (i : Nat) (cand : List Byte) (best : Nat × Nat) :
    scanEarly look i cand best = scanFrom look i cand best := by
  induction cand generalizing i best with
  | nil => rfl
  | cons c cand ih =>
    by_cases hfull : best.2 = look.length
    · rw [scanEarly, if_pos hfull, scanFrom_of_full hfull]
    · rw [scanEarly, if_neg hfull, scanFrom, ih]

/-- Settles O36. -/
theorem earlyStopChangesNothing : Obligations.EarlyStopChangesNothing := fun m =>
  scanEarly_eq_scanFrom m.look 0 m.hist (0, 0)

/-! ### The longest and oldest run (R115, R116) -/

/-- A run ends only where a buffer ends, the bytes differ or the comparisons run out. -/
theorem le_runFrom {fuel j : Nat} {cand look : List Byte} (hfuel : j ≤ fuel) (hcand : j ≤ cand.length)
    (hlook : j ≤ look.length) (h : ∀ k < j, cand[k]? = look[k]?) : j ≤ runFrom fuel cand look := by
  induction j generalizing fuel cand look with
  | zero => exact Nat.zero_le _
  | succ j ih =>
    obtain ⟨fuel, rfl⟩ := Nat.exists_eq_add_of_lt hfuel
    obtain ⟨c, cand, rfl⟩ := List.exists_cons_of_length_pos (Nat.zero_lt_of_lt hcand)
    obtain ⟨l, look, rfl⟩ := List.exists_cons_of_length_pos (Nat.zero_lt_of_lt hlook)
    have hhead : c = l := Option.some.inj (h 0 (Nat.zero_lt_succ j))
    have htail : j ≤ runFrom (j + fuel) cand look :=
      ih (Nat.le_add_right j fuel) (Nat.le_of_succ_le_succ hcand) (Nat.le_of_succ_le_succ hlook)
        fun k hk => h (k + 1) (Nat.succ_lt_succ hk)
    rw [runFrom_cons, if_pos hhead]
    exact Nat.succ_le_succ htail

/-- `best` is what R115 asks for among the candidates below index `i`. -/
structure BestBelow (m : Memory) (i : Nat) (best : Nat × Nat) : Prop where
  agree : ∀ k < best.2, m.hist[best.1 + k]? = m.look[k]?
  longest : ∀ e < i, matchRun (m.hist.drop e) m.look ≤ best.2
  oldest : ∀ e < i, matchRun (m.hist.drop e) m.look = best.2 → 0 < best.2 → best.1 ≤ e
  reached : best.1 ≤ i
  noMatch : best.2 = 0 → best.1 = 0

theorem BestBelow.zero (m : Memory) : BestBelow m 0 (0, 0) where
  agree := nofun
  longest := nofun
  oldest := nofun
  reached := Nat.le_refl 0
  noMatch := fun _ => rfl

/-- One more candidate: only a longer run displaces the best (R114). -/
theorem BestBelow.next {m : Memory} {i : Nat} {best : Nat × Nat} (h : BestBelow m i best) :
    BestBelow m (i + 1)
      (if best.2 < matchRun (m.hist.drop i) m.look then (i, matchRun (m.hist.drop i) m.look) else best) := by
  split
  case isTrue hlonger =>
    refine ⟨fun k hk => ?_, fun e he => ?_, fun e he hrun _ => ?_, Nat.le_succ i, fun hz => ?_⟩
    · exact List.getElem?_drop ▸ runFrom_agree _ _ _ k hk
    · rcases Nat.lt_succ_iff_lt_or_eq.mp he with hlt | rfl
      · exact (h.longest e hlt).trans hlonger.le
      · exact Nat.le_refl _
    · rcases Nat.lt_succ_iff_lt_or_eq.mp he with hlt | rfl
      · exact absurd hrun ((h.longest e hlt).trans_lt hlonger).ne
      · exact Nat.le_refl _
    · exact absurd hz (Nat.zero_lt_of_lt hlonger).ne'
  case isFalse hshorter =>
    refine ⟨h.agree, fun e he => ?_, fun e he hrun hpos => ?_, Nat.le_succ_of_le h.reached, h.noMatch⟩
    · rcases Nat.lt_succ_iff_lt_or_eq.mp he with hlt | rfl
      · exact h.longest e hlt
      · exact Nat.not_lt.mp hshorter
    · rcases Nat.lt_succ_iff_lt_or_eq.mp he with hlt | rfl
      · exact h.oldest e hlt hrun hpos
      · exact h.reached

theorem BestBelow.scanFrom {m : Memory} (cand : List Byte) {i : Nat} {best : Nat × Nat} (h : BestBelow m i best)
    (hcand : m.hist.drop i = cand) : BestBelow m (i + cand.length) (scanFrom m.look i cand best) := by
  induction cand generalizing i best with
  | nil => exact h
  | cons c cand ih =>
    have hrest : m.hist.drop (i + 1) = cand := by rw [← List.tail_drop, hcand, List.tail_cons]
    rw [List.length_cons, Nat.add_comm cand.length, ← Nat.add_assoc, Machine.scanFrom, ← hcand]
    exact ih h.next hrest

theorem longestMatch_bestBelow (m : Memory) : BestBelow m m.hist.length (longestMatch m) :=
  Nat.zero_add m.hist.length ▸ (BestBelow.zero m).scanFrom m.hist rfl

/-- Settles O35: the scan has seen every candidate, and a run inside both buffers is no longer than what the scan
measures at its index. -/
theorem longestMatchIsLongestAndOldest : Obligations.LongestMatchIsLongestAndOldest := by
  intro m hlook
  have hbest := longestMatch_bestBelow m
  have hinside := longestMatch_inside m
  have hlen := longestMatch_len_le_look m
  refine ⟨hlen, hlen.trans hlook, fun hpos => by omega, hinside, hbest.agree, fun i j hi hj hagree => ?_, hbest.noMatch⟩
  rcases Nat.eq_zero_or_pos j with rfl | hpos
  · exact ⟨Nat.zero_le _, fun _ h => absurd h (Nat.lt_irrefl 0)⟩
  · have hlt : i < m.hist.length := by omega
    have hfuel : j ≤ Config.maxMatchSize + 1 := Nat.le_succ_of_le (hj.trans hlook)
    have hdrop : j ≤ (m.hist.drop i).length := by rw [List.length_drop]; omega
    have hrun : j ≤ matchRun (m.hist.drop i) m.look :=
      le_runFrom hfuel hdrop hj fun k hk => List.getElem?_drop ▸ hagree k hk
    have hmax := hbest.longest i hlt
    exact ⟨hrun.trans hmax, fun heq h => hbest.oldest i hlt (hmax.antisymm (heq ▸ hrun)) (heq ▸ h)⟩

end Sys2Proof.Machine
end

section
/-! HB.COPYRANGE byte by byte: the index stays on the same byte of all bytes so far, evicted ones included, and a byte
the sink refuses has been pushed (42_history_matchfinder.md R112, R113; 60_exceptions.md R174). -/

namespace Sys2Proof.Machine

/-! ### The bytes a copy produces -/

/-- The byte a copy produces after `k` others (R112). -/
def copiedByte (h : List Byte) (start k : Nat) : Byte := h.getD (start + k % (h.length - start)) 0

theorem copiedBytes_succ (h : List Byte) (start k : Nat) :
    copiedBytes h start (k + 1) = copiedBytes h start k ++ [copiedByte h start k] := by
  rw [copiedBytes, List.range_succ, List.map_append]
  rfl

@[simp] theorem length_copiedBytes (h : List Byte) (start n : Nat) : (copiedBytes h start n).length = n := by
  rw [copiedBytes, List.length_map, List.length_range]

theorem take_copiedBytes (h : List Byte) (start : Nat) {k n : Nat} (hk : k ≤ n) :
    (copiedBytes h start n).take k = copiedBytes h start k := by
  rw [copiedBytes, ← List.map_take, List.take_range, Nat.min_eq_left hk, copiedBytes]

/-- The copy reads what it has produced once it is past the end of the history it began with (R112). -/
theorem getElem?_append_copiedBytes {h : List Byte} {start : Nat} (hstart : start < h.length) (k : Nat) :
    (h ++ copiedBytes h start k)[start + k]? = some (copiedByte h start k) := by
  unfold copiedByte
  rcases Nat.lt_or_ge (start + k) h.length with hlt | hge
  · have hmod : k % (h.length - start) = k := Nat.mod_eq_of_lt (by omega)
    rw [List.getElem?_append_left hlt, hmod, List.getD_eq_getElem?_getD, List.getElem?_eq_getElem hlt, Option.getD_some]
  · have hperiod : h.length - start ≤ k := by omega
    have hback : start + k - h.length = k - (h.length - start) := by omega
    have hmod : k % (h.length - start) = (k - (h.length - start)) % (h.length - start) := Nat.mod_eq_sub_mod hperiod
    have hlt : k - (h.length - start) < k := by omega
    rw [List.getElem?_append_right hge, hback, hmod, copiedBytes, List.getElem?_map, List.getElem?_range hlt,
      Option.map_some]

/-! ### The loop -/

/-- `t` is `s` after `k` bytes of the copy from `start` that `s` begins. -/
structure Copied (start k : Nat) (s t : State) : Prop where
  hist : t.mem.hist = lastBytes Config.dictionarySize (s.mem.hist ++ copiedBytes s.mem.hist start k)
  index : t.copy.idx + (s.mem.hist.length + k - Config.dictionarySize) = start + k
  rem : t.copy.rem = s.copy.rem - k
  out : t.snk.out = s.snk.out ++ copiedBytes s.mem.hist start k
  capacity : t.snk.capacity = s.snk.capacity
  frame : CopyFrame s t

/-- `t` is `s` after `k` bytes of the copy from `start` and one more, which the sink has refused (R174). -/
def StopsCopying (start k : Nat) (s t : State) : Prop :=
  ∃ u, Copied start k s u ∧ u.snk.failAfter = some 0 ∧
    t = faultEntry .ioSnk (u.setMem (u.mem.push (copiedByte s.mem.hist start k)))

theorem Copied.zero {s : State} (hcap : s.mem.hist.length ≤ Config.dictionarySize) :
    Copied s.copy.idx 0 s s where
  hist := by
    change s.mem.hist = lastBytes _ (s.mem.hist ++ [])
    rw [List.append_nil, lastBytes_of_length_le hcap]
  index := by omega
  rem := rfl
  out := (List.append_nil _).symm
  capacity := rfl
  frame := ⟨s.copy, s.mem.hist, s.snk, rfl⟩

section
variable {start k : Nat} {s t : State}

theorem Copied.length_hist (h : Copied start k s t) :
    t.mem.hist.length + (s.mem.hist.length + k - Config.dictionarySize) = s.mem.hist.length + k := by
  rw [h.hist, lastBytes, List.length_drop, List.length_append, length_copiedBytes]
  omega

theorem Copied.read (h : Copied start k s t) (hstart : start < s.mem.hist.length) :
    t.mem.hist[t.copy.idx]? = some (copiedByte s.mem.hist start k) := by
  rw [h.hist, lastBytes, List.getElem?_drop, List.length_append, length_copiedBytes, Nat.add_comm _ t.copy.idx, h.index]
  exact getElem?_append_copiedBytes hstart k

/-- The history with the next byte pushed, whether or not the sink accepts it (R112). -/
theorem Copied.hist_push (h : Copied start k s t) :
    (t.mem.push (copiedByte s.mem.hist start k)).hist =
      lastBytes Config.dictionarySize (s.mem.hist ++ copiedBytes s.mem.hist start (k + 1)) := by
  rw [Memory.push, h.hist, evict_lastBytes, List.append_assoc, copiedBytes_succ]

/-- What the sink has left. -/
theorem Copied.failAfter (h : Copied start k s t) {total : Nat} (hs : s.snk.failAfter = some total) :
    ∃ left, t.snk.failAfter = some left ∧ k + left = total := by
  have hcap : t.snk.capacity = some (s.snk.out.length + total) := by rw [h.capacity, Sink.capacity, hs, Option.map_some]
  obtain ⟨left, hleft, hsum⟩ := Option.map_eq_some_iff.mp hcap
  rw [h.out, List.length_append, length_copiedBytes] at hsum
  exact ⟨left, hleft, by omega⟩

/-- One byte more, or the sink refuses it; the index moves only when nothing is evicted (R112, R113). -/
theorem Copied.copyByte (h : Copied start k s t) (hstart : start < s.mem.hist.length) :
    (copyByte t).Ends (fun _ u => Copied start (k + 1) s u) (StopsCopying start k s) := by
  have hread := h.read hstart
  rcases copyByte_cases t with ⟨hl, _⟩ | ⟨b, hb, he, hc⟩ | ⟨b, hb, he, hc⟩
  · rw [List.getElem?_eq_none hl] at hread
    cases hread
  · obtain rfl := Option.some.inj (hb.symm.trans hread)
    rw [hc]
    exact ⟨t, h, he, rfl⟩
  · obtain rfl := Option.some.inj (hb.symm.trans hread)
    rw [hc]
    have hindex := h.index
    have hlen := h.length_hist
    have hle : t.mem.hist.length ≤ Config.dictionarySize := h.hist ▸ length_lastBytes_le _ _
    have hnext : (if t.mem.hist.length = Config.dictionarySize then t.copy.idx else t.copy.idx + 1) +
        (s.mem.hist.length + (k + 1) - Config.dictionarySize) = start + (k + 1) := by
      generalize Config.dictionarySize = capacity at hindex hlen hle
      split <;> omega
    exact
      { hist := h.hist_push
        index := hnext
        rem := by
          change t.copy.rem - 1 = _
          rw [h.rem, Nat.sub_sub]
        out := by
          change t.snk.out ++ [_] = _
          rw [h.out, List.append_assoc, copiedBytes_succ]
        capacity := (Sink.capacity_concat he _).trans h.capacity
        frame := h.frame.trans ⟨_, _, _, rfl⟩ }

theorem Copied.copyLoop (n : Nat) (h : Copied start k s t) (hstart : start < s.mem.hist.length) :
    (copyLoop n t).Ends (fun _ u => Copied start (k + n) s u) (fun u => ∃ j < k + n, StopsCopying start j s u) := by
  induction n generalizing k t with
  | zero => exact h
  | succ n ih =>
    have hlt : k < k + (n + 1) := by omega
    refine Res.Ends.bind ((h.copyByte hstart).mono (fun _ _ hu => hu) fun _ hu => ⟨k, hlt, hu⟩) fun _ u hu => ?_
    rw [Nat.add_comm n 1, ← Nat.add_assoc]
    exact ih hu

end

/-- HB.COPYRANGE from inside the history copies all its bytes, or all up to the one the sink refuses (R112, R174). -/
theorem copyRange_copied {start : Nat} (n : Nat) {s : State} (hstart : start < s.mem.hist.length)
    (hcap : s.mem.hist.length ≤ Config.dictionarySize) :
    (copyRange start n s).Ends (fun _ t => Copied start n (s.setCopy ⟨start, n⟩) t)
      (fun t => ∃ j < n, StopsCopying start j (s.setCopy ⟨start, n⟩) t) := by
  have hloop := (Copied.zero (s := s.setCopy ⟨start, n⟩) hcap).copyLoop n hstart
  rw [Nat.zero_add] at hloop
  exact hloop

/-! ### A sink that refuses a byte (R174, R178) -/

theorem faultEntry_ioSnk (s : State) :
    faultEntry .ioSnk s = (s.setErr ⟨.ioSnk, 0, 0, s.rd.fetched⟩).setPhase .fault := by
  obtain ⟨hwr, hsnk⟩ := faultEntry_of_ioSnk s
  rw [faultEntry_frame, hwr, hsnk, faultEntry_err]
  rfl

/-- Settles O18: the copy stops where the sink has accepted the `k` bytes it takes, with the next one pushed, and fault
entry after a refused byte writes the error registers and `PHASE` only. -/
theorem matchStopsAtSinkFailure : Obligations.MatchStopsAtSinkFailure := by
  intro pos len s k hlen hpos hcap hfail hk
  have hcopy := copyRange_copied (s := s.setRef ⟨pos, len⟩) len.toNat hpos hcap
  rcases execRef_cases pos len s with ⟨hshort, _⟩ | ⟨_, hout, _⟩ | ⟨_, _, hexec⟩
  · exact absurd hlen (Nat.not_lt.mpr hshort)
  · exact absurd hpos (Nat.not_lt.mpr hout)
  · change execMatch pos len s = _ at hexec
    cases hres : copyRange pos.toNat len.toNat (s.setRef ⟨pos, len⟩) <;> rw [hres] at hcopy hexec
    case ok t =>
      obtain ⟨left, -, hsum⟩ := hcopy.failAfter hfail
      omega
    case raised t =>
      obtain ⟨j, -, u, hu, hfull, rfl⟩ := hcopy
      obtain ⟨left, hleft, hsum⟩ := hu.failAfter hfail
      obtain rfl : left = 0 := Option.some.inj (hleft.symm.trans hfull)
      obtain rfl : j = k := hsum
      rw [faultEntry_ioSnk] at hexec
      refine ⟨_, hexec, rfl, ?_, ?_, ?_, ?_⟩
      · obtain ⟨c, h, q, rfl⟩ := hu.frame
        rfl
      · rw [take_copiedBytes _ _ hk.le]
        exact hu.out
      · rw [take_copiedBytes _ _ hk]
        exact hu.hist_push
      · obtain ⟨c, h, ⟨out, failAfter⟩, rfl⟩ := hu.frame
        cases hfull
        rfl
    all_goals exact hcopy.elim

end Sys2Proof.Machine
end

section
/-! Where an ENCODE session begins: an accepted `CMD.ENCODE`, and ENC.PRIME on a source that does not fail and on one that
does (43_encoder.md R130, R131; 60_exceptions.md R173, R175). -/

namespace Sys2Proof.Machine

/-- Settles O9: START takes the values of `startSession`, whose copy engine is drawn within its ranges. -/
theorem encodeCommandStartsASession : Obligations.EncodeCommandStartsASession := by
  intro s hbusy
  obtain ⟨hidx, hrem⟩ := drawn_copyRange s.draws
  exact ⟨_, exec_cmdEncode_of_not_busy hbusy, rfl, rfl, rfl, rfl, rfl, rfl, rfl, rfl, rfl, rfl, rfl,
    Nat.le_of_lt_succ hidx, hrem⟩

/-! ### The loop of ENC.PRIME -/

/-- `s` after `bytes` have gone from the source into the lookahead and the source is left as `left`. -/
def State.taking (s : State) (bytes : List Byte) (left : Source) : State :=
  (s.setMem ⟨s.mem.hist, s.mem.look ++ bytes⟩).setSrc left

theorem State.taking_nil (s : State) : s.taking [] s.src = s := by
  rw [State.taking, List.append_nil]
  rfl

theorem State.taking_taking (s : State) (bytes more : List Byte) (left left' : Source) :
    (s.taking bytes left).taking more left' = s.taking (bytes ++ more) left' := by
  simp only [State.taking, State.setSrc_mem, State.setMem_mem, List.append_assoc]
  rfl

section
variable {n : Nat} {s : State}

/-- While the lookahead has room and the source has a byte, the loop takes it (R131). -/
theorem primeLoop_takes {b : Byte} {bs : List Byte} (hroom : s.mem.look.length < Config.maxMatchSize)
    (he : s.enc.eof = false) (hsrc : s.src.errAt ≠ some 0) (hb : s.src.bytes = b :: bs) :
    primeLoop (n + 1) s = primeLoop n (s.taking [b] ⟨bs, s.src.errAt.map (· - 1)⟩) := by
  rcases primeLoop_succ n s with ⟨hstop, _⟩ | ⟨_, _, ⟨h0, _⟩ | ⟨_, hnil, _⟩ | ⟨c, cs, _, hc, h⟩⟩
  · exact absurd ⟨hroom, he⟩ hstop
  · exact absurd h0 hsrc
  · cases hnil.symm.trans hb
  · cases hc.symm.trans hb
    have happend : s.mem.append b = ⟨s.mem.hist, s.mem.look ++ [b]⟩ :=
      congrArg (Memory.mk s.mem.hist) (Memory.append_look_of_lt b hroom)
    rw [h, laAppend, State.setSrc_mem, happend]
    rfl

/-- A source that has run out without a failure ends the loop with `E.eof` set (R131, R175). -/
theorem primeLoop_of_empty (hroom : s.mem.look.length < Config.maxMatchSize) (he : s.enc.eof = false)
    (hsrc : s.src.errAt ≠ some 0) (hb : s.src.bytes = []) :
    primeLoop (n + 1) s = .ok () (s.setEnc ⟨true, s.enc.more⟩) := by
  rcases primeLoop_succ n s with ⟨hstop, _⟩ | ⟨_, _, ⟨h0, _⟩ | ⟨_, _, h⟩ | ⟨c, cs, _, hc, _⟩⟩
  · exact absurd ⟨hroom, he⟩ hstop
  · exact absurd h0 hsrc
  · rw [h, primeLoop_of_eof n rfl]
  · cases hc.symm.trans hb

/-- With a turn for each byte the lookahead lacks, the loop fills it or takes all there is. -/
theorem primeLoop_of_no_error (hfuel : s.mem.look.length + n = Config.maxMatchSize) (he : s.enc.eof = false)
    (hsrc : s.src.errAt = none) :
    primeLoop n s = .ok () ((s.taking (s.src.bytes.take n) ⟨s.src.bytes.drop n, none⟩).setEnc
      ⟨decide (s.src.bytes.length < n), s.enc.more⟩) := by
  induction n generalizing s with
  | zero =>
    have hleft : s.src = ⟨s.src.bytes, none⟩ := hsrc ▸ rfl
    have henc : s.enc = ⟨false, s.enc.more⟩ := he ▸ rfl
    rw [List.take_zero, List.drop_zero, ← hleft, State.taking_nil, decide_eq_false (Nat.not_lt_zero _), ← henc]
    rfl
  | succ n ih =>
    have hroom : s.mem.look.length < Config.maxMatchSize := by omega
    have hsrc0 : s.src.errAt ≠ some 0 := by simp [hsrc]
    cases hb : s.src.bytes with
    | nil =>
      have hleft : s.src = ⟨[], none⟩ := hb ▸ hsrc ▸ rfl
      rw [primeLoop_of_empty hroom he hsrc0 hb, List.take_nil, List.drop_nil, ← hleft, State.taking_nil]
      rfl
    | cons b bs =>
      have hfuel' : (s.mem.look ++ [b]).length + n = Config.maxMatchSize := by
        rw [List.length_append, List.length_singleton]
        omega
      rw [primeLoop_takes hroom he hsrc0 hb, hsrc, Option.map_none,
        ih (s := s.taking [b] ⟨bs, none⟩) hfuel' he rfl, State.taking_taking,
        List.length_cons, decide_eq_decide.mpr Nat.succ_lt_succ_iff]
      rfl

/-- A source that fails before the lookahead is full ends the loop with the bytes before the failure taken (R173). -/
theorem primeLoop_of_error {e : Nat} (hfuel : s.mem.look.length + n = Config.maxMatchSize) (he : s.enc.eof = false)
    (hsrc : s.src.errAt = some e) (hlen : e ≤ s.src.bytes.length) (hlt : e < n) :
    primeLoop n s = .raised (faultEntry .ioSrc (s.taking (s.src.bytes.take e) ⟨s.src.bytes.drop e, some 0⟩)) := by
  induction n generalizing s e with
  | zero => cases hlt
  | succ n ih =>
    have hroom : s.mem.look.length < Config.maxMatchSize := by omega
    cases e with
    | zero =>
      have hleft : s.src = ⟨s.src.bytes, some 0⟩ := hsrc ▸ rfl
      rw [List.take_zero, List.drop_zero, ← hleft, State.taking_nil]
      rcases primeLoop_succ n s with ⟨hstop, _⟩ | ⟨_, _, ⟨_, h⟩ | ⟨h0, _⟩ | ⟨_, _, h0, _⟩⟩
      · exact absurd ⟨hroom, he⟩ hstop
      · exact h
      · exact absurd hsrc h0
      · exact absurd hsrc h0
    | succ e =>
      obtain ⟨b, bs, hb⟩ := List.exists_cons_of_length_pos (Nat.zero_lt_of_lt hlen)
      have hsrc0 : s.src.errAt ≠ some 0 := by simp [hsrc]
      have hfuel' : (s.mem.look ++ [b]).length + n = Config.maxMatchSize := by
        rw [List.length_append, List.length_singleton]
        omega
      rw [hb] at hlen
      rw [primeLoop_takes hroom he hsrc0 hb, hsrc, Option.map_some, Nat.add_sub_cancel,
        ih (s := s.taking [b] ⟨bs, some e⟩) hfuel' he rfl (Nat.le_of_succ_le_succ hlen) (Nat.lt_of_succ_lt_succ hlt),
        State.taking_taking, hb]
      rfl

end

/-! ### ENC.PRIME -/

/-- ENC.FINISH with nothing pending only ends the session (R136). -/
theorem encFinish_of_empty {s : State} (hn : s.wr.n = 0) : encFinish s = .ok () (s.setPhase .done) := by
  rcases encFinish_cases s with ⟨_, h⟩ | ⟨hpos, _⟩ | ⟨hpos, _⟩
  · exact h
  · exact absurd hn hpos.ne'
  · exact absurd hn hpos.ne'

/-- ENC.PRIME after its loop: `E.more` is set and decides between ENC_LOOP and the end (R131). -/
theorem encPrime_of_loop {s t : State} {more : Bool} (hloop : primeLoop Config.maxMatchSize s = .ok () t)
    (hmore : t.mem.moreData = more) :
    encPrime s = if more = true then .ok () ((t.setEnc ⟨t.enc.eof, more⟩).setPhase .encLoop)
      else encFinish (t.setEnc ⟨t.enc.eof, more⟩) := by
  subst hmore
  rw [encPrime, hloop]
  rfl

/-- What ENC.PRIME makes of a state with an empty lookahead and writer. -/
theorem encPrime_of_no_error {s : State} (hlook : s.mem.look = []) (hwr : s.wr.n = 0) (he : s.enc.eof = false)
    (hsrc : s.src.errAt = none) :
    encPrime s = .ok () (((s.taking (s.src.bytes.take 15) ⟨s.src.bytes.drop 15, none⟩).setEnc
      ⟨decide (s.src.bytes.length < 15), decide (s.src.bytes ≠ [])⟩).setPhase
        (if s.src.bytes = [] then .done else .encLoop)) := by
  have hmore : (Memory.mk s.mem.hist (s.mem.look ++ s.src.bytes.take 15)).moreData = decide (s.src.bytes ≠ []) := by
    rw [Memory.moreData, hlook, List.nil_append, decide_eq_decide, List.length_pos_iff, ne_eq, List.take_eq_nil_iff]
    simp
  have hloop := primeLoop_of_no_error (n := Config.maxMatchSize) (by rw [hlook]; rfl) he hsrc
  rw [encPrime_of_loop hloop hmore]
  by_cases hnil : s.src.bytes = []
  · rw [if_neg (by simp [hnil]), if_pos hnil]
    exact encFinish_of_empty hwr
  · rw [if_pos (by simp [hnil]), if_neg hnil]
    rfl

/-- Settles O37: before ENC.PRIME the memories, the writer and the flags are as START has left them (R130). -/
theorem primeFillsTheLookahead : Obligations.PrimeFillsTheLookahead := by
  intro s hinv hp hsrc
  obtain ⟨hmem, hwr, henc, -⟩ := hinv.primed hp
  have hprime := encPrime_of_no_error (s := s) (by rw [hmem]) (by rw [hwr]) (by rw [henc]) hsrc
  rw [State.taking, hmem, List.nil_append] at hprime
  exact ⟨_, hprime, rfl, rfl, rfl, rfl, rfl⟩

/-- Fault entry has nothing to flush when no bit is pending (60_exceptions.md R178). -/
theorem faultEntry_snk_of_empty (code : ErrCode) {s : State} (hn : s.wr.n = 0) : (faultEntry code s).snk = s.snk := by
  simp [faultEntry, faultFlush, hn]

/-- Settles O38: the loop stops at the failure, and the writer has nothing to flush. -/
theorem primeStopsAtSourceFailure : Obligations.PrimeStopsAtSourceFailure := by
  intro s e hinv hp hsrc hlen hlt
  obtain ⟨hmem, hwr, henc, -⟩ := hinv.primed hp
  have hrd := hinv.encodeReader (hinv.encodeMode (.inl hp))
  have hloop := primeLoop_of_error (n := Config.maxMatchSize) (by rw [hmem]; rfl) (by rw [henc]) hsrc hlen hlt
  refine ⟨_, by rw [encPrime, hloop, Res.bind_raised], rfl, ?_, ?_, ?_⟩
  · rw [faultEntry_err]
    change ErrRegs.mk .ioSrc 0 0 s.rd.fetched = _
    rw [hrd]
  · exact faultEntry_snk_of_empty _ (congrArg Writer.n hwr)
  · rw [faultEntry_mem]
    change Memory.mk s.mem.hist (s.mem.look ++ s.src.bytes.take e) = _
    rw [hmem, List.nil_append]

end Sys2Proof.Machine
end

section
/-! ENC.ADVANCE and its repetition as moves of a window along the plaintext: the lookahead is the first 15 bytes not yet
encoded, and what leaves it has been pushed into the history (20_memory.md R52; 43_encoder.md R132, R135, R137;
60_exceptions.md R173). -/

namespace Sys2Proof.Machine

/-- What was dropped before the last bytes pushed does not come back. -/
theorem lastBytes_lastBytes_append (n : Nat) (l m : List Byte) :
    lastBytes n (lastBytes n l ++ m) = lastBytes n (l ++ m) := by
  have hdrop : lastBytes n l ++ m = (l ++ m).drop (l.length - n) :=
    (List.drop_append_of_le_length (Nat.sub_le _ _)).symm
  have hsum : l.length - n + ((l ++ m).length - (l.length - n) - n) = (l ++ m).length - n := by
    rw [List.length_append]
    omega
  rw [hdrop, lastBytes, List.length_drop, List.drop_drop, hsum, lastBytes]

/-! ### The window -/

/-- The lookahead is a window onto the plaintext, and a source that will fail fails before its end has been seen
(20_memory.md R58; 43_encoder.md R137). -/
structure State.Window (s : State) : Prop where
  memory : s.mem.wf
  full : s.enc.eof = false → s.mem.look.length = Config.maxMatchSize
  ended : s.enc.eof = true → s.src.bytes = []
  fails : ∀ e, s.src.errAt = some e → s.enc.eof = false ∧ e ≤ s.src.bytes.length

/-- `t` is `s` after `n` bytes of plaintext have moved into the history. -/
structure Advanced (n : Nat) (s t : State) : Prop where
  window : t.Window
  hist : t.mem.hist = lastBytes Config.dictionarySize (s.mem.hist ++ s.toEncode.take n)
  toEncode : t.toEncode = s.toEncode.drop n
  errAt : t.src.errAt = s.src.errAt.map (· - n)
  frame : IntakeFrame s t

section
variable {s t u : State}

theorem State.Window.look_eq (h : s.Window) : s.mem.look = s.toEncode.take Config.maxMatchSize := by
  cases he : s.enc.eof with
  | false => exact (List.take_left' (h.full he)).symm
  | true => rw [State.toEncode, h.ended he, List.append_nil, List.take_of_length_le h.memory.2]

/-- The window is empty at the end of the plaintext only. -/
theorem State.Window.exists_cons (h : s.Window) (hmore : s.toEncode ≠ []) : ∃ b l, s.mem.look = b :: l := by
  refine List.exists_cons_of_ne_nil fun hnil => ?_
  rw [h.look_eq, List.take_eq_nil_iff] at hnil
  exact hmore (hnil.resolve_left (by decide))

theorem Advanced.zero (h : s.Window) : Advanced 0 s s where
  window := h
  hist := by rw [List.take_zero, List.append_nil, lastBytes_of_length_le h.memory.1]
  toEncode := rfl
  errAt := by cases s.src.errAt <;> rfl
  frame := ⟨s.mem, s.src, s.enc, rfl⟩

theorem Advanced.trans {m n : Nat} (h : Advanced m s t) (h' : Advanced n t u) : Advanced (m + n) s u where
  window := h'.window
  hist := by rw [h'.hist, h.hist, lastBytes_lastBytes_append, h.toEncode, List.append_assoc, ← List.take_add]
  toEncode := by rw [h'.toEncode, h.toEncode, List.drop_drop]
  errAt := by
    rw [h'.errAt, h.errAt, Option.map_map]
    congr 1
    exact funext fun e => Nat.sub_sub e m n
  frame := h.frame.trans h'.frame

/-! ### One advance -/

theorem Memory.push_hist {m : Memory} (b : Byte) (h : m.wf) :
    (m.push b).hist = lastBytes Config.dictionarySize (m.hist ++ [b]) := by
  change ([b].foldl Memory.push m).hist = _
  rw [foldl_push h.1]

/-- With the source used up the window shrinks (R135). -/
theorem State.Window.advanced_pop (h : s.Window) {b : Byte} {l : List Byte} (hl : s.mem.look = b :: l)
    (hsrc : s.src.bytes = []) (herr : s.src.errAt ≠ some 0) (more : Bool) :
    Advanced 1 s ((s.setMem ⟨(s.mem.push b).hist, l⟩).setEnc ⟨true, more⟩) := by
  have hrest : s.toEncode = b :: l := by rw [State.toEncode, hsrc, hl, List.append_nil]
  have hnone : s.src.errAt = none := by
    refine Option.eq_none_iff_forall_ne_some.mpr fun e he => herr ?_
    have hle := (h.fails e he).2
    rw [hsrc] at hle
    rw [he, Nat.le_zero.mp hle]
  have hlook := h.memory.2
  rw [hl] at hlook
  exact
    { window := ⟨⟨(Memory.push_wf b h.memory).1, Nat.le_of_succ_le hlook⟩, nofun, fun _ => hsrc,
        fun e he => nomatch hnone.symm.trans he⟩
      hist := by
        rw [hrest, List.take_succ_cons, List.take_zero]
        exact Memory.push_hist b h.memory
      toEncode := by
        rw [hrest]
        change l ++ s.src.bytes = l
        rw [hsrc, List.append_nil]
      errAt := by
        change s.src.errAt = _
        rw [hnone]
        rfl
      frame := ⟨⟨(s.mem.push b).hist, l⟩, s.src, ⟨true, more⟩, rfl⟩ }

/-- While the source gives bytes the window stays full (R135). -/
theorem State.Window.advanced_append (h : s.Window) {b c : Byte} {l cs : List Byte} (hl : s.mem.look = b :: l)
    (he : s.enc.eof = false) (hsrc : s.src.bytes = c :: cs) (herr : s.src.errAt ≠ some 0) (more : Bool) :
    Advanced 1 s (((s.setSrc ⟨cs, s.src.errAt.map (· - 1)⟩).setMem ((s.mem.push b).append c)).setEnc ⟨false, more⟩) := by
  have hfull : (s.mem.push b).look.length = Config.maxMatchSize := h.full he
  have hlook : ((s.mem.push b).append c).look = l ++ [c] := by
    rw [Memory.append_look_of_full c hfull, Memory.push_look, hl, List.tail_cons]
  have hrest : s.toEncode = b :: (l ++ c :: cs) := by rw [State.toEncode, hsrc, hl, List.cons_append]
  rw [Memory.push_look, hl, List.length_cons] at hfull
  exact
    { window :=
        { memory := Memory.append_wf c (Memory.push_wf b h.memory)
          full := fun _ => by
            change ((s.mem.push b).append c).look.length = _
            rw [hlook, List.length_append, List.length_singleton, hfull]
          ended := nofun
          fails := fun e he' => by
            obtain ⟨k, hk, hek⟩ := Option.map_eq_some_iff.mp he'
            have hle := (h.fails k hk).2
            have hne : k ≠ 0 := fun h0 => herr (h0 ▸ hk)
            rw [hsrc, List.length_cons] at hle
            exact ⟨rfl, by change e ≤ cs.length; omega⟩ }
      hist := by
        rw [hrest, List.take_succ_cons, List.take_zero]
        exact Memory.push_hist b h.memory
      toEncode := by
        rw [hrest]
        change ((s.mem.push b).append c).look ++ cs = l ++ c :: cs
        rw [hlook, List.append_assoc, List.singleton_append]
      errAt := rfl
      frame := ⟨_, _, _, rfl⟩ }

/-- ENC.ADVANCE moves the window by a byte unless the source fails at it (R135). -/
theorem encAdvance_advances (h : s.Window) (hmore : s.toEncode ≠ []) (herr : s.src.errAt ≠ some 0) :
    ∃ t, encAdvance s = .ok () t ∧ Advanced 1 s t ∧
      t.enc = ⟨decide (s.src.bytes = []), decide (t.toEncode ≠ [])⟩ := by
  obtain ⟨b', l', hl'⟩ := h.exists_cons hmore
  rcases encAdvance_cases s with ⟨hnil, _⟩ | ⟨_, _, _, _, h0, _⟩ | ⟨b, l, hl, hend, ha⟩ | ⟨b, l, c, cs, hl, he, _, hb, ha⟩
  · cases hl'.symm.trans hnil
  · exact absurd h0 herr
  · have hsrc : s.src.bytes = [] := by
      cases he : s.enc.eof with
      | false => exact (hend he).2
      | true => exact h.ended he
    refine ⟨_, ha, h.advanced_pop hl hsrc herr _, congrArg₂ EncFlags.mk (decide_eq_true hsrc).symm ?_⟩
    change _ = decide (l ++ s.src.bytes ≠ [])
    rw [hsrc, List.append_nil, decide_eq_decide, List.length_pos_iff]
  · have hadv := h.advanced_append hl he hb herr true
    refine ⟨_, ha, hadv, congrArg₂ EncFlags.mk ?_ ?_⟩
    · exact (decide_eq_false (by simp [hb])).symm
    · rw [hadv.toEncode, State.toEncode, hl, hb]
      exact (decide_eq_true (by simp)).symm

/-- Settles O39: without a failure the frame of the advance holds the error position at none. -/
theorem advanceMovesOneByte : Obligations.AdvanceMovesOneByte := by
  intro s hmem hlook hfull hended herr
  have hwin : s.Window := ⟨hmem, hfull, hended, fun e he => nomatch herr.symm.trans he⟩
  have hmore : s.toEncode ≠ [] := List.append_ne_nil_of_left_ne_nil hlook _
  obtain ⟨t, ht, hadv, henc⟩ := encAdvance_advances hwin hmore (by simp [herr])
  have hnone : t.src.errAt = none := by rw [hadv.errAt, herr, Option.map_none]
  have hsrc : t.src = ⟨t.src.bytes, none⟩ := hnone ▸ rfl
  refine ⟨t, ht, hadv.hist, hadv.toEncode, hadv.toEncode ▸ hadv.window.look_eq, hadv.toEncode ▸ henc, ?_⟩
  rw [← hsrc]
  obtain ⟨m, q, e, rfl⟩ := hadv.frame
  rfl

/-! ### Repeated advances -/

/-- As many advances as there are bytes, and as the source gives before it fails (R132). -/
theorem advanceTimes_advances {n : Nat} (h : s.Window) (hn : n ≤ s.toEncode.length)
    (herr : ∀ e, s.src.errAt = some e → n ≤ e) : ∃ t, advanceTimes n s = .ok () t ∧ Advanced n s t := by
  induction n generalizing s with
  | zero => exact ⟨s, rfl, .zero h⟩
  | succ n ih =>
    have hmore : s.toEncode ≠ [] := List.ne_nil_of_length_pos (Nat.zero_lt_of_lt hn)
    obtain ⟨s1, hs1, hadv, -⟩ := encAdvance_advances h hmore fun h0 => Nat.not_succ_le_zero n (herr 0 h0)
    have hn1 : n ≤ s1.toEncode.length := by
      rw [hadv.toEncode, List.length_drop]
      omega
    obtain ⟨t, ht, hadv'⟩ := ih hadv.window hn1 fun e he => by
      obtain ⟨k, hk, hek⟩ := Option.map_eq_some_iff.mp (hadv.errAt.symm.trans he)
      have hle := herr k hk
      omega
    rw [advanceTimes, hs1, Res.bind_ok, Nat.add_comm]
    exact ⟨t, ht, hadv.trans hadv'⟩

theorem advanceTimes_add (m n : Nat) (s : State) :
    advanceTimes (m + n) s = (advanceTimes m s).bind fun _ s1 => advanceTimes n s1 := by
  induction m generalizing s with
  | zero => rw [Nat.zero_add]; rfl
  | succ m ih =>
    rw [Nat.add_right_comm, advanceTimes, advanceTimes]
    cases encAdvance s with
    | ok a s1 => exact ih s1
    | raised s1 => rfl
    | fault r => rfl
    | refused r => rfl

/-- A source that fails at the coming fetch ends ENC.ADVANCE with the byte pushed (R135, R173). -/
theorem encAdvance_raises (h : s.Window) (herr : s.src.errAt = some 0) :
    ∃ u, encAdvance s = .raised (faultEntry .ioSrc u) ∧ IntakeFrame s u ∧
      u.mem.hist = lastBytes Config.dictionarySize (s.mem.hist ++ s.toEncode.take 1) := by
  have heof := (h.fails 0 herr).1
  rcases encAdvance_cases s with ⟨hnil, _⟩ | ⟨b, l, hl, _, _, ha⟩ | ⟨_, _, _, hend, _⟩ | ⟨_, _, _, _, _, _, hne, _⟩
  · cases (congrArg List.length hnil).symm.trans (h.full heof)
  · refine ⟨_, ha, ⟨s.mem.push b, s.src, s.enc, rfl⟩, ?_⟩
    rw [State.toEncode, hl, List.cons_append, List.take_succ_cons, List.take_zero]
    exact Memory.push_hist b h.memory
  · exact absurd herr (hend heof).1
  · exact absurd herr hne

/-- A source that fails after `e` bytes ends the advances there, with `e + 1` bytes pushed (R132, R173). -/
theorem advanceTimes_raises {n e : Nat} (h : s.Window) (herr : s.src.errAt = some e) (hlt : e < n) :
    ∃ u, advanceTimes n s = .raised (faultEntry .ioSrc u) ∧ IntakeFrame s u ∧
      u.mem.hist = lastBytes Config.dictionarySize (s.mem.hist ++ s.toEncode.take (e + 1)) := by
  obtain ⟨k, rfl⟩ := Nat.exists_eq_add_of_lt hlt
  have hle : e ≤ s.toEncode.length := by
    have := (h.fails e herr).2
    rw [State.toEncode, List.length_append]
    omega
  obtain ⟨t, ht, hadv⟩ := advanceTimes_advances h hle fun e' he' => (Option.some.inj (herr.symm.trans he')).le
  have herr' : t.src.errAt = some 0 := by rw [hadv.errAt, herr, Option.map_some, Nat.sub_self]
  obtain ⟨u, hu, hframe, hhist⟩ := encAdvance_raises hadv.window herr'
  refine ⟨u, ?_, hadv.frame.trans hframe, ?_⟩
  · rw [Nat.add_assoc, advanceTimes_add, ht, Res.bind_ok, advanceTimes, hu, Res.bind_raised]
  · rw [hhist, hadv.hist, lastBytes_lastBytes_append, hadv.toEncode, List.append_assoc, ← List.take_add]

end

end Sys2Proof.Machine
end

section
/-! What a session of the writer leaves at the sink once it is flushed: the packed bits (40_bitstream_writer.md R92, R93;
43_encoder.md R136; 60_exceptions.md R178). -/

namespace Sys2Proof

theorem msbBits_byte_injective {b c : Byte} (h : msbBits 8 b.toNat = msbBits 8 c.toNat) : b = c := by
  have hval := congrArg (fun bits => BitVec.ofNat 8 (ofBits bits)) h
  simpa only [ofNat_ofBits_msbBits, BitVec.ofNat_toNat, BitVec.setWidth_eq] using hval

theorem bitsOfBytes_injective : Function.Injective bitsOfBytes := by
  intro bytes
  induction bytes with
  | nil =>
    intro bytes' h
    have hlen := congrArg List.length h
    rw [length_bitsOfBytes, length_bitsOfBytes, List.length_nil] at hlen
    exact (List.length_eq_zero_iff.mp (by omega)).symm
  | cons b bytes ih =>
    intro bytes' h
    cases bytes' with
    | nil => cases h
    | cons b' bytes' =>
      rw [bitsOfBytes_cons, bitsOfBytes_cons] at h
      obtain ⟨hhead, htail⟩ := List.append_inj h (by simp)
      rw [msbBits_byte_injective hhead, ih htail]

/-- Packing is the only way to fill bytes with fewer than 8 padding zeros (R55, R93). -/
theorem eq_packBits {bytes : List Byte} {bits : List Bool} {k : Nat} (hk : k < 8)
    (h : bitsOfBytes bytes = bits ++ List.replicate k false) : bytes = packBits bits := by
  obtain ⟨k', hk', h'⟩ := bitsOfBytes_packBits bits
  have hlen := congrArg List.length h
  have hlen' := congrArg List.length h'
  rw [length_bitsOfBytes, List.length_append, List.length_replicate] at hlen hlen'
  obtain rfl : k = k' := by omega
  exact bitsOfBytes_injective (h.trans h'.symm)

theorem length_packBits (bits : List Bool) : (packBits bits).length = (bits.length + 7) / 8 := by
  obtain ⟨k, hk, h⟩ := bitsOfBytes_packBits bits
  have hlen := congrArg List.length h
  rw [length_bitsOfBytes, List.length_append, List.length_replicate] at hlen
  omega

end Sys2Proof

namespace Sys2Proof.Machine

/-- `s` with all bits written at the sink and none pending. -/
def State.flushed (s : State) : State := (s.setSnk ⟨packBits s.written, none⟩).setWr ⟨0, 0⟩

section
variable {s : State}

theorem flushWriter_eq (hwf : s.wr.wf) (hsink : s.snk.failAfter = none) : flushWriter s = .ok () s.flushed := by
  obtain ⟨t, ht, hbits, hwr, -, -, hframe⟩ := flushPadsWithZeros s hwf hsink
  rw [ht, hframe, eq_packBits (Nat.mod_lt _ (by decide)) hbits, hwr]
  rfl

theorem encFinish_eq (hwf : s.wr.wf) (hsink : s.snk.failAfter = none) :
    encFinish s = .ok () (s.flushed.setPhase .done) := by
  rw [encFinish, flushWriter_eq hwf hsink, Res.bind_ok]

/-- The flush of fault entry is BW.FLUSH where that goes through (R178). -/
theorem faultFlush_of_flushWriter {t : State} (h : flushWriter s = .ok () t) : faultFlush s = t := by
  unfold flushWriter emitByte at h
  unfold faultFlush
  split at h
  case isTrue hn =>
    rcases sinkWrite_cases s.wr.acc s with ⟨_, hw⟩ | ⟨_, hw⟩ <;> rw [hw] at h ⊢ <;> cases h
    exact if_pos hn
  case isFalse hn =>
    cases h
    exact if_neg hn

/-- Fault entry in an ENCODE session whose sink does not fail completes the stream (R178). -/
theorem faultEntry_flushes {code : ErrCode} (hm : s.mode = .encode) (hc : code ≠ .ioSnk) (hwf : s.wr.wf)
    (hsink : s.snk.failAfter = none) :
    (faultEntry code s).wr = ⟨0, 0⟩ ∧ (faultEntry code s).snk = ⟨packBits s.written, none⟩ := by
  have hflush (e : ErrRegs) : faultFlush (s.setErr e) = (s.setErr e).flushed :=
    faultFlush_of_flushWriter (flushWriter_eq hwf hsink)
  unfold faultEntry
  dsimp only
  rw [if_pos ⟨hm, hc⟩, hflush]
  exact ⟨rfl, rfl⟩

/-- A sink that never fails refuses nothing, so the writer takes all it is given. -/
theorem Res.Ends.writes_all {bits : List Bool} {r : Res Unit}
    (h : r.Ends (fun _ t => Writes bits s t) (fun t => StopsWriting bits s t)) (hsink : s.snk.failAfter = none) :
    ∃ t, r = .ok () t ∧ Writes bits s t := by
  cases r with
  | ok _ t => exact ⟨t, rfl, h⟩
  | raised t =>
    have hcap : s.snk.capacity = none := by rw [Sink.capacity, hsink, Option.map_none]
    cases hcap.symm.trans h.full
  | fault r => exact h.elim
  | refused r => exact h.elim

theorem Writes.failAfter_eq_none {bits : List Bool} {t : State} (h : Writes bits s t) (hsink : s.snk.failAfter = none) :
    t.snk.failAfter = none :=
  Option.map_eq_none_iff.mp (h.capacity.trans (by rw [Sink.capacity, hsink, Option.map_none]))

end

end Sys2Proof.Machine
end

section
/-! The token ENC.STEP chooses, its bits, and ENC.STEP as a whole (30_encoding.md R71, R72; 43_encoder.md R132 to R139;
60_exceptions.md R173, R178). -/

namespace Sys2Proof

/-- The flag in front of a word is the word's first bit (R71, R72). -/
theorem msbBits_flag_append {n : Nat} (flag : BitVec 1) (w : BitVec n) :
    msbBits (n + 1) (flag ++ w).toNat = flag.getLsbD 0 :: msbBits n w.toNat := by
  have hfirst : (flag ++ w).toNat.testBit n = flag.getLsbD 0 := by
    rw [BitVec.testBit_toNat, BitVec.getLsbD_append, if_neg (Nat.lt_irrefl n), Nat.sub_self]
  have hrest : msbBits n (flag ++ w).toNat = msbBits n w.toNat := by
    refine msbBits_congr fun k hk => ?_
    rw [BitVec.testBit_toNat, BitVec.testBit_toNat, BitVec.getLsbD_append, if_pos hk]
  rw [msbBits, hfirst, hrest]

theorem bits_encode_lit (data : BitVec 8) : (encode (.lit data)).bits = false :: msbBits 8 data.toNat :=
  msbBits_flag_append 0#1 data

theorem bits_encode_matchRef (pos : BitVec 12) (len : BitVec 4) :
    (encode (.matchRef pos len)).bits = true :: msbBits 16 (packRef pos len).toNat :=
  msbBits_flag_append 1#1 (packRef pos len)

end Sys2Proof

namespace Sys2Proof.Machine

/-! ### The choice (R132) -/

/-- The choice and what the search leaves in `REF`: a match longer than 2, or the oldest byte. -/
theorem encodedToken_cases {s : State} (hlook : s.mem.look.length ≤ Config.maxMatchSize) :
    (∃ pos len, encodedToken s.mem = .matchRef pos len ∧ encodedCount s.mem = len.toNat ∧
        Config.minMatchSize < len.toNat ∧ len.toNat ≤ s.mem.look.length ∧ (searchRef s).ref = ⟨pos, len⟩) ∨
    (encodedToken s.mem = .lit (s.mem.look.headD 0) ∧ encodedCount s.mem = 1 ∧
      ¬Config.minMatchSize < (searchRef s).ref.len.toNat) := by
  have hle := longestMatch_len_le_look s.mem
  have hlen : (BitVec.ofNat 4 (longestMatch s.mem).2).toNat = (longestMatch s.mem).2 :=
    (BitVec.toNat_ofNat _ _).trans (Nat.mod_eq_of_lt (Nat.lt_succ_of_le (hle.trans hlook)))
  unfold encodedToken encodedCount
  dsimp only
  split
  case isTrue hlong => exact .inl ⟨_, _, rfl, hlen.symm, hlen.symm ▸ hlong, hlen.symm ▸ hle, rfl⟩
  case isFalse hshort =>
    refine .inr ⟨rfl, rfl, ?_⟩
    change ¬_ < (BitVec.ofNat 4 (longestMatch s.mem).2).toNat
    rwa [hlen]

section
variable {s : State}

theorem encodedCount_eq_covers (hlook : s.mem.look.length ≤ Config.maxMatchSize) :
    encodedCount s.mem = tokenCovers (encodedToken s.mem) := by
  rcases encodedToken_cases hlook with ⟨pos, len, ht, hc, _⟩ | ⟨ht, hc, _⟩ <;> rw [ht, hc] <;> rfl

/-- A token covers at least one byte and only bytes of the lookahead. -/
theorem encodedCount_bounds (hlook : s.mem.look.length ≤ Config.maxMatchSize) (hne : s.mem.look ≠ []) :
    1 ≤ encodedCount s.mem ∧ encodedCount s.mem ≤ s.mem.look.length := by
  rcases encodedToken_cases hlook with ⟨pos, len, _, hc, hlong, hle, _⟩ | ⟨_, hc, _⟩ <;> rw [hc]
  · exact ⟨Nat.one_le_of_lt hlong, hle⟩
  · exact ⟨Nat.le_refl 1, List.length_pos_iff.mpr hne⟩

theorem encodedCount_le_toEncode (hlook : s.mem.look.length ≤ Config.maxMatchSize) (hne : s.mem.look ≠ []) :
    encodedCount s.mem ≤ s.toEncode.length := by
  rw [State.toEncode, List.length_append]
  exact Nat.le_add_right_of_le (encodedCount_bounds hlook hne).2

theorem encodedToken_valid (hlook : s.mem.look.length ≤ Config.maxMatchSize) :
    (encodedToken s.mem).isToken = true ∧ (encodedToken s.mem).wf = true ∧ 1 ≤ tokenCovers (encodedToken s.mem) := by
  rcases encodedToken_cases hlook with ⟨pos, len, ht, _, hlong, _⟩ | ⟨ht, _⟩ <;> rw [ht]
  · exact ⟨rfl, decide_eq_true hlong, Nat.one_le_of_lt hlong⟩
  · exact ⟨rfl, rfl, Nat.le_refl 1⟩

end

/-! ### The token encoder (R133, R134) -/

/-- One write after another. -/
theorem Res.Ends.writes_bind {bits more : List Bool} {α : Type} {s : State} {r : Res α} {f : α → State → Res Unit}
    (h : r.Ends (fun _ t => Writes bits s t) (fun t => StopsWriting bits s t))
    (hf : ∀ a t, Writes bits s t →
      (f a t).Ends (fun _ u => Writes more t u) (fun u => StopsWriting more t u)) :
    (r.bind f).Ends (fun _ t => Writes (bits ++ more) s t) (fun t => StopsWriting (bits ++ more) s t) :=
  Res.Ends.bind (h.mono (fun _ _ ht => ht) fun _ ht => ht.append more) fun a t ht =>
    (hf a t ht).mono (fun _ _ hu => ht.trans hu) fun _ hu => ht.stops hu

theorem emitMatch_writes {s : State} (h : s.wr.wf) :
    (emitMatch s).Ends (fun _ t => Writes (encode (.matchRef s.ref.pos s.ref.len)).bits s t)
      (fun t => StopsWriting (encode (.matchRef s.ref.pos s.ref.len)).bits s t) := by
  rw [bits_encode_matchRef]
  refine (writeBits_writes 1#16 1 h).writes_bind fun _ t ht => ?_
  have href : t.ref = s.ref := by rw [ht.frame]; rfl
  rw [href]
  exact writeBits_writes _ 16 ht.wf

theorem emitLit_writes {s : State} (h : s.wr.wf) {b : Byte} {l : List Byte} (hl : s.mem.look = b :: l) :
    (emitLit s).Ends (fun _ t => Writes (encode (.lit b)).bits s t)
      (fun t => StopsWriting (encode (.lit b)).bits s t) := by
  rw [bits_encode_lit]
  refine (writeBits_writes 0#16 1 h).writes_bind fun _ t ht => ?_
  have hread : laByteAt 0 t = .ok b t := by
    rw [ht.frame]
    simp [laByteAt, hl]
  have hbyte : (b.setWidth 16).toNat = b.toNat := BitVec.toNat_setWidth_of_le (by decide)
  rw [hread, Res.bind_ok, ← hbyte]
  exact writeBits_writes _ 8 ht.wf

/-- The emission of ENC.STEP, by the reference the search has left (R132). -/
def emitToken (s : State) : Res Unit := if Config.minMatchSize < s.ref.len.toNat then emitMatch s else emitLit s

/-- The last part of ENC.STEP: the session is finished when no data is left (R132). -/
def finishOrGoOn (s : State) : Res Unit := if s.enc.more = false then encFinish s else .ok () s

/-- ENC.STEP: the emission, the advances past what the token covers, and the end of the data (R132). -/
theorem encStep_eq {s : State} (hlook : s.mem.look.length ≤ Config.maxMatchSize) :
    encStep s = ((emitToken (searchRef s)).bind fun _ s2 => advanceTimes (encodedCount s.mem) s2).bind
      fun _ s3 => finishOrGoOn s3 := by
  unfold encStep emitToken finishOrGoOn
  dsimp only
  rcases encodedToken_cases hlook with ⟨pos, len, _, hc, hlong, _, hsearch⟩ | ⟨_, hc, hshort⟩
  · rw [hsearch, if_pos hlong, if_pos hlong, hc]
  · have hone : advanceTimes 1 = encAdvance := by
      funext t
      rw [advanceTimes]
      cases encAdvance t <;> rfl
    rw [if_neg hshort, if_neg hshort, hc, hone]

theorem emitToken_writes {s : State} (h : s.wr.wf) (hlook : s.mem.look.length ≤ Config.maxMatchSize)
    (hne : s.mem.look ≠ []) :
    (emitToken (searchRef s)).Ends (fun _ t => Writes (encode (encodedToken s.mem)).bits (searchRef s) t)
      (fun t => StopsWriting (encode (encodedToken s.mem)).bits (searchRef s) t) := by
  unfold emitToken
  rcases encodedToken_cases hlook with ⟨pos, len, ht, _, hlong, _, hsearch⟩ | ⟨ht, _, hshort⟩
  · have hmatch := emitMatch_writes (s := searchRef s) h
    rw [hsearch] at hmatch ⊢
    rw [if_pos hlong, ht]
    exact hmatch
  · obtain ⟨b, l, hl⟩ := List.exists_cons_of_ne_nil hne
    rw [if_neg hshort, ht, hl]
    exact emitLit_writes (s := searchRef s) h hl

/-! ### ENC.STEP -/

/-- `t` is `s` after the emission of ENC.STEP, the token's bytes still to be advanced past. -/
structure Emitted (s t : State) : Prop where
  inLoop : t.InEncLoop
  written : t.written = s.written ++ (encode (encodedToken s.mem)).bits
  failAfter : t.snk.failAfter = none
  mem : t.mem = s.mem
  src : t.src = s.src
  enc : t.enc = s.enc
  frame : EncFrame s t

theorem emitToken_emits {s : State} (h : s.InEncLoop) (hne : s.mem.look ≠ []) (hsink : s.snk.failAfter = none) :
    ∃ t, emitToken (searchRef s) = .ok () t ∧ Emitted s t := by
  obtain ⟨t, ht, hw⟩ := (emitToken_writes h.writer h.sound.memory.2 hne).writes_all (s := searchRef s) hsink
  have hloop := h.searchRef.writes hw.wf t.snk
  rw [← hw.frame] at hloop
  refine ⟨t, ht, hloop, hw.written, hw.failAfter_eq_none hsink, ?_, ?_, ?_, ?_⟩
  case refine_4 => exact (EncFrame.of_search s).trans (.of_writer ⟨_, _, hw.frame⟩)
  all_goals
    rw [hw.frame]
    rfl

theorem State.InEncLoop.window {s : State} (h : s.InEncLoop)
    (hfails : ∀ e, s.src.errAt = some e → s.enc.eof = false ∧ e ≤ s.src.bytes.length) : s.Window where
  memory := h.sound.memory
  full := h.full
  ended := fun he => h.sound.exhausted (.inr he)
  fails := hfails

theorem Emitted.toEncode {s t : State} (h : Emitted s t) : t.toEncode = s.toEncode := by
  rw [State.toEncode, h.mem, h.src, State.toEncode]

/-- The plaintext side leaves the writer and the sink alone. -/
theorem IntakeFrame.output {s t : State} (h : IntakeFrame s t) : t.wr = s.wr ∧ t.snk = s.snk := by
  obtain ⟨m, q, e, rfl⟩ := h
  exact ⟨rfl, rfl⟩

/-- `t` is `s` after ENC.STEP up to its test for the end of the data. -/
structure TokenDone (s t : State) : Prop where
  inLoop : t.InEncLoop
  written : t.written = s.written ++ (encode (encodedToken s.mem)).bits
  hist : t.mem.hist = lastBytes Config.dictionarySize (s.mem.hist ++ s.toEncode.take (encodedCount s.mem))
  toEncode : t.toEncode = s.toEncode.drop (encodedCount s.mem)
  look : t.mem.look = t.toEncode.take Config.maxMatchSize
  ports : t.noIoErrors
  frame : EncFrame s t

/-- `E.more` tells whether plaintext is left (R137). -/
theorem TokenDone.more {s t : State} (h : TokenDone s t) : t.enc.more = true ↔ t.toEncode ≠ [] := by
  rw [h.inLoop.more, Memory.moreData_iff, h.look, ne_eq, List.take_eq_nil_iff]
  simp

/-- ENC.STEP without a failure covers the token and then finishes or goes on (R132). -/
theorem encStep_of_no_error {s : State} (h : s.InEncLoop) (hne : s.mem.look ≠ []) (hio : s.noIoErrors) :
    ∃ t, TokenDone s t ∧ encStep s = finishOrGoOn t := by
  obtain ⟨hsrc, hsink⟩ := hio
  obtain ⟨u, hu, hemit⟩ := emitToken_emits h hne hsink
  have hnone : u.src.errAt = none := by rw [hemit.src, hsrc]
  have hwin := hemit.inLoop.window fun e he => nomatch hnone.symm.trans he
  have hle : encodedCount s.mem ≤ u.toEncode.length := by
    rw [hemit.toEncode]
    exact encodedCount_le_toEncode h.sound.memory.2 hne
  obtain ⟨t, ht, hadv⟩ := advanceTimes_advances hwin hle fun e he => nomatch hnone.symm.trans he
  have hloop := advanceTimes_inEncLoop (encodedCount s.mem) hemit.inLoop
  rw [ht] at hloop
  obtain ⟨hwr, hsnk⟩ := hadv.frame.output
  refine ⟨t, ⟨hloop, ?_, ?_, ?_, hadv.window.look_eq, ⟨?_, ?_⟩, hemit.frame.trans (.of_intake hadv.frame)⟩, ?_⟩
  · rw [← hemit.written, State.written, State.written, hwr, hsnk]
  · rw [hadv.hist, hemit.mem, hemit.toEncode]
  · rw [hadv.toEncode, hemit.toEncode]
  · rw [hadv.errAt, hnone, Option.map_none]
  · rw [hsnk, hemit.failAfter]
  · rw [encStep_eq h.sound.memory.2, hu, Res.bind_ok, ht, Res.bind_ok]

/-- An operation of the encoder writes at most these fields. -/
theorem EncFrame.eq_updates {s t : State} (h : EncFrame (s.setPhase t.phase) t) :
    t = ((((((s.setPhase t.phase).setWr t.wr).setEnc t.enc).setRef t.ref).setMem t.mem).setSrc t.src).setSnk t.snk := by
  obtain ⟨-, hmode, herr, hrd, hcopy, hjobs, hhost, hdraws⟩ := h
  apply State.ext_fields
  case h_mode => exact hmode
  case h_err => exact herr
  case h_rd => exact hrd
  case h_copy => exact hcopy
  case h_jobs => exact hjobs
  case h_host => exact hhost
  case h_draws => exact hdraws
  all_goals rfl

/-- Where ENC.STEP ends once the token is done: in its loop, or flushed (R132, R136). -/
theorem TokenDone.ends {s t : State} (h : TokenDone s t) :
    (t.toEncode ≠ [] ∧ finishOrGoOn t = .ok () t) ∨
    (t.toEncode = [] ∧ finishOrGoOn t = .ok () (t.flushed.setPhase .done)) := by
  by_cases hnil : t.toEncode = []
  · have hmore : t.enc.more = false := Bool.eq_false_of_not_eq_true fun hm => h.more.mp hm hnil
    exact .inr ⟨hnil, by rw [finishOrGoOn, if_pos hmore, encFinish_eq h.inLoop.writer h.ports.2]⟩
  · have hmore : ¬t.enc.more = false := by rw [h.more.mpr hnil]; nofun
    exact .inl ⟨hnil, if_neg hmore⟩

/-- Settles O41: the step writes the token, advances past it, and either goes on or flushes. -/
theorem encoderStepEmitsOneToken : Obligations.EncoderStepEmitsOneToken := by
  intro s hinv hp hio
  obtain ⟨-, hne, -⟩ := hinv.encLoop hp
  have hloop := hinv.inEncLoop hp
  have hlook := hloop.sound.memory.2
  obtain ⟨hpos, hle⟩ := encodedCount_bounds hlook hne
  obtain ⟨t, htok, hstep⟩ := encStep_of_no_error hloop hne hio
  rcases htok.ends with ⟨hmore, hend⟩ | ⟨hnil, hend⟩
  · refine ⟨t, hstep.trans hend, hpos, hle, encodedCount_eq_covers hlook, htok.hist, htok.toEncode, htok.look,
      fun _ => ⟨htok.inLoop.phase, htok.written⟩, fun hnil => absurd hnil hmore, EncFrame.eq_updates ?_⟩
    exact { htok.frame with phase := rfl }
  · refine ⟨t.flushed.setPhase .done, hstep.trans hend, hpos, hle, encodedCount_eq_covers hlook, htok.hist,
      htok.toEncode, htok.look, fun hmore => absurd hnil hmore, fun _ => ⟨rfl, rfl, ?_⟩, EncFrame.eq_updates ?_⟩
    · exact congrArg packBits htok.written
    · exact { htok.frame with phase := rfl }

/-- Settles O42: the token is written before the advances, one of which raises IO_SRC, and fault entry flushes. -/
theorem encoderFlushesAtSourceFailure : Obligations.EncoderFlushesAtSourceFailure := by
  intro s e hinv hp heof hsink herr hlen hlt
  obtain ⟨-, hne, hfull⟩ := hinv.encLoop hp
  have hloop := hinv.inEncLoop hp
  obtain ⟨u, hu, hemit⟩ := emitToken_emits hloop hne hsink
  have hwin := hemit.inLoop.window fun e' he' => by
    rw [hemit.src] at he' ⊢
    obtain rfl : e = e' := Option.some.inj (herr.symm.trans he')
    exact ⟨hemit.enc ▸ heof, hlen⟩
  obtain ⟨t, ht, hframe, hhist⟩ := advanceTimes_raises hwin (hemit.src ▸ herr) hlt
  have htake : s.toEncode.take (e + 1) = s.mem.look.take (e + 1) := by
    have hcount := (encodedCount_bounds hloop.sound.memory.2 hne).2
    exact List.take_append_of_le_length (hlt.trans_le hcount)
  obtain ⟨hwr, hsnk⟩ := hframe.output
  have henc : EncFrame s t := hemit.frame.trans (.of_intake hframe)
  have hwritten : t.written = s.written ++ (encode (encodedToken s.mem)).bits := by
    rw [← hemit.written, State.written, State.written, hwr, hsnk]
  obtain ⟨hwr', hsnk'⟩ := faultEntry_flushes (code := .ioSrc) (henc.mode.trans hloop.mode) nofun
    (hwr ▸ hemit.inLoop.writer) (hsnk ▸ hemit.failAfter)
  refine ⟨faultEntry .ioSrc t, ?_, rfl, ?_, hwr', ?_, ?_⟩
  · rw [encStep_eq hloop.sound.memory.2, hu, Res.bind_ok, ht, Res.bind_raised]
  · rw [faultEntry_err]
    change ErrRegs.mk .ioSrc 0 0 t.rd.fetched = _
    rw [henc.rd, hloop.sound.encodeReader hloop.mode]
  · rw [hsnk', hwritten]
  · rw [faultEntry_mem, hhist, hemit.mem, hemit.toEncode, htake]

end Sys2Proof.Machine
end

section
/-! A whole ENCODE session: from the START that the host drives to `DONE`, one token an operation, and the tokens together
cover the plaintext (43_encoder.md R130 to R138; 30_encoding.md R70, R80, R83). -/

namespace Sys2Proof.Machine

/-! ### Runs -/

theorem run_succ_of_step {M : Host.Core} {s s1 : M.State} (h : M.step s = .next s1) (n : Nat) :
    M.run (n + 1) s = M.run n s1 := by
  rw [Host.Core.run, h]

theorem run_of_step {s s1 : State} (h : step s = .next s1) (n : Nat) :
    Host.Core.run core (n + 1) s = Host.Core.run core n s1 :=
  run_succ_of_step (M := core) h n

/-- A host that drives nothing leaves every step to the sequencer. -/
theorem step_of_host_nil {s : State} (h : s.host = []) : step s = sequencerStep s := by
  have hpins : s.pins = .quiet := by rw [State.pins, h]; rfl
  have hpop : s.popHost = s := by rw [State.popHost, h, List.tail_nil, ← h]; rfl
  rw [step_of_quiet ⟨by rw [hpins]; rfl, by rw [hpins]; rfl⟩, hpop]

/-! ### Listings -/

/-- Well-formed tokens that together cover `size` bytes, none of them idle (R80, R138). -/
structure ListingOf (size : Nat) (tokens : List Instr) : Prop where
  valid : ∀ i ∈ tokens, i.isToken = true ∧ i.wf = true ∧ 1 ≤ tokenCovers i
  covers : (tokens.map tokenCovers).sum = size

theorem ListingOf.nil : ListingOf 0 [] := ⟨nofun, rfl⟩

theorem ListingOf.cons {size : Nat} {i : Instr} {tokens : List Instr} (h : ListingOf size tokens)
    (hi : i.isToken = true ∧ i.wf = true ∧ 1 ≤ tokenCovers i) : ListingOf (tokenCovers i + size) (i :: tokens) :=
  ⟨List.forall_mem_cons.mpr ⟨hi, h.valid⟩, by rw [List.map_cons, List.sum_cons, h.covers]⟩

/-- The bits of a listing, in order (R83). -/
def listingBits (tokens : List Instr) : List Bool := tokens.flatMap fun i => (encode i).bits

/-- The bytes of a listing are its bits' number over 8, rounded up (R93). -/
theorem length_assemble (tokens : List Instr) :
    (assemble tokens).length = ((tokens.map fun i => (encode i).width).sum + 7) / 8 := by
  rw [assemble, length_packBits, List.length_flatMap]
  simp only [Code.length_bits]

/-! ### The session -/

/-- From ENC_LOOP a session without failures ends in `DONE` with the bits of a listing of the bytes left to encode written
after those it had written (R137, R138). -/
theorem encLoop_runs_to_done {s : State} (h : s.InEncLoop) (hne : s.mem.look ≠ []) (hio : s.noIoErrors)
    (hhost : s.host = []) :
    ∃ (n : Nat) (t : State) (tokens : List Instr), Host.Core.run core n s = .next t ∧ t.phase = .done ∧
      t.snk.out = packBits (s.written ++ listingBits tokens) ∧ ListingOf s.toEncode.length tokens := by
  induction hsize : s.toEncode.length using Nat.strong_induction_on generalizing s with
  | _ size ih =>
    subst hsize
    have hlook := h.sound.memory.2
    have hvalid := encodedToken_valid hlook
    obtain ⟨u, hdone, hstep⟩ := encStep_of_no_error h hne hio
    have hsplit : s.toEncode.length = tokenCovers (encodedToken s.mem) + u.toEncode.length := by
      rw [hdone.toEncode, List.length_drop, ← encodedCount_eq_covers hlook]
      exact (Nat.add_sub_cancel' (encodedCount_le_toEncode hlook hne)).symm
    have hseq : step s = (encStep s).outcome := (step_of_host_nil hhost).trans (sequencerStep_of_encLoop h.phase)
    rw [hstep] at hseq
    rcases hdone.ends with ⟨hmore, hend⟩ | ⟨hnil, hend⟩
    · rw [hend, Res.outcome_ok] at hseq
      have hsmaller : u.toEncode.length < s.toEncode.length := hsplit ▸ Nat.lt_add_of_pos_left hvalid.2.2
      have hne' : u.mem.look ≠ [] := (Memory.moreData_iff _).mp (hdone.inLoop.more ▸ hdone.more.mpr hmore)
      obtain ⟨n, t, tokens, hrun, hphase, hout, hlist⟩ :=
        ih _ hsmaller hdone.inLoop hne' hdone.ports (hdone.frame.host.trans hhost) rfl
      refine ⟨n + 1, t, encodedToken s.mem :: tokens, (run_of_step hseq n).trans hrun, hphase, ?_, ?_⟩
      · rw [hout, hdone.written, List.append_assoc, listingBits, listingBits, List.flatMap_cons]
      · rw [hsplit]
        exact hlist.cons hvalid
    · rw [hend, Res.outcome_ok] at hseq
      refine ⟨1, u.flushed.setPhase .done, [encodedToken s.mem], run_of_step hseq 0, rfl, ?_, ?_⟩
      · change packBits u.written = _
        rw [hdone.written, listingBits, List.flatMap_singleton]
      · rw [hsplit, hnil]
        exact ListingOf.nil.cons hvalid

/-- From ENC_PRIME the listing is of the whole source (R131, R138). -/
theorem encPrime_runs_to_done {s : State} (h : s.Inv) (hp : s.phase = .encPrime) (hio : s.noIoErrors)
    (hhost : s.host = []) :
    ∃ (n : Nat) (t : State) (tokens : List Instr), Host.Core.run core n s = .next t ∧ t.phase = .done ∧
      t.snk.out = packBits (listingBits tokens) ∧ ListingOf s.src.bytes.length tokens := by
  obtain ⟨-, hwr, -, hout⟩ := h.primed hp
  obtain ⟨u, hprime, hmem, hsrc, -, hphase, hframe⟩ := primeFillsTheLookahead s h hp hio.1
  have hseq : sequencerStep s = .next u := by rw [sequencerStep_of_encPrime hp, hprime, Res.outcome_ok]
  have hstep : step s = .next u := (step_of_host_nil hhost).trans hseq
  have hsnk : u.snk = s.snk := by rw [hframe]; rfl
  have hwr' : u.wr = s.wr := by rw [hframe]; rfl
  by_cases hnil : s.src.bytes = []
  · refine ⟨1, u, [], run_of_step hstep 0, hphase.trans (if_pos hnil), ?_, ?_⟩
    · rw [hsnk, hout]
      rfl
    · rw [hnil]
      exact .nil
  · have hloop : u.InEncLoop := (sequencerStep_inv h hseq).inEncLoop (hphase.trans (if_neg hnil))
    have hne : u.mem.look ≠ [] := by simp [hmem, hnil]
    have hports : u.noIoErrors := ⟨by rw [hsrc], by rw [hsnk, hio.2]⟩
    have hhost' : u.host = [] := by rw [hframe]; exact hhost
    have hrest : u.toEncode = s.src.bytes := by rw [State.toEncode, hmem, hsrc, List.take_append_drop]
    have hwritten : u.written = [] := by
      rw [State.written, hsnk, hout, hwr', hwr]
      rfl
    obtain ⟨n, t, tokens, hrun, hdone, hbits, hlist⟩ := encLoop_runs_to_done hloop hne hports hhost'
    rw [hwritten, List.nil_append] at hbits
    rw [hrest] at hlist
    exact ⟨n + 1, t, tokens, (run_of_step hstep n).trans hrun, hdone, hbits, hlist⟩

/-- Settles O56: the START connects the plaintext, and the session it begins leaves a listing of it. -/
theorem encodedStreamIsATokenListing : Obligations.EncodedStreamIsATokenListing := by
  intro plain s hbusy hhost hjobs
  have hpins : s.pins = .startEncode := by rw [State.pins, hhost]; rfl
  have haccepts : s.accepts := ⟨by rw [hpins]; rfl, by rw [hpins]; rfl, hbusy⟩
  have hstart := step_of_accepts_encode haccepts (by rw [hpins]; rfl)
  have hjob : s.popHost.nextJob = ⟨⟨plain, none⟩, none⟩ := by
    change s.jobs.headD _ = _
    rw [hjobs, List.headD_cons]
  have hports : (startSession .encode .encPrime s.popHost).noIoErrors := by
    rw [State.noIoErrors, startSession_src, startSession_snk, hjob]
    exact ⟨rfl, rfl⟩
  have hhost' : (startSession .encode .encPrime s.popHost).host = [] := by
    change s.host.tail = []
    rw [hhost, List.tail_cons]
  obtain ⟨n, t, tokens, hrun, hdone, hout, hlist⟩ :=
    encPrime_runs_to_done (startSession_inv (.inl ⟨rfl, rfl⟩) s.popHost) rfl hports hhost'
  rw [startSession_src, hjob] at hlist
  have hbytes : t.snk.out = assemble tokens := hout
  exact ⟨n + 1, t, tokens, n.succ_pos, (run_of_step hstart n).trans hrun, hdone, hbytes, hlist.valid, hlist.covers,
    hbytes ▸ length_assemble tokens⟩

end Sys2Proof.Machine
end

section
/-! Where a DECODE session begins, and what a literal and a legal match do (44_decoder.md R150, R152, R153;
42_history_matchfinder.md R112). -/

namespace Sys2Proof.Machine

/-- Settles O10: START takes the values of `startSession`, whose copy engine is drawn within its ranges. -/
theorem decodeCommandStartsASession : Obligations.DecodeCommandStartsASession := by
  intro s hbusy
  obtain ⟨hidx, hrem⟩ := drawn_copyRange s.draws
  exact ⟨_, exec_cmdDecode_of_not_busy hbusy, rfl, rfl, rfl, rfl, rfl, rfl, rfl, rfl, rfl, rfl, rfl,
    Nat.le_of_lt_succ hidx, hrem⟩

/-- Settles O16: of the ends of `LIT` the exhaustion signal and the sink select one. -/
theorem literalExecution : Obligations.LiteralExecution := by
  intro data s
  rcases execLit_cases data s with ⟨hx, h⟩ | ⟨hx, hf, h⟩ | ⟨hx, hf, h⟩
  · exact ⟨fun _ => h, fun hx' => absurd hx (by simp [hx']), fun hx' => absurd hx (by simp [hx'])⟩
  · exact ⟨fun hx' => absurd hx (by simp [hx']), fun _ hf' => absurd hf hf', fun _ _ => h⟩
  · exact ⟨fun hx' => absurd hx (by simp [hx']), fun _ _ => h, fun _ hf' => absurd hf' hf⟩

/-! ### A match inside the history -/

/-- What the sink has left after `k` bytes, whether or not it fails. -/
theorem Copied.failAfter_eq {start k : Nat} {s t : State} (h : Copied start k s t) :
    t.snk.failAfter = s.snk.failAfter.map (· - k) := by
  cases hs : s.snk.failAfter with
  | none =>
    refine Option.map_eq_none_iff.mp (h.capacity.trans ?_)
    rw [Sink.capacity, hs, Option.map_none]
  | some total =>
    obtain ⟨left, hleft, hsum⟩ := h.failAfter hs
    rw [hleft, Option.map_some]
    exact congrArg some (by omega)

/-- A legal match whose bytes the sink takes is a whole copy and the exhaustion test after it (R153). -/
theorem execRef_of_legal {pos : BitVec 12} {len : BitVec 4} {s : State} (hlen : Config.minMatchSize < len.toNat)
    (hpos : pos.toNat < s.mem.hist.length) (hcap : s.mem.hist.length ≤ Config.dictionarySize)
    (hsink : ∀ k, s.snk.failAfter = some k → len.toNat ≤ k) :
    ∃ u, Copied pos.toNat len.toNat ((s.setRef ⟨pos, len⟩).setCopy ⟨pos.toNat, len.toNat⟩) u ∧
      execRef pos len s = .next (if s.rd.exh then u.setPhase .done else u) := by
  have hcopy := copyRange_copied (s := s.setRef ⟨pos, len⟩) len.toNat hpos hcap
  rcases execRef_cases pos len s with ⟨hshort, _⟩ | ⟨_, hout, _⟩ | ⟨_, _, hexec⟩
  · exact absurd hlen (Nat.not_lt.mpr hshort)
  · exact absurd hpos (Nat.not_lt.mpr hout)
  · cases hres : copyRange pos.toNat len.toNat (s.setRef ⟨pos, len⟩) <;> rw [hres] at hcopy hexec
    case ok _ u =>
      have hrd : u.rd = s.rd := by
        obtain ⟨c, h, k, rfl⟩ := hcopy.frame
        rfl
      refine ⟨u, hcopy, hexec.trans ?_⟩
      rw [Res.bind_ok, Res.outcome_ok, hrd]
    case raised t =>
      obtain ⟨j, hj, u, hu, hfull, -⟩ := hcopy
      obtain ⟨total, htotal, hleft⟩ := Option.map_eq_some_iff.mp (hu.failAfter_eq.symm.trans hfull)
      have := hsink total htotal
      omega
    all_goals exact hcopy.elim

/-- Settles O17: the copy is whole, and besides it only `REF` and the exhaustion test write anything. -/
theorem matchCopiesBytes : Obligations.MatchCopiesBytes := by
  intro pos len s hlen hpos hcap hsink
  obtain ⟨u, hu, hexec⟩ := execRef_of_legal hlen hpos hcap hsink
  have hrem : u.copy.rem = 0 := hu.rem.trans (Nat.sub_self _)
  have hhist := hu.hist
  have hout := hu.out
  have hfail := hu.failAfter_eq
  obtain ⟨c, h, ⟨out, failAfter⟩, rfl⟩ := hu.frame
  cases hfail
  refine ⟨_, hexec, ?_⟩
  split
  · exact ⟨hout, hhist, rfl, hrem, rfl⟩
  · exact ⟨hout, hhist, rfl, hrem, rfl⟩

end Sys2Proof.Machine
end

section
/-! The fetch of DEC.TOKEN as a whole: what it leaves in `REF`, and where it stops on a source that fails
(30_encoding.md R74; 44_decoder.md R151, R153, R156; 60_exceptions.md R173). -/

namespace Sys2Proof.Machine

/-! ### What the fetch leaves in `REF` -/

/-- What an operation leaves when it completes, whatever a fault leaves. -/
theorem Res.Ends.completes {α : Type} {P : α → State → Prop} {Q : State → Prop} {r : Res α} (h : r.Ends P Q) :
    r.Ends P (fun _ => True) :=
  h.mono (fun _ _ ha => ha) fun _ _ => trivial

/-- A literal leaves `REF` alone; a match leaves its operands there (R153). -/
theorem fetchToken_ref (s : State) :
    (fetchToken s).Ends
      (fun i t => (∃ data, i = .lit data ∧ t.ref = s.ref) ∨ i = decodeRef t.ref.pos t.ref.len) (fun _ => True) := by
  refine Res.Ends.bind (P := fun _ t => t.ref = s.ref)
    (Res.Ends.bind (readBits_post 1 s).completes ?_) fun flag s1 h1 => ?_
  · rintro _ _ ⟨r, q, rfl⟩
    rfl
  · cases flag with
    | true =>
      refine Res.Ends.bind (readPos_post s1).completes fun p s2 hpos => ?_
      refine Res.Ends.bind (readLen_post s2).completes fun l s3 hlen => ?_
      obtain ⟨-, rfl⟩ := hpos
      obtain ⟨-, href⟩ := hlen
      exact .inr (by rw [href])
    | false =>
      refine Res.Ends.bind (P := fun _ t => t.ref = s.ref)
        (Res.Ends.bind (readBits_post 8 s1).completes ?_) fun data s2 h2 => ?_
      · rintro _ _ ⟨r, q, rfl⟩
        exact h1
      · exact .inl ⟨data, rfl, h2⟩

theorem decodeRef_ne_lit (pos : BitVec 12) (len : BitVec 4) (data : BitVec 8) : decodeRef pos len ≠ .lit data := by
  unfold decodeRef
  split_ifs <;> nofun

theorem nextToken_of_match {bits : List Bool} (h : flagOf bits = true) :
    ∃ pos len, (nextToken bits).1 = decodeRef pos len := by
  rw [nextToken, if_pos h]
  exact ⟨_, _, rfl⟩

theorem nextToken_of_lit {bits : List Bool} (h : flagOf bits = false) : ∃ data, (nextToken bits).1 = .lit data := by
  rw [nextToken, if_neg (by simp [h])]
  exact ⟨_, rfl⟩

/-- Settles O27: the fetch delivers the bits of one token; the flag tells whether `REF` has been written. -/
theorem fetchReadsTheNextToken : Obligations.FetchReadsTheNextToken := by
  intro s hwf hexh herr
  obtain ⟨t, hfetch, ht⟩ := fetchToken_delivers ⟨hwf, fun hx => by simp [hexh] at hx, herr⟩
  have hframe := fetchToken_post s
  have href := fetchToken_ref s
  rw [hfetch] at hframe href
  obtain ⟨⟨r, q, f, rfl⟩, -, -⟩ := hframe
  have hsrc : q = ⟨q.bytes, none⟩ := congrArg (Source.mk q.bytes) ht.canRead.errAt
  refine ⟨_, hfetch, ?_, ?_, ht.canRead.wf, fun hflag => ?_, fun hflag => ?_, ht.fetched,
    congrArg (fun q' => ((s.setRd r).setSrc q').setRef f) hsrc⟩
  · rw [ht.unread, nextToken_rest]
  · rw [ht.exh, hexh, Bool.false_or]
  · obtain ⟨pos, len, hmatch⟩ := nextToken_of_match hflag
    rcases href with ⟨data, hlit, -⟩ | href
    · exact absurd (hmatch.symm.trans hlit) (decodeRef_ne_lit pos len data)
    · exact href
  · obtain ⟨data, hlit⟩ := nextToken_of_lit hflag
    rcases href with ⟨_, -, hkept⟩ | href
    · exact hkept
    · exact absurd (href.symm.trans hlit) (decodeRef_ne_lit _ _ data)

/-! ### A source that fails -/

section
variable {k : Nat} {offset : BitVec 32} {rest : List Byte} {s : State}

/-- `REF` is no part of the source. -/
theorem State.FailsAfter.setRef (h : s.FailsAfter k offset rest) (f : Ref) : (s.setRef f).FailsAfter k offset rest :=
  ⟨h.exh, h.error⟩

/-- Bits that all come before the failure are delivered. -/
theorem readBitsFrom_before_failure (v : BitVec 16) (n : Nat) (h : s.FailsAfter (k + n) offset rest) :
    ∃ w t, readBitsFrom v n s = .ok w t ∧ t.FailsAfter k offset rest := by
  induction n generalizing s v with
  | zero => exact ⟨v, s, rfl, h⟩
  | succ m ih =>
    obtain ⟨b, u, hbit, hu⟩ := readBit_before_failure h
    obtain ⟨w, t, hread, ht⟩ := ih _ hu
    exact ⟨w, t, by rw [readBitsFrom, hbit, Res.bind_ok]; exact hread, ht⟩

end

/-- The operation ends in a fault with `R.fetched` at `offset`. -/
def Res.RaisesAt {α : Type} (offset : BitVec 32) (r : Res α) : Prop := ∃ t, r = .raised t ∧ t.rd.fetched = offset

theorem Res.RaisesAt.bind {α β : Type} {offset : BitVec 32} {r : Res α} (h : r.RaisesAt offset)
    (f : α → State → Res β) : (r.bind f).RaisesAt offset := by
  obtain ⟨t, rfl, ht⟩ := h
  exact ⟨t, rfl, ht⟩

/-- The bits not yet delivered that come before the end of the source or its failure (R29, R58). -/
def State.available (s : State) : List Bool :=
  s.rd.held ++ bitsOfBytes (s.src.bytes.take (s.src.errAt.getD s.src.bytes.length))

section
variable {k n : Nat} {offset : BitVec 32} {rest : List Byte} {s : State}

theorem readBits_raisesAt (hlt : k < n) (h : s.FailsAfter k offset rest) : (readBits n s).RaisesAt offset := by
  obtain ⟨t, hread, hoffset, -⟩ := readBitsFrom_of_failsAfter 0#16 hlt h
  exact ⟨t, hread, hoffset⟩

/-- A byte fetched before the failure is held, and its bits are still to come (R100). -/
theorem fetchByte_available (h : s.FailsAfter (k + 1) offset rest) (hn : s.rd.n = 0) :
    ∃ u, fetchByte s = .ok () u ∧ u.FailsAfter (k + 1) offset rest ∧ u.rd.n = 8 ∧ u.available = s.available := by
  obtain ⟨u, hf, hu, -⟩ := fetchByte_failsAfter h hn
  obtain ⟨-, e, herr, -, hbits, -, -⟩ := h
  obtain ⟨e, rfl⟩ : ∃ e', e = e' + 1 := ⟨e - 1, by omega⟩
  rcases fetchByte_cases s with ⟨_, hf'⟩ | ⟨_, _, hf'⟩ | ⟨b, bs, _, hb, hf'⟩ <;> cases hf.symm.trans hf'
  case inr.inl => cases hu.exh
  case inr.inr =>
    refine ⟨_, hf, hu, rfl, ?_⟩
    rw [State.available, State.available, Reader.held_of_empty hn, hb, herr]
    change Reader.held ⟨b, 8, _, _⟩ ++ _ = _
    rw [Reader.held_fetched]
    rfl

/-- The first bit of the token is there: the reader holds it, or fetches the byte that has it (R101, R104). -/
theorem readBit_available (h : s.FailsAfter (k + 1) offset rest) (hn : s.rd.n ≤ 8) :
    ∃ t, readBit s = .ok (flagOf s.available) t ∧ t.FailsAfter k offset rest := by
  have hbit {u : State} (hpos : 0 < u.rd.n) (hle : u.rd.n ≤ 8) : (takeBit u).1 = flagOf u.available := by
    rw [State.available, Reader.held_cons hpos hle, takeBit, if_pos hpos]
    rfl
  rcases Nat.eq_zero_or_pos s.rd.n with hzero | hpos
  · obtain ⟨u, hf, hu, hfull, havail⟩ := fetchByte_available h hzero
    have hpos : 0 < u.rd.n := by omega
    refine ⟨(takeBit u).2, ?_, hu.takeBit hpos⟩
    rw [readBit_of_fetch hzero h.exh, hf, Res.bind_ok, hbit hpos hfull.le, havail]
  · refine ⟨(takeBit s).2, ?_, h.takeBit hpos⟩
    rw [readBit_of_no_fetch fun hc => hpos.ne' hc.1, hbit hpos hn]

theorem readFlag_available (h : s.FailsAfter (k + 1) offset rest) (hn : s.rd.n ≤ 8) :
    ∃ t, readFlag s = .ok (flagOf s.available) t ∧ t.FailsAfter k offset rest := by
  obtain ⟨t, hbit, ht⟩ := readBit_available h hn
  refine ⟨t, ?_, ht⟩
  rw [readFlag, readBits, readBitsFrom, hbit, Res.bind_ok, readBitsFrom, Res.bind_ok]
  cases flagOf s.available <;> rfl

/-- A match reads 16 bits after its flag, in two fields; the failure lies in one of them. -/
theorem refFields_raisesAt {α : Type} (f : BitVec 12 → BitVec 4 → State → Res α) (hlt : k < 16)
    (h : s.FailsAfter k offset rest) :
    ((readPos s).bind fun pos s2 => (readLen s2).bind (f pos)).RaisesAt offset := by
  rcases Nat.lt_or_ge k 12 with hlt12 | hge
  · exact ((readBits_raisesAt hlt12 h).bind _).bind _
  · obtain ⟨j, rfl⟩ := Nat.exists_eq_add_of_le' hge
    obtain ⟨w, t, hread, ht⟩ := readBitsFrom_before_failure 0#16 12 h
    have hlt4 : j < 4 := by omega
    rw [readPos, readBits, hread, Res.bind_ok, Res.bind_ok]
    exact ((readBits_raisesAt hlt4 (ht.setRef _)).bind _).bind _

/-- The fetch reaches a failure that lies before the end of the token its flag announces (R173). -/
theorem fetchToken_raisesAt (hlt : k < tokenLength (flagOf s.available)) (h : s.FailsAfter k offset rest)
    (hn : s.rd.n ≤ 8) : (fetchToken s).RaisesAt offset := by
  rw [fetchToken]
  cases k with
  | zero => exact ((readBits_raisesAt Nat.zero_lt_one h).bind _).bind _
  | succ j =>
    obtain ⟨t, hflag, ht⟩ := readFlag_available h hn
    rw [hflag, Res.bind_ok]
    cases hf : flagOf s.available <;> rw [hf] at hlt
    case true => exact refFields_raisesAt _ (Nat.lt_of_succ_lt_succ hlt) ht
    case false => exact ((readBits_raisesAt (Nat.lt_of_succ_lt_succ hlt) ht).bind _).bind _

end

/-- Settles O28: as many bits come before the failure as are available, and the fetch has changed the reader, the source
and `REF` only. -/
theorem fetchStopsAtSourceFailure : Obligations.FetchStopsAtSourceFailure := by
  intro e s avail hwf hexh herr hle havail hlt
  have hheld : s.rd.held.length = s.rd.n := by
    rw [Reader.held, List.length_take, length_msbBits, Nat.min_eq_left hwf.1]
  have hlen : avail.length = s.rd.n + 8 * e := by
    rw [havail, List.length_append, hheld, length_bitsOfBytes, List.length_take, Nat.min_eq_left hle]
  have heq : avail = s.available := by rw [havail, State.available, herr, Option.getD_some]
  rw [hlen, heq] at hlt
  obtain ⟨t, hraise, hoffset⟩ := fetchToken_raisesAt hlt
    (offset := s.rd.fetched + BitVec.ofNat 32 e) ⟨hexh, e, herr, hle, rfl, rfl, rfl⟩ hwf.1
  have hframe := fetchToken_post s
  rw [hraise] at hframe
  obtain ⟨u, ⟨r, q, f, rfl⟩, rfl⟩ := hframe
  refine ⟨_, hraise, rfl, ?_, by simp, fun hm => ?_⟩
  · rw [faultEntry_err, ← hoffset, faultEntry_rd]
    rfl
  · exact (faultEntry_of_decode (s := ((s.setRd r).setSrc q).setRef f) hm).2

end Sys2Proof.Machine
end

section
/-! A whole DECODE session without port failures: each token either ends it or leaves fewer bits to read, so it
ends in `DONE` or in a format fault (44_decoder.md R150 to R154, R156; 60_exceptions.md R170). -/

namespace Sys2Proof.Machine

/-! ### Where a session begins -/

/-- The host's START connects the one job it has ready, and nothing is driven after it (R191, R192). -/
theorem startSession_connects {pins : HostPins} {bytes : List Byte} {s : State} (hhost : s.host = [pins])
    (hjobs : s.jobs = [⟨⟨bytes, none⟩, none⟩]) (m : Mode) (p : Phase) :
    (startSession m p s.popHost).src = ⟨bytes, none⟩ ∧ (startSession m p s.popHost).snk = ⟨[], none⟩ ∧
      (startSession m p s.popHost).host = [] := by
  have hjob : s.popHost.nextJob = ⟨⟨bytes, none⟩, none⟩ := by
    change s.jobs.headD _ = _
    rw [hjobs, List.headD_cons]
  refine ⟨by rw [startSession_src, hjob], by rw [startSession_snk, hjob], ?_⟩
  change s.host.tail = []
  rw [hhost, List.tail_cons]

theorem State.accepts_of_host {pins : HostPins} {s : State} (hhost : s.host = [pins]) (hr : pins.rst = none)
    (hs : pins.start = true) (hbusy : s.busy = false) : s.accepts ∧ s.pins = pins := by
  have hpins : s.pins = pins := by
    rw [State.pins, hhost]
    rfl
  exact ⟨⟨hpins ▸ hr, hpins ▸ hs, hbusy⟩, hpins⟩

/-- Between the tokens of a DECODE session whose ports do not fail and whose host drives nothing more. -/
structure State.InDecSession (s : State) : Prop where
  inv : s.Inv
  phase : s.phase = .decLoop
  ports : s.noIoErrors
  host : s.host = []

/-- The START with `cmd_mode` = 1 begins the session with all of the source unread (R150). -/
theorem step_of_startDecode {bytes : List Byte} {s : State} (hbusy : s.busy = false)
    (hhost : s.host = [HostPins.startDecode]) (hjobs : s.jobs = [⟨⟨bytes, none⟩, none⟩]) :
    ∃ t, step s = .next t ∧ t.InDecSession ∧ t.unread = bitsOfBytes bytes ∧ t.snk.out = [] := by
  obtain ⟨haccepts, hpins⟩ := State.accepts_of_host hhost rfl rfl hbusy
  obtain ⟨hsrc, hsnk, hhost'⟩ := startSession_connects hhost hjobs .decode .decLoop
  refine ⟨_, step_of_accepts_decode haccepts (by rw [hpins]; rfl), ?_, ?_, by rw [hsnk]⟩
  · exact ⟨startSession_inv (.inr ⟨rfl, rfl⟩) _, rfl, ⟨by rw [hsrc], by rw [hsnk]⟩, hhost'⟩
  · rw [State.unread, hsrc]
    rfl

/-! ### The execution of a token -/

/-- What the execution of a token changes before it ends: `REF`, the copy engine, the history and the sink (R152, R153). -/
abbrev TokenFrame (s t : State) : Prop :=
  ∃ f c h k, t = (((s.setRef f).setCopy c).setMem ⟨h, s.mem.look⟩).setSnk k

/-- A match's copy stays inside the frame. -/
theorem Copied.tokenFrame {start k : Nat} {f : Ref} {c : CopyRegs} {s t : State}
    (h : Copied start k ((s.setRef f).setCopy c) t) : TokenFrame s t := by
  obtain ⟨c', m, q, rfl⟩ := h.frame
  exact ⟨f, c', m, q, rfl⟩

/-- With a sink that never fails a token takes a format fault, or runs to the exhaustion test (R152, R153). -/
theorem exec_of_no_failure {i : Instr} {s : State} (hi : i.isToken = true)
    (hcap : s.mem.hist.length ≤ Config.dictionarySize) (hsink : s.snk.failAfter = none) :
    (∃ code f, (code = .formatLen ∨ code = .formatPos) ∧ exec i s = .next (faultEntry code (s.setRef f))) ∨
    (∃ u, TokenFrame s u ∧ u.snk.failAfter = none ∧ exec i s = .next (if s.rd.exh then u.setPhase .done else u)) := by
  rcases exec_of_isToken hi s with ⟨data, hexec⟩ | ⟨pos, len, hexec⟩ <;> rw [hexec]
  · refine .inr ?_
    rcases execLit_cases data s with ⟨hx, h⟩ | ⟨_, hfail, _⟩ | ⟨hx, _, h⟩
    · exact ⟨s, ⟨s.ref, s.copy, s.mem.hist, s.snk, rfl⟩, hsink, by rw [h, hx]; rfl⟩
    · cases hsink.symm.trans hfail
    · exact ⟨_, ⟨s.ref, s.copy, (s.mem.push data).hist, ⟨s.snk.out ++ [data], none⟩, rfl⟩, rfl,
        by rw [h, hx, hsink]; rfl⟩
  · rcases execRef_cases pos len s with ⟨_, h⟩ | ⟨_, _, h⟩ | ⟨hlen, hpos, _⟩
    · exact .inl ⟨_, _, .inl rfl, h⟩
    · exact .inl ⟨_, _, .inr rfl, h⟩
    · obtain ⟨u, hu, h⟩ := execRef_of_legal hlen hpos hcap fun k hk => nomatch hsink.symm.trans hk
      have hnone : u.snk.failAfter = none := by
        rw [hu.failAfter_eq]
        exact Option.map_eq_none_iff.mpr hsink
      exact .inr ⟨u, hu.tokenFrame, hnone, h⟩

/-! ### A step of the session -/

section
variable {s u t : State}

/-- The step is the execution of the token at the cursor, the reader after it (R151). -/
theorem State.InDecSession.step_eq (h : s.InDecSession) :
    ∃ u, step s = exec (nextToken s.unread).1 u ∧ (nextToken s.unread).1.isToken = true ∧ FetchFrame s u ∧
      Delivers (tokenLength (flagOf s.unread)) s u := by
  obtain ⟨u, hfetch, hu⟩ := fetchToken_delivers ⟨h.inv.reader, fun hx => h.inv.exhausted (.inl hx), h.ports.1⟩
  have hpost := fetchToken_post s
  rw [hfetch] at hpost
  obtain ⟨hframe, htoken, -⟩ := hpost
  exact ⟨u, (step_of_host_nil h.host).trans ((sequencerStep_of_decLoop h.phase).trans (decToken_of_fetch hfetch)),
    htoken, hframe, hu⟩

/-- Exhaustion is signalled exactly when the token is cut short (R102, R156). -/
theorem State.InDecSession.exh_iff (h : s.InDecSession) {n : Nat} (hu : Delivers n s u) :
    u.rd.exh = true ↔ s.unread.length < n := by
  rw [hu.exh, (h.inv.decLoop h.phase).1, Bool.false_or, decide_eq_true_iff]

/-- After a whole token that takes no fault the session goes on behind it. -/
theorem State.InDecSession.goesOn (h : s.InDecSession) (hfetch : FetchFrame s u) {n : Nat} (hu : Delivers n s u)
    (htoken : TokenFrame u t) (hsink : t.snk.failAfter = none) (hstep : step s = .next t) :
    t.InDecSession ∧ t.unread = s.unread.drop n := by
  have hinv : t.Inv := stepKeepsTheInvariant s t h.inv hstep
  obtain ⟨f, c, m, k, rfl⟩ := htoken
  have hsrc : u.src.errAt = none := hu.canRead.errAt
  refine ⟨⟨hinv, ?_, ⟨hsrc, hsink⟩, ?_⟩, hu.unread⟩
  · exact (DecFrame.of_fetch hfetch).phase.trans h.phase
  · exact (DecFrame.of_fetch hfetch).host.trans h.host

/-- How a session without port failures ends (R154). -/
def State.DecodeEnded (t : State) : Prop :=
  (t.phase = .done ∧ t.rd.exh = true ∧ t.err.code = .none) ∨
    (t.phase = .fault ∧ (t.err.code = .formatLen ∨ t.err.code = .formatPos))

theorem faultEntry_decodeEnded {code : ErrCode} (hcode : code = .formatLen ∨ code = .formatPos) (s : State) :
    (faultEntry code s).DecodeEnded := by
  refine .inr ⟨rfl, ?_⟩
  rcases hcode with rfl | rfl <;> simp [faultEntry_err, ErrCode.isFormat]

theorem tokenLength_pos (flag : Bool) : 0 < tokenLength flag := by cases flag <;> decide

/-- A step ends the session or reads a whole token (R154, R156). -/
theorem State.InDecSession.ends_or_reads (h : s.InDecSession) :
    ∃ t, step s = .next t ∧ (t.DecodeEnded ∨ (t.InDecSession ∧ t.unread.length < s.unread.length)) := by
  obtain ⟨u, hstep, htoken, hfetch, hu⟩ := h.step_eq
  have hfields : u.mem = s.mem ∧ u.snk = s.snk ∧ u.err = s.err := by
    obtain ⟨r, q, f, rfl⟩ := hfetch
    exact ⟨rfl, rfl, rfl⟩
  obtain ⟨hmem, hsnk, herr⟩ := hfields
  rcases exec_of_no_failure htoken (hmem ▸ h.inv.memory.1) (hsnk ▸ h.ports.2) with
    ⟨code, f, hcode, hexec⟩ | ⟨t, hframe, hsink, hexec⟩ <;> rw [hexec] at hstep
  · exact ⟨_, hstep, .inl (faultEntry_decodeEnded hcode _)⟩
  · cases hx : u.rd.exh <;> rw [hx] at hstep
    case true =>
      refine ⟨_, hstep, .inl (.inl ⟨rfl, ?_, ?_⟩)⟩ <;> obtain ⟨f, c, m, k, rfl⟩ := hframe
      · exact hx
      · change u.err.code = .none
        rw [herr, h.inv.errClear (by rw [h.phase]; nofun)]
    case false =>
      obtain ⟨hon, hrest⟩ := h.goesOn hfetch hu hframe hsink hstep
      refine ⟨t, hstep, .inr ⟨hon, ?_⟩⟩
      have hwhole := mt (h.exh_iff hu).mpr (by simp [hx])
      have hpos := tokenLength_pos (flagOf s.unread)
      rw [hrest, List.length_drop]
      omega

/-- A session without port failures ends, by induction on the number of bits left to read. -/
theorem State.InDecSession.runs_to_end (h : s.InDecSession) :
    ∃ (n : Nat) (t : State), Host.Core.run core n s = .next t ∧ t.DecodeEnded := by
  induction hsize : s.unread.length using Nat.strong_induction_on generalizing s with
  | _ size ih =>
    obtain ⟨t, hstep, hend | ⟨hon, hless⟩⟩ := h.ends_or_reads
    · exact ⟨1, t, run_of_step hstep 0, hend⟩
    · obtain ⟨n, v, hrun, hend⟩ := ih _ (hsize ▸ hless) hon rfl
      exact ⟨n + 1, v, (run_of_step hstep n).trans hrun, hend⟩

end

/-- Settles O55: the START begins a session whose ports do not fail, and it ends. -/
theorem decodeSessionsEndAsListed : Obligations.DecodeSessionsEndAsListed := by
  intro bytes s hbusy hhost hjobs
  obtain ⟨s1, hstart, hsession, -, -⟩ := step_of_startDecode hbusy hhost hjobs
  obtain ⟨n, t, hrun, hend⟩ := hsession.runs_to_end
  exact ⟨n + 1, t, n.succ_pos, (run_of_step hstart n).trans hrun, hend⟩

end Sys2Proof.Machine
end

section
/-! The bytes a listing stands for: what the decoder makes of its tokens, and that the token the encoder chooses stands for
the plaintext it covers (42_history_matchfinder.md R112, R115; 43_encoder.md R132; 44_decoder.md R152, R153). -/

namespace Sys2Proof.Machine

/-- The output `out` with the bytes of one more token, which a match copies from the newest 4095 of it; none for a token
that would fault (R152, R153). -/
def expandToken (out : List Byte) : Instr → Option (List Byte)
  | .lit data => some (out ++ [data])
  | .matchRef pos len =>
    if Config.minMatchSize < len.toNat ∧ pos.toNat < (lastBytes Config.dictionarySize out).length then
      some (out ++ copiedBytes (lastBytes Config.dictionarySize out) pos.toNat len.toNat)
    else none
  | .matchLen0 _ => none
  | .matchLen1 _ => none
  | .matchLen2 _ => none
  | .cmdEncode => none
  | .cmdDecode => none

/-- The bytes of a listing after the output `out`. -/
def expandTokens (out : List Byte) (tokens : List Instr) : Option (List Byte) := tokens.foldlM expandToken out

theorem expandTokens_nil (out : List Byte) : expandTokens out [] = some out := rfl

theorem expandTokens_cons (out : List Byte) (i : Instr) (tokens : List Instr) :
    expandTokens out (i :: tokens) = (expandToken out i).bind fun more => expandTokens more tokens := List.foldlM_cons

theorem expandTokens_concat {out more all : List Byte} {tokens : List Instr} {i : Instr}
    (h : expandTokens out tokens = some more) (hi : expandToken more i = some all) :
    expandTokens out (tokens ++ [i]) = some all := by
  rw [expandTokens, List.foldlM_append, ← expandTokens, h]
  exact (expandTokens_cons more i []).trans (by rw [hi]; rfl)

/-- A token that stands for bytes is a literal or a legal match. -/
theorem expandToken_cases {out all : List Byte} {i : Instr} (h : expandToken out i = some all) :
    (∃ data, i = .lit data ∧ all = out ++ [data]) ∨
    (∃ pos len, i = .matchRef pos len ∧ Config.minMatchSize < len.toNat ∧
      pos.toNat < (lastBytes Config.dictionarySize out).length ∧
      all = out ++ copiedBytes (lastBytes Config.dictionarySize out) pos.toNat len.toNat) := by
  cases i with
  | lit data => exact .inl ⟨data, rfl, (Option.some.inj h).symm⟩
  | matchRef pos len =>
    rw [expandToken] at h
    split at h
    case isTrue hlegal => exact .inr ⟨pos, len, rfl, hlegal.1, hlegal.2, (Option.some.inj h).symm⟩
    case isFalse => cases h
  | matchLen0 _ => cases h
  | matchLen1 _ => cases h
  | matchLen2 _ => cases h
  | cmdEncode => cases h
  | cmdDecode => cases h

theorem expandToken_valid {out all : List Byte} {i : Instr} (h : expandToken out i = some all) :
    i.isToken = true ∧ i.wf = true := by
  rcases expandToken_cases h with ⟨data, rfl, -⟩ | ⟨pos, len, rfl, hlen, -⟩
  · exact ⟨rfl, rfl⟩
  · exact ⟨rfl, decide_eq_true hlen⟩

/-! ### The machine's own execution -/

/-- Before exhaustion the machine writes the bytes the token stands for (R152, R153). -/
theorem exec_expands {i : Instr} {all : List Byte} {s : State} (hx : s.rd.exh = false) (hsink : s.snk.failAfter = none)
    (hhist : s.mem.hist = lastBytes Config.dictionarySize s.snk.out) (h : expandToken s.snk.out i = some all) :
    ∃ t, exec i s = .next t ∧ TokenFrame s t ∧ t.snk = ⟨all, none⟩ := by
  rcases expandToken_cases h with ⟨data, rfl, rfl⟩ | ⟨pos, len, rfl, hlen, hpos, rfl⟩
  · obtain ⟨-, hlit, -⟩ := literalExecution data s
    rw [hsink] at hlit
    exact ⟨_, hlit hx nofun, ⟨s.ref, s.copy, (s.mem.push data).hist, _, rfl⟩, rfl⟩
  · rw [← hhist] at hpos ⊢
    have hcap : s.mem.hist.length ≤ Config.dictionarySize := hhist ▸ length_lastBytes_le _ _
    obtain ⟨u, hu, hexec⟩ := execRef_of_legal hlen hpos hcap fun k hk => nomatch hsink.symm.trans hk
    rw [hx] at hexec
    refine ⟨u, hexec, hu.tokenFrame, ?_⟩
    have hfail : u.snk.failAfter = none := hu.failAfter_eq.trans (Option.map_eq_none_iff.mpr hsink)
    exact congrArg₂ Sink.mk hu.out hfail

/-! ### The encoder's choice -/

/-- A copy of a run inside the history gives the run's bytes (R112, R115). -/
theorem copiedBytes_of_agree {h look : List Byte} {pos len : Nat} (hinside : pos + len ≤ h.length)
    (hlook : len ≤ look.length) (hagree : ∀ k < len, h[pos + k]? = look[k]?) :
    copiedBytes h pos len = look.take len := by
  refine List.ext_getElem? fun k => ?_
  rcases Nat.lt_or_ge k len with hlt | hge
  · have hmod : k % (h.length - pos) = k := Nat.mod_eq_of_lt (by omega)
    have hin : pos + k < h.length := by omega
    rw [copiedBytes, List.getElem?_map, List.getElem?_range hlt, Option.map_some, hmod, List.getElem?_take_of_lt hlt,
      ← hagree k hlt, List.getD_eq_getElem?_getD, List.getElem?_eq_getElem hin, Option.getD_some]
  · rw [List.getElem?_eq_none (by rwa [length_copiedBytes]),
      List.getElem?_eq_none (by rw [List.length_take]; omega)]

/-- The token stands for the bytes it covers (R132). -/
theorem expandToken_encodedToken {out : List Byte} {m : Memory} (hwf : m.wf) (hne : m.look ≠ [])
    (hhist : m.hist = lastBytes Config.dictionarySize out) :
    expandToken out (encodedToken m) = some (out ++ m.look.take (encodedCount m)) := by
  obtain ⟨hle, hmax, -, hinside, hagree, -, -⟩ := longestMatchIsLongestAndOldest m hwf.2
  have hcap := hwf.1
  unfold encodedToken encodedCount
  dsimp only
  split
  case isTrue hlong =>
    simp only [Config.dictionarySize, Config.minMatchSize] at hcap hlong
    have hpos : (BitVec.ofNat 12 (longestMatch m).1).toNat = (longestMatch m).1 :=
      (BitVec.toNat_ofNat _ _).trans (Nat.mod_eq_of_lt (by omega))
    have hlen : (BitVec.ofNat 4 (longestMatch m).2).toNat = (longestMatch m).2 :=
      (BitVec.toNat_ofNat _ _).trans (Nat.mod_eq_of_lt (by omega))
    rw [expandToken, hpos, hlen, ← hhist, if_pos ⟨hlong, by omega⟩, copiedBytes_of_agree hinside hle hagree]
  case isFalse =>
    obtain ⟨b, l, hl⟩ := List.exists_cons_of_ne_nil hne
    rw [hl]
    rfl

end Sys2Proof.Machine
end

section
/-! The round-trip law: an ENCODE session leaves a listing that stands for its plaintext, and a DECODE session of a listing
writes what the listing stands for (43_encoder.md R131, R132, R137; 44_decoder.md R151 to R156). -/

namespace Sys2Proof.Machine

theorem exists_step_of_run_succ {M : Host.Core} {n : Nat} {s t : M.State} (h : M.run (n + 1) s = .next t) :
    ∃ s1, M.step s = .next s1 ∧ M.run n s1 = .next t := by
  rw [Host.Core.run] at h
  split at h
  case h_1 s1 hs => exact ⟨s1, hs, h⟩
  case h_2 => cases h
  case h_3 => cases h

/-- What every step keeps, a run keeps. -/
theorem run_keeps {P : State → Prop} (hstep : ∀ s t, P s → step s = .next t → P t) (n : Nat) {s t : State} (h : P s)
    (hrun : Host.Core.run core n s = .next t) : P t := by
  induction n generalizing s with
  | zero =>
    cases hrun
    exact h
  | succ n ih =>
    obtain ⟨s1, hs, hrest⟩ := exists_step_of_run_succ hrun
    exact ih (hstep s s1 h hs) hrest

/-! ### The ENCODE session -/

/-- How far the session has come with `plain`: a listing of what has been encoded has been written, and the history and the
plaintext left go with it (R137). -/
inductive EncodeProgress (plain : List Byte) (s : State) : Prop where
  | priming (hphase : s.phase = .encPrime) (hsrc : s.src.bytes = plain)
  | looping (hphase : s.phase = .encLoop) (tokens : List Instr) (done : List Byte)
      (hstands : expandTokens [] tokens = some done) (hwritten : s.written = listingBits tokens)
      (hhist : s.mem.hist = lastBytes Config.dictionarySize done) (hrest : done ++ s.toEncode = plain)
  | finished (hphase : s.phase = .done) (tokens : List Instr) (hstands : expandTokens [] tokens = some plain)
      (hout : s.snk.out = assemble tokens)

/-- An ENCODE session of `plain` whose ports do not fail and whose host drives nothing more. -/
structure State.InEncSession (plain : List Byte) (s : State) : Prop where
  inv : s.Inv
  ports : s.noIoErrors
  host : s.host = []
  progress : EncodeProgress plain s

section
variable {plain : List Byte} {s t : State}

/-- ENC.PRIME begins with nothing written and nothing encoded (R131). -/
theorem encPrime_progress (h : s.Inv) (hio : s.noIoErrors) (hp : s.phase = .encPrime) :
    ∃ t, sequencerStep s = .next t ∧ t.noIoErrors ∧ t.host = s.host ∧ EncodeProgress s.src.bytes t := by
  obtain ⟨-, hwr, -, hout⟩ := h.primed hp
  obtain ⟨t, hprime, hmem, hsrc, -, hphase, hframe⟩ := primeFillsTheLookahead s h hp hio.1
  have hsnk : t.snk = s.snk := by rw [hframe]; rfl
  have hwr' : t.wr = s.wr := by rw [hframe]; rfl
  refine ⟨t, by rw [sequencerStep_of_encPrime hp, hprime, Res.outcome_ok], ⟨by rw [hsrc], by rw [hsnk, hio.2]⟩,
    by rw [hframe]; rfl, ?_⟩
  split at hphase
  case isTrue hnil =>
    exact .finished hphase [] (by rw [hnil]; rfl) (by rw [hsnk, hout]; rfl)
  case isFalse =>
    refine .looping hphase [] [] rfl ?_ (by rw [hmem]; rfl) ?_
    · rw [State.written, hsnk, hout, hwr', hwr]
      rfl
    · rw [List.nil_append, State.toEncode, hmem, hsrc, List.take_append_drop]

/-- ENC.STEP adds a token that stands for the bytes it covers (R132). -/
theorem encStep_progress {tokens : List Instr} {done : List Byte} (h : s.Inv) (hio : s.noIoErrors)
    (hp : s.phase = .encLoop) (hstands : expandTokens [] tokens = some done) (hwritten : s.written = listingBits tokens)
    (hhist : s.mem.hist = lastBytes Config.dictionarySize done) :
    ∃ t, sequencerStep s = .next t ∧ t.noIoErrors ∧ t.host = s.host ∧ EncodeProgress (done ++ s.toEncode) t := by
  obtain ⟨-, hne, -⟩ := h.encLoop hp
  obtain ⟨u, hdone, hstep⟩ := encStep_of_no_error (h.inEncLoop hp) hne hio
  have hcount := (encodedCount_bounds h.memory.2 hne).2
  have htake : s.toEncode.take (encodedCount s.mem) = s.mem.look.take (encodedCount s.mem) :=
    List.take_append_of_le_length hcount
  have hstands' := expandTokens_concat hstands (expandToken_encodedToken h.memory hne hhist)
  have hwritten' : u.written = listingBits (tokens ++ [encodedToken s.mem]) := by
    rw [hdone.written, hwritten, listingBits, listingBits, List.flatMap_append, List.flatMap_singleton]
  have hrest : done ++ s.mem.look.take (encodedCount s.mem) ++ u.toEncode = done ++ s.toEncode := by
    rw [hdone.toEncode, ← htake, List.append_assoc, List.take_append_drop]
  have hseq : sequencerStep s = (finishOrGoOn u).outcome := by rw [sequencerStep_of_encLoop hp, hstep]
  rcases hdone.ends with ⟨_, hend⟩ | ⟨hnil, hend⟩ <;> rw [hend, Res.outcome_ok] at hseq
  · refine ⟨u, hseq, hdone.ports, hdone.frame.host, .looping hdone.inLoop.phase _ _ hstands' hwritten' ?_ hrest⟩
    rw [hdone.hist, hhist, lastBytes_lastBytes_append, htake]
  · rw [hnil, List.append_nil] at hrest
    rw [hrest] at hstands'
    refine ⟨_, hseq, ⟨hdone.ports.1, rfl⟩, hdone.frame.host, .finished rfl _ hstands' ?_⟩
    exact congrArg packBits hwritten'

theorem State.InEncSession.keeps (h : s.InEncSession plain) (ht : step s = .next t) : t.InEncSession plain := by
  obtain ⟨hinv, hio, hhost, hprogress⟩ := h
  have hseq := (step_of_host_nil hhost).symm.trans ht
  have hnext : ∃ u, sequencerStep s = .next u ∧ u.noIoErrors ∧ u.host = s.host ∧ EncodeProgress plain u := by
    cases hprogress with
    | priming hp hsrc => exact hsrc ▸ encPrime_progress hinv hio hp
    | looping hp tokens done hstands hwritten hhist hrest =>
      exact hrest ▸ encStep_progress hinv hio hp hstands hwritten hhist
    | finished hp tokens hstands hout =>
      exact ⟨s, sequencerStep_of_not_busy (by rw [State.busy, hp]; rfl), hio, rfl, .finished hp tokens hstands hout⟩
  obtain ⟨u, hu, hports, hhost', hprogress'⟩ := hnext
  cases hu.symm.trans hseq
  exact ⟨sequencerStep_inv hinv hu, hports, hhost'.trans hhost, hprogress'⟩

theorem step_of_startEncode (hbusy : s.busy = false) (hhost : s.host = [HostPins.startEncode])
    (hjobs : s.jobs = [⟨⟨plain, none⟩, none⟩]) : ∃ t, step s = .next t ∧ t.InEncSession plain := by
  obtain ⟨haccepts, hpins⟩ := State.accepts_of_host hhost rfl rfl hbusy
  obtain ⟨hsrc, hsnk, hhost'⟩ := startSession_connects hhost hjobs .encode .encPrime
  refine ⟨_, step_of_accepts_encode haccepts (by rw [hpins]; rfl), startSession_inv (.inl ⟨rfl, rfl⟩) _,
    ⟨by rw [hsrc], by rw [hsnk]⟩, hhost', .priming rfl (by rw [hsrc])⟩

/-- An ENCODE session without port failures ends in `DONE` with a listing of its plaintext at the sink (R137). -/
theorem encodeSession_leaves_listing (hbusy : s.busy = false) (hhost : s.host = [HostPins.startEncode])
    (hjobs : s.jobs = [⟨⟨plain, none⟩, none⟩]) :
    ∃ (n : Nat) (t : State) (tokens : List Instr), 0 < n ∧ Host.Core.run core n s = .next t ∧ t.phase = .done ∧
      t.snk.out = assemble tokens ∧ expandTokens [] tokens = some plain := by
  obtain ⟨n, t, -, hpos, hrun, hdone, -⟩ := encodedStreamIsATokenListing plain s hbusy hhost hjobs
  obtain ⟨m, rfl⟩ := Nat.exists_eq_succ_of_ne_zero hpos.ne'
  obtain ⟨s1, hstart, hsession⟩ := step_of_startEncode hbusy hhost hjobs
  have hend := run_keeps (fun _ _ hs => hs.keeps) m hsession ((run_of_step hstart m).symm.trans hrun)
  cases hend.progress with
  | priming hp => cases hdone.symm.trans hp
  | looping hp => cases hdone.symm.trans hp
  | finished hp tokens hstands hout => exact ⟨m + 1, t, tokens, hpos, hrun, hdone, hout, hstands⟩

/-! ### The DECODE session -/

/-- A step on a token that stands for bytes writes them (R151). -/
theorem State.InDecSession.step_token {i : Instr} {rest : List Bool} {all : List Byte} (h : s.InDecSession)
    (hunread : s.unread = (encode i).bits ++ rest) (hstands : expandToken s.snk.out i = some all) :
    ∃ t, step s = .next t ∧ t.InDecSession ∧ t.unread = rest ∧ t.snk.out = all := by
  obtain ⟨htoken, hwf⟩ := expandToken_valid hstands
  obtain ⟨hnext, hwhole⟩ := head_of_token htoken hwf rest
  rw [← hunread] at hnext hwhole
  obtain ⟨u, hstep, -, hfetch, hu⟩ := h.step_eq
  have hx : u.rd.exh = false := Bool.eq_false_of_not_eq_true fun hx => Nat.not_lt.mpr hwhole ((h.exh_iff hu).mp hx)
  have hkept : u.mem = s.mem ∧ u.snk = s.snk := by
    obtain ⟨r, q, f, rfl⟩ := hfetch
    exact ⟨rfl, rfl⟩
  obtain ⟨hmem, hsnk⟩ := hkept
  have hhist : u.mem.hist = lastBytes Config.dictionarySize u.snk.out := by
    rw [hmem, hsnk]
    exact (h.inv.decLoop h.phase).2
  obtain ⟨t, hexec, hframe, hout⟩ := exec_expands hx (hsnk ▸ h.ports.2) hhist (hsnk ▸ hstands)
  rw [hnext, hexec] at hstep
  obtain ⟨hon, hrest⟩ := h.goesOn hfetch hu hframe (by rw [hout]) hstep
  exact ⟨t, hstep, hon, by rw [hrest, ← nextToken_rest, hnext], by rw [hout]⟩

/-- Padding shorter than a literal is dropped and ends the session (R79, R152, R156). -/
theorem State.InDecSession.step_padding {k : Nat} (h : s.InDecSession) (hk : k < 9)
    (hunread : s.unread = List.replicate k false) :
    ∃ t, step s = .next t ∧ t.phase = .done ∧ t.snk.out = s.snk.out := by
  have hflag : flagOf s.unread = false := by rw [hunread]; cases k <;> rfl
  obtain ⟨data, hlit⟩ := nextToken_of_lit hflag
  obtain ⟨u, hstep, -, hfetch, hu⟩ := h.step_eq
  have hx : u.rd.exh = true := (h.exh_iff hu).mpr (by rw [hflag, hunread, List.length_replicate]; exact hk)
  obtain ⟨hdropped, -, -⟩ := literalExecution data u
  rw [hlit, hdropped hx] at hstep
  obtain ⟨r, q, f, rfl⟩ := hfetch
  exact ⟨_, hstep, rfl, rfl⟩

/-- A session on the bits of a listing and padding writes what the listing stands for, by induction on the listing. -/
theorem State.InDecSession.runs_listing {tokens : List Instr} {k : Nat} (h : s.InDecSession) (hk : k < 9)
    (hunread : s.unread = listingBits tokens ++ List.replicate k false)
    (hstands : expandTokens s.snk.out tokens = some plain) :
    ∃ (n : Nat) (t : State), Host.Core.run core n s = .next t ∧ t.phase = .done ∧ t.snk.out = plain := by
  induction tokens generalizing s with
  | nil =>
    obtain ⟨t, hstep, hdone, hout⟩ := h.step_padding hk hunread
    exact ⟨1, t, run_of_step hstep 0, hdone, hout.trans (Option.some.inj hstands)⟩
  | cons i tokens ih =>
    rw [expandTokens_cons] at hstands
    obtain ⟨all, hi, htokens⟩ := Option.bind_eq_some_iff.mp hstands
    rw [listingBits, List.flatMap_cons, List.append_assoc] at hunread
    obtain ⟨u, hstep, hon, hrest, hout⟩ := h.step_token hunread hi
    obtain ⟨n, t, hrun, hdone, hplain⟩ := ih hon hrest (hout ▸ htokens)
    exact ⟨n + 1, t, (run_of_step hstep n).trans hrun, hdone, hplain⟩

end

/-- Settles O57: what the ENCODE session leaves is a listing that stands for the plaintext, packed with fewer than 8 padding
bits, and the DECODE session writes what it stands for. -/
theorem decodingAnEncodingGivesThePlaintext : Obligations.DecodingAnEncodingGivesThePlaintext := by
  intro plain s hbusy hhost hjobs
  obtain ⟨n, t, tokens, hpos, hrun, hdone, hout, hstands⟩ := encodeSession_leaves_listing hbusy hhost hjobs
  refine ⟨n, t, hpos, hrun, hdone, fun d hbusy' hhost' hjobs' => ?_⟩
  obtain ⟨d1, hstart, hsession, hunread, hempty⟩ := step_of_startDecode hbusy' hhost' hjobs'
  obtain ⟨k, hk, hbits⟩ := bitsOfBytes_packBits (listingBits tokens)
  rw [hout] at hunread
  obtain ⟨m, u, hrun', hdone', hplain⟩ :=
    hsession.runs_listing (Nat.lt_succ_of_lt hk) (hunread.trans hbits) (hempty ▸ hstands)
  exact ⟨m + 1, u, m.succ_pos, (run_of_step hstart m).trans hrun', hdone', hplain⟩

end Sys2Proof.Machine
end

section
/-! The answers of the handshakes, fault entry as a whole, and what the malformed references do: they take a fault at once,
and a format fault is precise (60_exceptions.md R171, R172, R176 to R178, R185). -/

namespace Sys2Proof.Machine

/-! ### The handshakes -/

theorem SrcPins.answer_of_err {p : SrcPins} (h : p.err = true) : p.answer = .err := if_pos h

theorem SrcPins.answer_of_valid {p : SrcPins} (he : p.err = false) (hv : p.valid = true) : p.answer = .byte p.data := by
  simp [SrcPins.answer, he, hv]

theorem SrcPins.answer_of_not_valid {p : SrcPins} (he : p.err = false) (hv : p.valid = false) : p.answer = .eof := by
  simp [SrcPins.answer, he, hv]

theorem SnkPins.answer_of_err {p : SnkPins} (h : p.err = true) : p.answer = .err := if_pos h

theorem SnkPins.answer_of_not_err {p : SnkPins} (h : p.err = false) : p.answer = .ok := by
  simp [SnkPins.answer, h]

/-- Settles O13: the answer tests the error pin first, and the modelled source and sink always close. -/
theorem errorAnswersWin : Obligations.ErrorAnswersWin :=
  ⟨fun _ _ => ⟨SrcPins.answer_of_err, SrcPins.answer_of_valid, SrcPins.answer_of_not_valid⟩,
    fun _ _ => ⟨SnkPins.answer_of_err, SnkPins.answer_of_not_err⟩, fun q k => ⟨q.drive_closes, k.drive_closes⟩⟩

/-! ### Fault entry -/

theorem ErrCode.isFormat_iff {code : ErrCode} : code.isFormat = true ↔ code = .formatLen ∨ code = .formatPos := by
  cases code <;> simp [ErrCode.isFormat]

section
variable {code : ErrCode} {s : State}

/-- In an ENCODE session whose sink has not failed, what fault entry does to the writer and the sink is the flush. -/
theorem faultEntry_of_encode (hm : s.mode = .encode) (hc : code ≠ .ioSnk) :
    ∃ e, (faultEntry code s).wr = (faultFlush (s.setErr e)).wr ∧
      (faultEntry code s).snk = (faultFlush (s.setErr e)).snk := by
  unfold faultEntry
  dsimp only
  rw [if_pos ⟨hm, hc⟩]
  exact ⟨_, rfl, rfl⟩

theorem faultFlush_of_pending (hn : 0 < s.wr.n) : faultFlush s = (sinkWrite s.wr.acc s).2.setWr ⟨0, 0⟩ := if_pos hn

/-- Pending bits go to the sink, whose refusal is ignored (R178). -/
theorem faultEntry_of_pending (hm : s.mode = .encode) (hc : code ≠ .ioSnk) (hn : 0 < s.wr.n) :
    (faultEntry code s).wr = ⟨0, 0⟩ ∧
      (s.snk.failAfter ≠ some 0 →
        (faultEntry code s).snk = ⟨s.snk.out ++ [s.wr.acc], s.snk.failAfter.map (· - 1)⟩) ∧
      (s.snk.failAfter = some 0 → (faultEntry code s).snk = s.snk) := by
  obtain ⟨e, hwr, hsnk⟩ := faultEntry_of_encode hm hc
  rw [faultFlush_of_pending (s := s.setErr e) hn] at hwr hsnk
  rcases sinkWrite_cases s.wr.acc (s.setErr e) with ⟨hf, h⟩ | ⟨hf, h⟩ <;> rw [State.setErr_wr, h] at hsnk
  · exact ⟨hwr, fun hf' => absurd hf hf', fun _ => hsnk⟩
  · exact ⟨hwr, fun _ => hsnk, fun hf' => absurd hf' hf⟩

theorem faultEntry_wr_of_empty (hn : s.wr.n = 0) : (faultEntry code s).wr = s.wr := by
  simp [faultEntry, faultFlush, hn]

/-- Without a flush the writer and the sink stay as they are (R178). -/
theorem faultEntry_of_no_flush (h : s.mode ≠ .encode ∨ code = .ioSnk ∨ s.wr.n = 0) :
    (faultEntry code s).wr = s.wr ∧ (faultEntry code s).snk = s.snk := by
  rcases h with hm | rfl | hn
  · refine faultEntry_of_decode ?_
    cases hmode : s.mode with
    | encode => exact absurd hmode hm
    | decode => rfl
  · exact faultEntry_of_ioSnk s
  · exact ⟨faultEntry_wr_of_empty hn, faultEntry_snk_of_empty code hn⟩

/-- Fault entry flushes nothing in a DECODE session, so it writes the error registers and `PHASE` only
(R177, R178). -/
theorem faultEntry_frame_of_decode (hm : s.mode = .decode) :
    faultEntry code s = (s.setErr (faultEntry code s).err).setPhase .fault := by
  obtain ⟨hwr, hsnk⟩ := faultEntry_of_decode (code := code) hm
  conv_lhs => rw [faultEntry_frame, hwr, hsnk]
  rfl

/-- A format fault records the malformed reference (R26, R178). -/
theorem faultEntry_err_of_format (hf : code.isFormat = true) :
    (faultEntry code s).err = ⟨code, s.ref.pos, s.ref.len, s.rd.fetched⟩ := by
  rw [faultEntry_err, if_pos hf]

end

/-- Settles O15: what is recorded, the flush, its absence, and the frame. -/
theorem faultEntryEffect : Obligations.FaultEntryEffect := by
  intro code s
  refine ⟨?_, faultEntry_of_pending, faultEntry_of_no_flush, faultEntry_frame code s⟩
  simp only [faultEntry_err, ErrCode.isFormat_iff]

/-! ### Malformed references -/

section
variable {pos : BitVec 12} {len : BitVec 4} {s : State}

theorem execRef_of_short (hlen : len.toNat ≤ Config.minMatchSize) :
    execRef pos len s = .next (faultEntry .formatLen (s.setRef ⟨pos, len⟩)) := by
  rcases execRef_cases pos len s with ⟨_, h⟩ | ⟨hlong, _⟩ | ⟨hlong, _⟩
  · exact h
  · exact absurd hlen (Nat.not_le.mpr hlong)
  · exact absurd hlen (Nat.not_le.mpr hlong)

theorem execRef_of_outside (hlen : Config.minMatchSize < len.toNat) (hpos : s.mem.hist.length ≤ pos.toNat) :
    execRef pos len s = .next (faultEntry .formatPos (s.setRef ⟨pos, len⟩)) := by
  rcases execRef_cases pos len s with ⟨hshort, _⟩ | ⟨_, _, h⟩ | ⟨_, hin, _⟩
  · exact absurd hlen (Nat.not_lt.mpr hshort)
  · exact h
  · exact absurd hpos (Nat.not_le.mpr hin)

end

/-- Settles O19: the length passes its check and the position does not. -/
theorem matchOutsideHistoryFaults : Obligations.MatchOutsideHistoryFaults :=
  fun _ _ _ hlen hpos => ⟨execRef_of_outside hlen hpos, faultEntry_err_of_format rfl⟩

/-- Settles O20: each illegal form is a reference with its length, and the length check comes first. -/
theorem shortMatchesFault : Obligations.ShortMatchesFault :=
  fun _ _ => ⟨execRef_of_short (len := 0#4) (by decide), execRef_of_short (len := 1#4) (by decide),
    execRef_of_short (len := 2#4) (by decide), fun _ hlen => ⟨execRef_of_short hlen, faultEntry_err_of_format rfl⟩⟩

/-! ### Format faults are precise (R177) -/

/-- How the execution of a token that starts in `s` may leave the error registers: unwritten, with the IO_SNK of a refused
byte, or by a fault taken before anything but `REF` was written. -/
def TokenFaults (s t : State) : Prop :=
  t.err = s.err ∨ t.err.code = .ioSnk ∨ ∃ code f, t = faultEntry code (s.setRef f)

theorem faultEntry_ioSnk_code (s : State) : (faultEntry .ioSnk s).err.code = .ioSnk := by rw [faultEntry_ioSnk]; rfl

/-- Only a refused byte faults a literal (R152, R174). -/
theorem execLit_tokenFaults {data : BitVec 8} {s t : State} (ht : execLit data s = .next t) : TokenFaults s t := by
  rcases execLit_cases data s with ⟨_, h⟩ | ⟨_, _, h⟩ | ⟨_, _, h⟩ <;> rw [h] at ht <;> cases ht
  · exact .inl rfl
  · exact .inr (.inl (faultEntry_ioSnk_code _))
  · exact .inl rfl

/-- Once a copy has begun only a refused byte faults it (R112, R174). -/
theorem copyRange_tokenFaults (start n : Nat) (s : State) :
    ((copyRange start n s).bind fun _ t => .ok () (if t.rd.exh then t.setPhase .done else t)).Post
      (fun _ t => t.err = s.err ∨ t.err.code = .ioSnk) (fun t => t.err = s.err ∨ t.err.code = .ioSnk) := by
  refine Res.Post.bind ((copyLoop_post n _).mono (fun _ _ h => h) ?_) fun _ u hu => .inl ?_
  · rintro _ ⟨u, -, rfl⟩
    exact .inr (faultEntry_ioSnk_code u)
  · have herr : u.err = s.err := (DecFrame.of_copy hu).err
    split <;> exact herr

/-- Both checks of a reference come before its copy (R153). -/
theorem execRef_tokenFaults {pos : BitVec 12} {len : BitVec 4} {s t : State} (ht : execRef pos len s = .next t) :
    TokenFaults s t := by
  rcases execRef_cases pos len s with ⟨_, h⟩ | ⟨_, _, h⟩ | ⟨_, _, h⟩ <;> rw [h] at ht
  · cases ht
    exact .inr (.inr ⟨_, _, rfl⟩)
  · cases ht
    exact .inr (.inr ⟨_, _, rfl⟩)
  · exact ((copyRange_tokenFaults _ _ _).of_outcome ht).imp_right .inl

theorem exec_tokenFaults {i : Instr} (hi : i.isToken = true) {s t : State} (ht : exec i s = .next t) :
    TokenFaults s t := by
  rcases exec_of_isToken hi s with ⟨data, he⟩ | ⟨pos, len, he⟩ <;> rw [he] at ht
  · exact execLit_tokenFaults ht
  · exact execRef_tokenFaults ht

/-- Settles O21: newly written registers that hold no IO_SNK are those of a fault taken with only `REF` written, and in a
DECODE session fault entry flushes nothing. -/
theorem formatFaultsArePrecise : Obligations.FormatFaultsArePrecise := by
  intro i s t hi hm ht hcode hnew
  rcases exec_tokenFaults hi ht with hsame | hio | ⟨code, f, rfl⟩
  · exact absurd hsame hnew
  · rw [hio] at hcode
    exact absurd hcode (by decide)
  · rw [faultEntry_ref]
    exact faultEntry_frame_of_decode (s := s.setRef f) hm

end Sys2Proof.Machine
end

section
/-! `rst` as a step: it overrides whatever else the host drives, in every state (60_exceptions.md R176;
70_reset_and_hazards.md R190). -/

namespace Sys2Proof.Machine

/-- Settles O8: the step is `applyRst`, whatever the phase and whatever the bytes of the operation it strikes. -/
theorem rstResetsTheBlock : Obligations.RstResetsTheBlock := fun _ _ hr =>
  ⟨_, step_of_rst hr, rfl, rfl, rfl, rfl, rfl, rfl, rfl, rfl, rfl, rfl, rfl, rfl, rfl, rfl⟩

end Sys2Proof.Machine
end

section
/-! Every session ends: each operation of a sequencer ends the session or uses up some of its input, a byte of plaintext
in ENC_LOOP and the bits of a token in DEC_LOOP, whether or not the ports fail (20_memory.md R58; 43_encoder.md R131, R132,
R135; 44_decoder.md R151 to R154; 70_reset_and_hazards.md R203). -/

namespace Sys2Proof.Machine

/-! ### Two facts about one operation -/

theorem Res.Post.and {α : Type} {P P' : α → State → Prop} {Q Q' : State → Prop} {r : Res α} (h : r.Post P Q)
    (h' : r.Post P' Q') : r.Post (fun a s => P a s ∧ P' a s) (fun s => Q s ∧ Q' s) := by
  cases r with
  | ok a s => exact ⟨h, h'⟩
  | raised s => exact ⟨h, h'⟩
  | fault r => trivial
  | refused r => trivial

/-! ### The variant -/

/-- A bound on the operations the sequencer still has to do in the session: ENC.STEP covers at least a byte, DEC.TOKEN reads
at least 9 bits or is the last (R203). -/
def State.stepsLeft (s : State) : Nat :=
  match s.phase with
  | .idle => 0
  | .encPrime => 1 + s.toEncode.length
  | .encLoop => s.toEncode.length
  | .decLoop => s.unread.length / 9 + 1
  | .done => 0
  | .fault => 0

section
variable {s t : State}

theorem State.stepsLeft_of_not_busy (hb : s.busy = false) : s.stepsLeft = 0 := by
  unfold State.busy at hb
  unfold State.stepsLeft
  cases hp : s.phase <;> simp [hp, Phase.busy] at hb ⊢

theorem State.stepsLeft_of_encPrime (hp : s.phase = .encPrime) : s.stepsLeft = 1 + s.toEncode.length := by
  simp only [State.stepsLeft, hp]

theorem State.stepsLeft_of_encLoop (hp : s.phase = .encLoop) : s.stepsLeft = s.toEncode.length := by
  simp only [State.stepsLeft, hp]

theorem State.stepsLeft_of_decLoop (hp : s.phase = .decLoop) : s.stepsLeft = s.unread.length / 9 + 1 := by
  simp only [State.stepsLeft, hp]

/-! ### ENC.PRIME -/

/-- ENC.FINISH ends the session, in `DONE` or in a fault (R136). -/
theorem encFinish_ends_session (s : State) : (encFinish s).Post (fun _ t => t.busy = false) (fun t => t.busy = false) := by
  rcases encFinish_cases s with ⟨_, h⟩ | ⟨_, _, h⟩ | ⟨_, _, h⟩ <;> rw [h] <;> exact rfl

/-- Priming only moves the plaintext: a byte is fetched when the lookahead has room for it (R131). -/
theorem primeLoop_toEncode (n : Nat) (s : State) :
    (primeLoop n s).Post (fun _ t => t.toEncode = s.toEncode) (fun t => t.busy = false) := by
  induction n generalizing s with
  | zero => exact rfl
  | succ n ih =>
    rcases primeLoop_succ n s with ⟨_, h⟩ | ⟨hroom, _, ⟨_, h⟩ | ⟨_, _, h⟩ | ⟨b, bs, _, hb, h⟩⟩ <;> rw [h]
    · exact rfl
    · exact rfl
    · exact ih _
    · refine (ih _).mono (fun _ t ht => ht.trans ?_) fun _ => id
      change (s.mem.append b).look ++ bs = s.mem.look ++ s.src.bytes
      rw [Memory.append_look_of_lt b hroom, hb, List.append_assoc, List.singleton_append]

theorem encPrime_stepsLeft (s : State) :
    (encPrime s).Post (fun _ t => t.stepsLeft ≤ s.toEncode.length) (fun t => t.stepsLeft ≤ s.toEncode.length) := by
  have hover {u : State} (hb : u.busy = false) : u.stepsLeft ≤ s.toEncode.length :=
    (State.stepsLeft_of_not_busy hb).trans_le (Nat.zero_le _)
  refine Res.Post.bind ((primeLoop_toEncode _ s).mono (fun _ _ => id) fun _ => hover) fun _ u hu => ?_
  dsimp only
  split
  · rw [← hu]
    exact Nat.le_refl u.toEncode.length
  · exact (encFinish_ends_session _).mono (fun _ _ => hover) fun _ => hover

/-! ### ENC.STEP -/

/-- The emission leaves the plaintext alone, and ENC.STEP goes on from a state of its loop. -/
theorem emitToken_toEncode (h : s.InEncLoop) :
    (emitToken s).Post (fun _ t => t.InEncLoop ∧ t.toEncode = s.toEncode) (fun t => t.busy = false) := by
  have houtput : (emitToken s).Post (fun _ t => ∃ w k, t = (s.setWr w).setSnk k)
      (fun t => ∃ w k, t = faultEntry .ioSnk ((s.setWr w).setSnk k)) := by
    unfold emitToken
    split
    · exact (emitMatch_post s).post
    · exact emitLit_post s
  have hloop : (emitToken s).Post (fun _ t => t.InEncLoop) State.Inv := by
    unfold emitToken
    split
    · exact (emitMatch_inEncLoop h).post
    · exact emitLit_inEncLoop h
  refine (hloop.and houtput).mono ?_ ?_
  · rintro _ t ⟨ht, w, k, rfl⟩
    exact ⟨ht, rfl⟩
  · rintro t ⟨-, w, k, rfl⟩
    rfl

/-- An advance uses up a byte: a full lookahead evicts the byte that has moved, and without a byte from the source it is
popped (R135). -/
theorem encAdvance_toEncode (h : s.InEncLoop) :
    (encAdvance s).Post (fun _ t => t.toEncode.length + 1 = s.toEncode.length) (fun t => t.busy = false) := by
  rcases encAdvance_cases s with ⟨_, ha⟩ | ⟨b, _, _, _, _, ha⟩ | ⟨b, l, hl, _, ha⟩ | ⟨b, l, c, cs, hl, he, _, hb, ha⟩ <;>
    rw [ha]
  · trivial
  · exact rfl
  · change (l ++ s.src.bytes).length + 1 = (s.mem.look ++ s.src.bytes).length
    rw [hl, List.cons_append, List.length_cons]
  · have hfull : (s.mem.push b).look.length = Config.maxMatchSize := h.full he
    change (((s.mem.push b).append c).look ++ cs).length + 1 = (s.mem.look ++ s.src.bytes).length
    rw [Memory.append_look_of_full c hfull, Memory.push_look, hl, hb, List.tail_cons, List.append_assoc,
      List.singleton_append, List.cons_append, List.length_cons]

theorem advanceTimes_toEncode (n : Nat) (h : s.InEncLoop) :
    (advanceTimes n s).Post (fun _ t => t.InEncLoop ∧ t.toEncode.length + n = s.toEncode.length)
      (fun t => t.busy = false) := by
  induction n generalizing s with
  | zero => exact ⟨h, rfl⟩
  | succ n ih =>
    have hone := (encAdvance_inEncLoop h).and (encAdvance_toEncode h)
    refine Res.Post.bind (hone.mono (fun _ _ => id) fun _ => And.right) fun _ u hu => ?_
    obtain ⟨hloop, hlen⟩ := hu
    refine (ih hloop).mono (fun _ t ht => ⟨ht.1, ?_⟩) fun _ => id
    rw [← Nat.add_assoc, ht.2, hlen]

/-- ENC.STEP covers at least one byte or ends the session (R132). -/
theorem encStep_stepsLeft (h : s.InEncLoop) (hne : s.mem.look ≠ []) :
    (encStep s).Post (fun _ t => t.stepsLeft < s.toEncode.length) (fun t => t.stepsLeft < s.toEncode.length) := by
  have hlook := h.sound.memory.2
  have hcount := (encodedCount_bounds hlook hne).1
  have hleft : 0 < s.toEncode.length := hcount.trans (encodedCount_le_toEncode hlook hne)
  have hover {u : State} (hb : u.busy = false) : u.stepsLeft < s.toEncode.length :=
    (State.stepsLeft_of_not_busy hb).trans_lt hleft
  rw [encStep_eq hlook]
  refine Res.Post.bind (P := fun _ t => t.InEncLoop ∧ t.toEncode.length + encodedCount s.mem = s.toEncode.length)
    (Res.Post.bind ((emitToken_toEncode h.searchRef).mono (fun _ _ => id) fun _ => hover) ?_) ?_
  · rintro _ u ⟨hloop, hsame⟩
    refine (advanceTimes_toEncode _ hloop).mono (fun _ t ht => ⟨ht.1, ?_⟩) fun _ => hover
    rw [ht.2, hsame]
    rfl
  · rintro _ u ⟨hloop, hlen⟩
    unfold finishOrGoOn
    split
    · exact (encFinish_ends_session u).mono (fun _ _ => hover) fun _ => hover
    · change u.stepsLeft < _
      rw [State.stepsLeft_of_encLoop hloop.phase]
      omega

/-! ### The reader, whether or not its source fails -/

theorem State.length_unread (hn : s.rd.n ≤ 8) : s.unread.length = s.rd.n + 8 * s.src.bytes.length := by
  rw [State.unread, List.length_append, length_bitsOfBytes, Reader.held, List.length_take, length_msbBits,
    Nat.min_eq_left hn]

/-- `t` is `s` after the reader has taken at least `n` bits, unless exhaustion has been signalled since (R101, R102). -/
structure Consumes (n : Nat) (s t : State) : Prop where
  held : t.rd.n ≤ 8
  sticky : t.rd.exh = false → s.rd.exh = false
  unread : t.rd.exh = false → t.unread.length + n ≤ s.unread.length

theorem Consumes.zero (hn : s.rd.n ≤ 8) : Consumes 0 s s := ⟨hn, id, fun _ => Nat.le_refl _⟩

theorem Consumes.trans {m n : Nat} {u : State} (h : Consumes m s t) (h' : Consumes n t u) : Consumes (m + n) s u where
  held := h'.held
  sticky := fun hx => h.sticky (h'.sticky hx)
  unread := fun hx => by
    have hfirst := h.unread (h'.sticky hx)
    have hrest := h'.unread hx
    omega

theorem Consumes.weaken {m n : Nat} (h : Consumes n s t) (hmn : m ≤ n) : Consumes m s t :=
  ⟨h.held, h.sticky, fun hx => (Nat.add_le_add_left hmn _).trans (h.unread hx)⟩

/-- `REF` is no part of the reader. -/
theorem Consumes.setRef {n : Nat} (h : Consumes n s t) (f : Ref) : Consumes n s (t.setRef f) :=
  ⟨h.held, h.sticky, h.unread⟩

/-- A fetch signals exhaustion or moves 8 bits from the source into the reader (R100). -/
theorem fetchByte_consumes (hn : s.rd.n = 0) :
    (fetchByte s).Post (fun _ t => Consumes 0 s t ∧ (t.rd.n = 0 → t.rd.exh = true)) (fun t => t.busy = false) := by
  rcases fetchByte_cases s with ⟨_, h⟩ | ⟨_, _, h⟩ | ⟨b, bs, _, hb, h⟩ <;> rw [h]
  · exact rfl
  · exact ⟨⟨Nat.zero_le 8, nofun, nofun⟩, fun _ => rfl⟩
  · refine ⟨⟨Nat.le_refl 8, id, fun _ => ?_⟩, nofun⟩
    rw [State.length_unread (Nat.le_refl 8), State.length_unread (hn.trans_le (Nat.zero_le 8)), hn, hb, List.length_cons]
    change 8 + 8 * bs.length + 0 ≤ _
    omega

/-- A reader that holds no bit takes one only past exhaustion (R103). -/
theorem takeBit_consumes (hn : s.rd.n ≤ 8) (hx : s.rd.n = 0 → s.rd.exh = true) : Consumes 1 s (takeBit s).2 := by
  unfold takeBit
  split
  case isTrue hpos =>
    have hle : s.rd.n - 1 ≤ 8 := (Nat.sub_le _ _).trans hn
    refine ⟨hle, id, fun _ => ?_⟩
    rw [State.length_unread hle, State.length_unread hn]
    change s.rd.n - 1 + 8 * s.src.bytes.length + 1 ≤ _
    omega
  case isFalse hzero =>
    have hexh := hx (Nat.eq_zero_of_not_pos hzero)
    exact ⟨hn, id, fun hf => nomatch hexh.symm.trans hf⟩

theorem readBit_consumes (hn : s.rd.n ≤ 8) :
    (readBit s).Post (fun _ t => Consumes 1 s t) (fun t => t.busy = false) := by
  unfold readBit
  split
  case isTrue hc =>
    refine Res.Post.bind (fetchByte_consumes hc.1) fun _ u hu => ?_
    obtain ⟨hfetch, hrefilled⟩ := hu
    exact hfetch.trans (takeBit_consumes hfetch.held hrefilled)
  case isFalse hc =>
    exact takeBit_consumes hn fun hzero => Bool.eq_true_of_not_eq_false fun hx => hc ⟨hzero, hx⟩

theorem readBits_consumes (n : Nat) (hn : s.rd.n ≤ 8) :
    (readBits n s).Post (fun _ t => Consumes n s t) (fun t => t.busy = false) := by
  unfold readBits
  generalize 0#16 = v
  induction n generalizing s v with
  | zero => exact .zero hn
  | succ n ih =>
    refine Res.Post.bind (readBit_consumes hn) fun b u hu => (ih hu.held _).mono (fun _ t ht => ?_) fun _ => id
    exact Nat.add_comm 1 n ▸ hu.trans ht

/-! ### DEC.TOKEN -/

/-- The shortest token has 9 bits (R71, R74). -/
theorem fetchToken_consumes (hn : s.rd.n ≤ 8) :
    (fetchToken s).Post (fun _ t => Consumes 9 s t) (fun t => t.busy = false) := by
  refine Res.Post.bind (P := fun _ t => Consumes 1 s t) (Res.Post.bind (readBits_consumes 1 hn) fun _ _ => id)
    fun flag s1 h1 => ?_
  cases flag with
  | true =>
    refine Res.Post.bind (P := fun _ t => Consumes 12 s1 t)
      (Res.Post.bind (readBits_consumes 12 h1.held) fun _ _ h => h.setRef _) fun _ s2 h2 => ?_
    refine Res.Post.bind (P := fun _ t => Consumes 4 s2 t)
      (Res.Post.bind (readBits_consumes 4 h2.held) fun _ _ h => h.setRef _) fun _ s3 h3 => ?_
    exact ((h1.trans h2).trans h3).weaken (by decide)
  | false =>
    refine Res.Post.bind (P := fun _ t => Consumes 8 s1 t)
      (Res.Post.bind (readBits_consumes 8 h1.held) fun _ _ => id) fun _ s2 h2 => ?_
    exact h1.trans h2

/-- The session is over, or it goes on with the reader and its source as they were and no exhaustion signalled. -/
def OverOrUnread (s t : State) : Prop := t.busy = false ∨ (s.rd.exh = false ∧ t.unread = s.unread)

theorem execLit_overOrUnread {data : BitVec 8} (ht : execLit data s = .next t) : OverOrUnread s t := by
  rcases execLit_cases data s with ⟨_, h⟩ | ⟨_, _, h⟩ | ⟨hx, _, h⟩ <;> rw [h] at ht <;> cases ht
  · exact .inl rfl
  · exact .inl rfl
  · exact .inr ⟨hx, rfl⟩

/-- The exhaustion test stands after the copy, which does not touch the reader (R153). -/
theorem execRef_overOrUnread {pos : BitVec 12} {len : BitVec 4} (ht : execRef pos len s = .next t) :
    OverOrUnread s t := by
  rcases execRef_cases pos len s with ⟨_, h⟩ | ⟨_, _, h⟩ | ⟨_, _, h⟩ <;> rw [h] at ht
  · cases ht
    exact .inl rfl
  · cases ht
    exact .inl rfl
  · refine Res.Post.of_outcome (Res.Post.bind ((copyLoop_post _ _).mono (fun _ _ => id) ?_) ?_) ht
    · rintro v ⟨u, _, rfl⟩
      exact .inl rfl
    · rintro _ u ⟨c, m, k, rfl⟩
      change OverOrUnread s (if s.rd.exh then _ else _)
      split
      case isTrue => exact .inl rfl
      case isFalse hx => exact .inr ⟨Bool.eq_false_of_not_eq_true hx, rfl⟩

/-- DEC.TOKEN ends the session or has read a whole token (R151, R154). -/
theorem decToken_overOrReads (hn : s.rd.n ≤ 8) (ht : decToken s = .next t) :
    t.busy = false ∨ t.unread.length + 9 ≤ s.unread.length := by
  have hfetch := fetchToken_consumes hn
  rcases decToken_next ht with ⟨i, u, hi, hf, hexec⟩ | hf <;> rw [hf] at hfetch
  · have hend : OverOrUnread u t := by
      rcases exec_of_isToken hi u with ⟨data, he⟩ | ⟨pos, len, he⟩ <;> rw [he] at hexec
      · exact execLit_overOrUnread hexec
      · exact execRef_overOrUnread hexec
    refine hend.imp_right fun ⟨hx, hsame⟩ => ?_
    rw [hsame]
    exact hfetch.unread hx
  · exact .inl hfetch

/-- An operation after which the block is busy has left the session in its loop. -/
theorem EndsIn.phase_of_busy {loop : Phase} (h : EndsIn loop s t) (hb : t.busy = true) : t.phase = loop := by
  refine h.phase.resolve_right fun hend => ?_
  rcases hend with hp | hp <;> simp [State.busy, hp, Phase.busy] at hb

theorem decToken_stepsLeft (hp : s.phase = .decLoop) (hn : s.rd.n ≤ 8) (ht : decToken s = .next t) :
    t.stepsLeft ≤ s.unread.length / 9 := by
  cases hb : t.busy with
  | false =>
    rw [State.stepsLeft_of_not_busy hb]
    exact Nat.zero_le _
  | true =>
    obtain ⟨u, -, hend⟩ := decToken_runsTo hp ht
    have hread := (decToken_overOrReads hn ht).resolve_left (by simp [hb])
    rw [State.stepsLeft_of_decLoop (hend.phase_of_busy hb)]
    omega

/-! ### A step, and the run -/

/-- Every operation of the sequencer decreases the variant. -/
theorem sequencerStep_stepsLeft (h : s.Inv) (hb : s.busy = true) (ht : sequencerStep s = .next t) :
    t.stepsLeft < s.stepsLeft := by
  rcases s.busy_iff.mp hb with hp | hp | hp
  · rw [State.stepsLeft_of_encPrime hp, Nat.one_add, Nat.lt_succ_iff]
    rw [sequencerStep_of_encPrime hp] at ht
    exact (encPrime_stepsLeft s).of_outcome ht
  · rw [State.stepsLeft_of_encLoop hp]
    rw [sequencerStep_of_encLoop hp] at ht
    obtain ⟨-, hne, -⟩ := h.encLoop hp
    exact (encStep_stepsLeft (h.inEncLoop hp) hne).of_outcome ht
  · rw [State.stepsLeft_of_decLoop hp, Nat.lt_succ_iff]
    rw [sequencerStep_of_decLoop hp] at ht
    exact decToken_stepsLeft hp h.reader.1 ht

/-- A good state whose host drives nothing more ceases to be busy, by induction on the variant. -/
theorem runs_to_not_busy (h : s.Inv) (hhost : s.host = []) :
    ∃ (n : Nat) (t : State), n ≤ s.stepsLeft ∧ Host.Core.run core n s = .next t ∧ t.busy = false := by
  induction hleft : s.stepsLeft using Nat.strong_induction_on generalizing s with
  | _ left ih =>
    subst hleft
    cases hb : s.busy with
    | false => exact ⟨0, s, Nat.zero_le _, rfl, hb⟩
    | true =>
      obtain ⟨u, hu⟩ := sequencerStep_goesOn h
      obtain ⟨-, -, hkept, -, -⟩ := sequencerStep_kept hu
      have hless := sequencerStep_stepsLeft h hb hu
      obtain ⟨n, t, hn, hrun, hover⟩ := ih _ hless (sequencerStep_inv h hu) (hkept.trans hhost) rfl
      have hstep : step s = .next u := (step_of_host_nil hhost).trans hu
      exact ⟨n + 1, t, Nat.succ_le_of_lt (hn.trans_lt hless), (run_of_step hstep n).trans hrun, hover⟩

end

/-- Settles O54: the variant bounds the run, and it is no more than what R203 allows in each phase. -/
theorem everySessionEnds : Obligations.EverySessionEnds := by
  intro s h hhost
  obtain ⟨n, t, hn, hrun, hover⟩ := runs_to_not_busy h hhost
  refine ⟨n, t, hrun, hover, fun hb => ?_, fun hp => ?_, fun hp => ?_⟩
  · exact Nat.le_zero.mp (State.stepsLeft_of_not_busy hb ▸ hn)
  · rcases hp with hp | hp
    · exact State.stepsLeft_of_encPrime hp ▸ hn
    · exact (State.stepsLeft_of_encLoop hp ▸ hn).trans (Nat.le_add_left _ 1)
  · exact State.stepsLeft_of_decLoop hp ▸ hn

end Sys2Proof.Machine
end
